-- ==== Sys2Proof/Word.lean ====
section
/-! DEFINITION. The fixed widths of spec/00_scope.md R12 to R15. -/

namespace Sys2Proof

/-- A register, a command word or the data of one bus transaction (R12: "registers are 32 bits"). -/
abbrev Word := BitVec 32

/-- One byte of a byte array or of BUF. -/
abbrev Byte := BitVec 8

/-- A 64-bit seed or key (R15, R122: unsigned integers of at most 64 bits). -/
abbrev DWord := BitVec 64

/-- A 16-byte block of the AES primitives (R8, R9). -/
abbrev Block := Vector Byte 16

end Sys2Proof
end

