-- ==== Sys2Proof/Config.lean ====
section
/-! DEFINITION. What is fixed for one machine (spec/00_scope.md section 3), the source's constants (R18), and the
free values (spec/93_implementation_defined.md part 1). -/

namespace Sys2Proof

/-- MR0K_SEED2_SOURCE (R10): which key3 bytes Mr0k step 7 reads. -/
inductive Seed2Source where
  | preAes
  | postAes
deriving DecidableEq, Repr

/-- MR0K_NO_BLOCKKEY_MODE (R11): what Mr0k step 8 does when BlockKey is absent. -/
inductive NoBlockKeyMode where
  | skip
  | seedOnly
deriving DecidableEq, Repr

/-- The parameters a model "takes as an argument" (R6, R7, R10, R11). A state carries them, no step changes them, and
a statement about every state therefore holds for every choice of them (notes/assumptions 1, 2, 4).
`bufLog` codes the legal sizes of R7 and no other: BUF_SIZE = 2^(12 + bufLog), 2^12 to 2^23. -/
structure Params where
  base           : Nat
  bufLog         : Fin 12
  seed2Source    : Seed2Source
  noBlockKeyMode : NoBlockKeyMode
deriving DecidableEq, Repr

/-- BUF_SIZE (R7). -/
def Params.bufSize (p : Params) : Nat := 2 ^ (12 + p.bufLog.val)

/-- The spec's defaults: BUF_SIZE 2^16 (R7), PRE_AES (R10), SKIP (R11).
BASE has no default: 0 is a DESIGN CHOICE (notes/assumptions/1.md, unsafe). -/
def Params.default : Params where
  base := 0
  bufLog := 4
  seed2Source := .preAes
  noBlockKeyMode := .skip

namespace Config

/-- AESDEC_EXP (R8): total and opaque; the result depends on the expanded key and the block alone. -/
opaque aesDecExp : List Byte → Block → Block

/-- AESENC_ECB (R9): total and opaque; the result depends on the key and the block alone. -/
opaque aesEncEcb : Block → Block → Block

/-- FREE VALUE: what the host reads from a RAM byte not written since reset (10_state.md R61,
93_implementation_defined.md "a host read of it returns any value"). First argument: how often reset was asserted
so far; second: the window offset. A function of these two, so that reads stay idempotent (20_memory.md R79). -/
opaque ramAfterReset : Nat → Nat → Byte

/-- FREE VALUE: what a register that an abandoned command may write holds after the reset
(70_reset_and_hazards.md R260, 93_implementation_defined.md "Reset during a command"). First argument: how often
reset was asserted, this time included; second: the register's window offset. -/
opaque abandonedWord : Nat → Nat → Word

/-- MUL (R18), the PRNG's seeding multiplier. -/
def mul : Word := 0x6C078965#32

/-- GOLD (R18), the NextDecrypt subtrahend. -/
def gold : DWord := 0x61C8864E7A143579#64

/-- MR0K_MAGIC (R18), "mr0k". -/
def mr0kMagic : List Byte := [0x6D#8, 0x72#8, 0x30#8, 0x6B#8]

/-- UCN_SIG (R18), the 16 bytes of `#$unity3dchina!@`. -/
def ucnSig : List Byte :=
  [0x23#8, 0x24#8, 0x75#8, 0x6E#8, 0x69#8, 0x74#8, 0x79#8, 0x33#8,
   0x64#8, 0x63#8, 0x68#8, 0x69#8, 0x6E#8, 0x61#8, 0x21#8, 0x40#8]

end Config
end Sys2Proof
end

