-- ==== Sys2Proof/Syntax.lean ====
section
/-! DEFINITION. The eight commands of spec/30_encoding.md R93, one constructor per row of spec/opcode_table.json.
No command word carries an operand (R92): every operand is a register read at the engine step. -/

namespace Sys2Proof

inductive Instr where
  /-- §4.4 `Seed` (41_prng.md R133). -/
  | prngSeed
  /-- §4.4 `NextUInt32()` (41_prng.md R134). -/
  | prngNext
  /-- §4.4 `NextDecrypt(size)` (41_prng.md R136). -/
  | prngNextDecrypt
  /-- §4.1 `IsMr0k` (42_mr0k.md R151). -/
  | mr0kCheck
  /-- §4.1 `Decrypt(buffer, profile)` (42_mr0k.md R152). -/
  | mr0kDecrypt
  /-- §4.2 `Entry.Validate()` and key load (43_unitycn.md R181). -/
  | ucnKeyHex
  /-- §4.2 header parse (43_unitycn.md R188). -/
  | ucnHeader
  /-- §4.2 block decrypt (43_unitycn.md R204). -/
  | ucnBlock
deriving DecidableEq, Repr

end Sys2Proof
end

