-- ==== Sys2Proof/WellFormed.lean ====
section
/-! DEFINITION. Which command words are legal (spec/30_encoding.md R90, R91, R94). A command has no operand, so every
`Instr` is well-formed as a term; what can be ill-formed is a word: its RSVD field or its OPCODE. -/

namespace Sys2Proof

/-- RSVD, bits 31:8, must be 0 (R90). -/
def WellFormed.rsvdZero (v : Word) : Bool := v.extractLsb' 8 24 == 0#24

/-- OPCODE, bits 7:0, is one of the eight of R93. -/
def WellFormed.opcodeKnown (v : Word) : Bool :=
  [0x01#8, 0x02#8, 0x03#8, 0x10#8, 0x11#8, 0x20#8, 0x21#8, 0x22#8].contains (v.extractLsb' 0 8)

/-- R91: "The command is legal exactly when `v[31:8] = 0` and `op` is one of the eight opcodes". -/
def WellFormed.word (v : Word) : Bool := WellFormed.rsvdZero v && WellFormed.opcodeKnown v

/-- R92: no command carries an operand, so no term of `Instr` is ill-formed. -/
def Instr.wf (i : Instr) : Bool :=
  match i with
  | .prngSeed => true
  | .prngNext => true
  | .prngNextDecrypt => true
  | .mr0kCheck => true
  | .mr0kDecrypt => true
  | .ucnKeyHex => true
  | .ucnHeader => true
  | .ucnBlock => true

end Sys2Proof
end

