-- ==== Sys2Proof/Decode.lean ====
section
/-! DEFINITION. The decoder of spec/30_encoding.md R91, R99, total on every 32-bit word and rejecting by name (R94),
and after it the encoder, written from the `match` column of R93 and spec/opcode_table.json. -/

namespace Sys2Proof

/-- Why a command word is illegal (R94). -/
inductive Illegal where
  /-- bits 31:8 are not all 0 -/
  | reservedBits
  /-- bits 7:0 are no opcode of R93 -/
  | unknownOpcode
deriving DecidableEq, Repr

/-- What the decoder answers. -/
inductive Decoded where
  | command (i : Instr)
  | illegal (why : Illegal)
deriving DecidableEq, Repr

/-- OPCODE, `v[7:0]` (R90). -/
def opcodeField (v : Word) : Byte := v.extractLsb' 0 8

/-- RSVD, `v[31:8]` (R90). -/
def rsvdField (v : Word) : BitVec 24 := v.extractLsb' 8 24

/-- The rows of R93: opcode and command. -/
def opcodeRows : List (Byte × Instr) :=
  [(0x01#8, .prngSeed), (0x02#8, .prngNext), (0x03#8, .prngNextDecrypt),
   (0x10#8, .mr0kCheck), (0x11#8, .mr0kDecrypt),
   (0x20#8, .ucnKeyHex), (0x21#8, .ucnHeader), (0x22#8, .ucnBlock)]

/-- R99: "if `v[31:8] != 0` the command is illegal; otherwise look `v[7:0]` up in rule R93". -/
def decodeWord (v : Word) : Decoded :=
  if rsvdField v = 0#24 then
    match opcodeRows.lookup (opcodeField v) with
    | some i => .command i
    | none => .illegal .unknownOpcode
  else .illegal .reservedBits

/-- The instruction of a word numbered as spec/opcode_table.json numbers it, bit 0 its least significant bit. A command
is exactly one 32-bit word (R90), so a longer row is none; the bits above a shorter row are 0. -/
def decodeTableWord (nbits w : Nat) : Option Instr :=
  if nbits ≤ 32 then
    match decodeWord (BitVec.ofNat 32 (w % 2 ^ nbits)) with
    | .command i => some i
    | .illegal _ => none
  else none

/-- The whole command word of each command: the `match` column of R93. -/
def encode (i : Instr) : Word :=
  match i with
  | .prngSeed => 0x00000001#32
  | .prngNext => 0x00000002#32
  | .prngNextDecrypt => 0x00000003#32
  | .mr0kCheck => 0x00000010#32
  | .mr0kDecrypt => 0x00000011#32
  | .ucnKeyHex => 0x00000020#32
  | .ucnHeader => 0x00000021#32
  | .ucnBlock => 0x00000022#32

end Sys2Proof
end

