-- ==== Sys2Proof/Machine/State.lean ====
section
/-! DEFINITION. The state of the block (spec/10_state.md), its bus transactions and their answers, the turns of the
agents, the faults and refusals, and the state after reset (spec/70_reset_and_hazards.md R261). -/

namespace Sys2Proof.Machine

/-- The byte arrays and BUF (20_memory.md R71): window offset and byte, offsets strictly rising. An offset that is not
listed holds no value (10_state.md R61), so no entry ever equals what an unlisted offset reads as. -/
abbrev Memory := List Host.Cell

/-- The canonical form of a memory: offsets strictly rising. -/
abbrev Memory.wf (m : Memory) : Prop := List.Pairwise (fun c d => c.1 < d.1) m

/-- What stops the machine. -/
inductive Fault where
  /-- Raised by an engine operation that reads a RAM byte (window offset `off`) not written since reset: "an operation
  that reads one faults in the model" (10_state.md R61). Safe: the block goes on with an unspecified byte. -/
  | unwrittenByte (off : Nat)
deriving DecidableEq, Repr

/-- Why the model gives no meaning. -/
inductive Refusal where
  /-- Raised by exec's arm of an instruction without a meaning. No arm raises it in this model. Safe. -/
  | notModelled (mnemonic : String)
deriving DecidableEq, Repr

/-- The nine causes of 60_exceptions.md R231, in the order of their ERR bits. -/
inductive Cause where
  | illegalCmd
  | unseeded
  | noTables
  | config
  | bounds
  | length
  | invalidSignature
  | invalidKeyLength
  | busyAccess
deriving DecidableEq, Repr

/-- PRNG_X, PRNG_Y, PRNG_Z, PRNG_W (10_state.md R32). -/
structure Prng where
  x : Word
  y : Word
  z : Word
  w : Word
deriving DecidableEq, Repr

/-- The stored bits of CTRL (10_state.md R22); bits 31:3 are RAZ/WI. -/
structure Ctrl where
  akeyEn : Bool
  doneIe : Bool
  errIe  : Bool
deriving DecidableEq, Repr

/-- MR0K_IVLEN, MR0K_SBOXEN, MR0K_EKLEN, MR0K_PKLEN, MR0K_BKLEN: the stored bits (10_state.md R35 to R39). -/
structure Profile where
  ivLen  : BitVec 5
  sboxEn : Bool
  ekLen  : BitVec 8
  pkLen  : BitVec 5
  bkLen  : BitVec 5
deriving DecidableEq, Repr

/-- The word registers of the register map (10_state.md R20). -/
inductive WordReg where
  | id | ctrl | status | err | command | opAddr | opLen | opVal | result0 | result1
  | prngX | prngY | prngZ | prngW | prngSeed
  | ivLen | sboxEn | ekLen | pkLen | bkLen | ucnIndex
deriving DecidableEq, Repr

/-- The byte regions of the register map (10_state.md R20). -/
inductive ByteRegion where
  | iv | postKey | blockKey | aKey | indexTbl | subTbl | sbox | expKey | buf
deriving DecidableEq, Repr

/-- The three access widths of the host port (20_memory.md R73). -/
inductive Width where
  | w8 | w16 | w32
deriving DecidableEq, Repr

/-- One bus transaction (00_scope.md R19), at a bus address (BASE + offset). Of a write's data only the bits of its
width are moved. -/
inductive Access where
  | read (width : Width) (addr : Nat)
  | write (width : Width) (addr : Nat) (data : Word)
deriving DecidableEq, Repr

/-- What the port answers to one bus transaction (20_memory.md R74). -/
inductive Reply where
  /-- a read completed; the value it yields, zero-extended from the access width -/
  | readOk (data : Word)
  /-- a write completed -/
  | writeOk
  /-- a read got SLVERR, with its data -/
  | readSlverr (data : Word)
  /-- a write got SLVERR -/
  | writeSlverr
  /-- no answer: reset is asserted (R260), or the address is outside the window (R70) -/
  | noAnswer
deriving DecidableEq, Repr

/-- One turn of an agent. -/
inductive Turn where
  /-- the port performs the next host access -/
  | host (a : Access)
  /-- the engine may take its step (40_command_engine.md R112) -/
  | engine
  /-- the platform asserts the reset input (70_reset_and_hazards.md R260) -/
  | assertReset
  /-- the platform releases the reset input -/
  | releaseReset
deriving DecidableEq, Repr

/-- The whole state. INVENTORY.md, heading State, gives the rule that names each field. -/
structure State where
  params      : Params
  ctrl        : Ctrl
  busy        : Bool
  done        : Bool
  seeded      : Bool
  tablesValid : Bool
  err         : BitVec 9
  lastCmd     : Word
  opAddr      : Word
  opLen       : Word
  opVal       : Word
  result0     : Word
  result1     : Word
  prng        : Prng
  prngSeed    : Word
  profile     : Profile
  ucnIndex    : Word
  ram         : Memory
  inReset     : Bool
  resets      : Nat
  agenda      : List Turn
  replies     : List Reply
deriving DecidableEq, Repr

/-- The state after reset (70_reset_and_hazards.md R261): every stored register 0, RAM without values (10_state.md
R61). The parameters are the spec's defaults (notes/assumptions 1, 2, 4); the agenda, the replies and the reset count
are the model's own and start empty (DESIGN CHOICE, notes/assumptions/15.md). -/
def State.reset : State where
  params := Params.default
  ctrl := { akeyEn := false, doneIe := false, errIe := false }
  busy := false
  done := false
  seeded := false
  tablesValid := false
  err := 0#9
  lastCmd := 0#32
  opAddr := 0#32
  opLen := 0#32
  opVal := 0#32
  result0 := 0#32
  result1 := 0#32
  prng := { x := 0#32, y := 0#32, z := 0#32, w := 0#32 }
  prngSeed := 0#32
  profile := { ivLen := 0#5, sboxEn := false, ekLen := 0#8, pkLen := 0#5, bkLen := 0#5 }
  ucnIndex := 0#32
  ram := []
  inReset := false
  resets := 0
  agenda := []
  replies := []

end Sys2Proof.Machine
end

