-- ==== Sys2Proof/Machine/Flags.lean ====
section
/-! DEFINITION. STATUS, CTRL and ERR as the words software reads and writes (spec/10_state.md R22 to R26), and the
interrupt line (R53). -/

namespace Sys2Proof.Machine

/-- The ERR bit number of a cause (10_state.md R25, 60_exceptions.md R231). -/
def errBit (c : Cause) : Nat :=
  match c with
  | .illegalCmd => 0
  | .unseeded => 1
  | .noTables => 2
  | .config => 3
  | .bounds => 4
  | .length => 5
  | .invalidSignature => 6
  | .invalidKeyLength => 7
  | .busyAccess => 8

/-- `ERR.c <- 1`: sticky, the other bits stay (R25). -/
def errWith (e : BitVec 9) (c : Cause) : BitVec 9 := e ||| BitVec.twoPow 9 (errBit c)

/-- ERR as read: bits 31:9 read 0 (R25, R52). -/
def errWord (s : State) : Word := s.err.setWidth 32

/-- ERR after a host write of `v`: `R[ERR] & ~(v & 0x1FF)` (R26). -/
def errAfterWrite (e : BitVec 9) (v : Word) : BitVec 9 := e &&& ~~~(v.setWidth 9)

/-- STATUS.ERR_ANY: "not stored: each read computes it" (R24). -/
def errAny (s : State) : Bool := s.err != 0#9

/-- One bit at a place of a 32-bit word. -/
def bitAt (b : Bool) (n : Nat) : Word := if b then BitVec.twoPow 32 n else 0#32

/-- STATUS as read (R23): BUSY, DONE, SEEDED, TABLES_VALID, ERR_ANY in bits 0 to 4, the rest 0. -/
def statusWord (s : State) : Word :=
  bitAt s.busy 0 ||| bitAt s.done 1 ||| bitAt s.seeded 2 ||| bitAt s.tablesValid 3 ||| bitAt (errAny s) 4

/-- DONE after a host write of `v` to STATUS: cleared when bit 1 of `v` is 1 (R23). -/
def doneAfterWrite (done : Bool) (v : Word) : Bool := done && !v.getLsbD 1

/-- CTRL as read (R22): AKEY_EN, DONE_IE, ERR_IE in bits 0 to 2, the rest 0. -/
def ctrlWord (c : Ctrl) : Word := bitAt c.akeyEn 0 ||| bitAt c.doneIe 1 ||| bitAt c.errIe 2

/-- CTRL after a host write of `v`: bits 31:3 are ignored (R22). -/
def ctrlOf (v : Word) : Ctrl where
  akeyEn := v.getLsbD 0
  doneIe := v.getLsbD 1
  errIe := v.getLsbD 2

/-- `irq = (STATUS.DONE & CTRL.DONE_IE) | (STATUS.ERR_ANY & CTRL.ERR_IE)` (R53, 60_exceptions.md R244). -/
def irq (s : State) : Bool := (s.done && s.ctrl.doneIe) || (errAny s && s.ctrl.errIe)

end Sys2Proof.Machine
end

