-- ==== Sys2Proof/Machine/Ops.lean ====
section
/-! DEFINITION. The shared operations: the sparse memory and byte strings (spec/00_scope.md R13 to R16), the byte
regions of the window (spec/10_state.md R20), raising an error and completing a command (spec/00_scope.md R17,
spec/40_command_engine.md R113). -/

namespace Sys2Proof.Machine

/-! ### The memory -/

/-- The byte at a window offset; none where nothing was written since reset (10_state.md R61). -/
def Memory.read (m : Memory) (o : Nat) : Option Byte :=
  match m with
  | [] => none
  | (k, b) :: rest => if k = o then some b else Memory.read rest o

/-- Store one byte, keeping the offsets strictly rising. -/
def Memory.write (m : Memory) (o : Nat) (v : Byte) : Memory :=
  match m with
  | [] => [(o, v)]
  | (k, b) :: rest =>
    if o < k then (o, v) :: (k, b) :: rest
    else if o = k then (o, v) :: rest
    else (k, b) :: Memory.write rest o v

/-- The engine's read of one RAM byte: "an operation that reads one faults in the model" (10_state.md R61). -/
def readByte (m : Memory) (o : Nat) : Except Fault Byte :=
  match m.read o with
  | some b => .ok b
  | none => .error (.unwrittenByte o)

/-- `MemRead(o, n)`: the byte string of `n` bytes from window offset `o` (00_scope.md R16). -/
def readBytes (m : Memory) (o n : Nat) : Except Fault (List Byte) :=
  match n with
  | 0 => .ok []
  | n + 1 =>
    match readByte m o with
    | .error f => .error f
    | .ok b =>
      match readBytes m (o + 1) n with
      | .error f => .error f
      | .ok bs => .ok (b :: bs)

/-- `MemWrite(o, n, s)`: the bytes of `s` from window offset `o` on (00_scope.md R16). -/
def writeBytes (m : Memory) (o : Nat) (s : List Byte) : Memory :=
  match s with
  | [] => m
  | b :: bs => writeBytes (m.write o b) (o + 1) bs

/-- `for i in i0 .. i0+n-1: MEM[o+i] = MEM[o+i] ^ mask(i)`, in increasing `i`. -/
def xorRegion (mask : Nat → Except Fault Byte) (o i n : Nat) (m : Memory) : Except Fault Memory :=
  match n with
  | 0 => .ok m
  | n + 1 =>
    match readByte m (o + i) with
    | .error f => .error f
    | .ok b =>
      match mask i with
      | .error f => .error f
      | .ok k => xorRegion mask o (i + 1) n (m.write (o + i) (b ^^^ k))

/-! ### Byte strings -/

/-- Byte `i` of a byte string (R13). -/
def byteOf (s : List Byte) (i : Nat) : Byte := s.getD i 0#8

/-- `le64(s)`: byte `i` weighs 2^(8i) (R15). -/
def le64 (s : List Byte) : DWord :=
  byteOf s 7 ++ byteOf s 6 ++ byteOf s 5 ++ byteOf s 4 ++ byteOf s 3 ++ byteOf s 2 ++ byteOf s 1 ++ byteOf s 0

/-- `le_bytes8(v)`: byte `i` is `v[8i+7:8i]` (R15). -/
def leBytes8 (v : DWord) : List Byte :=
  [v.extractLsb' 0 8, v.extractLsb' 8 8, v.extractLsb' 16 8, v.extractLsb' 24 8,
   v.extractLsb' 32 8, v.extractLsb' 40 8, v.extractLsb' 48 8, v.extractLsb' 56 8]

/-- Bytewise XOR of two byte strings of one length. -/
def xorBytes (s t : List Byte) : List Byte := List.zipWith (fun a b => a ^^^ b) s t

/-- XOR a shorter string into the first bytes of `s`; the rest of `s` is unchanged (42_mr0k.md R159). -/
def xorInto (s t : List Byte) : List Byte :=
  match s, t with
  | a :: s', b :: t' => (a ^^^ b) :: xorInto s' t'
  | s', [] => s'
  | [], _ :: _ => []

/-- A 16-byte string as a block of the AES primitives. -/
def blockOf (s : List Byte) : Block := Vector.ofFn (fun i => byteOf s i.val)

/-! ### The byte regions of the window -/

/-- First window offset of a byte region (10_state.md R20). -/
def regionBase (r : ByteRegion) : Nat :=
  match r with
  | .iv => 0x080
  | .postKey => 0x090
  | .blockKey => 0x0A0
  | .aKey => 0x0C0
  | .indexTbl => 0x0E0
  | .subTbl => 0x0F0
  | .sbox => 0x400
  | .expKey => 0x800
  | .buf => 0x10000

/-- Size in bytes of a byte region (10_state.md R20, 00_scope.md R7, R12). -/
def regionSize (p : Params) (r : ByteRegion) : Nat :=
  match r with
  | .iv => 16
  | .postKey => 16
  | .blockKey => 16
  | .aKey => 16
  | .indexTbl => 16
  | .subTbl => 16
  | .sbox => 1024
  | .expKey => 240
  | .buf => p.bufSize

/-- Window offset of `BUF[a]`: 0x10000 + a (10_state.md R60). -/
def bufAt (a : Nat) : Nat := regionBase .buf + a

/-! ### Raising an error, completing a command -/

/-- How an operation ends, before completion. -/
inductive Op where
  /-- it finished -/
  | done (s : State)
  /-- `raise c` (00_scope.md R17), in the state that holds the changes made before the raise -/
  | raise (c : Cause) (s : State)
  /-- it read a RAM byte without a value -/
  | fault (f : Fault)

/-- Go on with what was read, or fault. -/
def Op.withRead {α : Type} (r : Except Fault α) (k : α → Op) : Op :=
  match r with
  | .ok a => k a
  | .error f => .fault f

/-- `ERR.c <- 1` (00_scope.md R17). -/
def raiseErr (c : Cause) (s : State) : State := { s with err := errWith s.err c }

/-- `STATUS.BUSY <- 0; STATUS.DONE <- 1` (40_command_engine.md R113). -/
def finish (s : State) : State := { s with busy := false, done := true }

/-- Completion, the one way an engine step ends (40_command_engine.md R113): "if it raised, `ERR.E <- 1`; then
`STATUS.BUSY <- 0; STATUS.DONE <- 1`". There is no trap (60_exceptions.md R230, R246) and no return (R247). -/
def complete (o : Op) : Host.Outcome State Fault Refusal :=
  match o with
  | .done s => .next (finish s)
  | .raise c s => .next (finish (raiseErr c s))
  | .fault f => .fault f

end Sys2Proof.Machine
end

