-- ==== Sys2Proof/Machine/Operands.lean ====
section
/-! DEFINITION. The operands of the commands (spec/30_encoding.md R92): fixed registers, unsigned, never extended or
scaled; the region check of spec/20_memory.md R81; the presence and legality of the Mr0k profile
(spec/10_state.md R45, spec/42_mr0k.md R153). -/

namespace Sys2Proof.Machine

/-- OP_ADDR as an unsigned number (R92). -/
def operandAddr (s : State) : Nat := s.opAddr.toNat

/-- OP_LEN as an unsigned number (R92). -/
def operandLen (s : State) : Nat := s.opLen.toNat

/-- `a + n <= BUF_SIZE`, "computed exactly, without wrap-around" (20_memory.md R81). -/
def fitsBuf (p : Params) (a n : Nat) : Bool := decide (a + n ≤ p.bufSize)

/-- InitVector length n_IV (10_state.md R35). -/
def nIv (p : Profile) : Nat := p.ivLen.toNat

/-- ExpansionKey length n_EK (R37). -/
def nEk (p : Profile) : Nat := p.ekLen.toNat

/-- PostKey length n_PK (R38). -/
def nPk (p : Profile) : Nat := p.pkLen.toNat

/-- BlockKey length n_BK (R39). -/
def nBk (p : Profile) : Nat := p.bkLen.toNat

/-- No stored length exceeds its store (42_mr0k.md R153). -/
def profileLegal (p : Profile) : Bool :=
  decide (nIv p ≤ 16) && decide (nEk p ≤ 240) && decide (nPk p ≤ 16) && decide (nBk p ≤ 16)

end Sys2Proof.Machine
end

