-- ==== Sys2Proof/Machine/Mr0k.lean ====
section
/-! DEFINITION. The Mr0k unit (spec/42_mr0k.md). -/

namespace Sys2Proof.Machine

/-- MR0K_CHECK (R151): only the first 4 bytes are compared, and fewer than 4 give 0. -/
def opMr0kCheck (s : State) : Op :=
  if !fitsBuf s.params (operandAddr s) (operandLen s) then .raise .bounds s
  else if operandLen s < 4 then .done { s with result0 := 0#32 }
  else
    .withRead (readBytes s.ram (bufAt (operandAddr s)) 4) fun head =>
      .done { s with result0 := if head = Config.mr0kMagic then 1#32 else 0#32 }

/-- Step 2, block length (R156). -/
def mr0kBlockLen (len : Nat) : Nat := min (16 * ((len - 0x94) >>> 7)) 1024

/-- Step 4 (R160), from byte `i` on: `key1[i] = SBOX[(i mod 4) * 256 + key1[i]]`. -/
def sboxMap (m : Memory) (i : Nat) (key : List Byte) : Except Fault (List Byte) :=
  match key with
  | [] => .ok []
  | b :: bs =>
    match readByte m (regionBase .sbox + ((i % 4) * 256 + b.toNat)) with
    | .error f => .error f
    | .ok c =>
      match sboxMap m (i + 1) bs with
      | .error f => .error f
      | .ok cs => .ok (c :: cs)

/-- Step 3 (R159): the InitVector is XORed into key2 over its own length; absent, key2 is unchanged. -/
def mr0kKey2 (s : State) (key2 : List Byte) : Except Fault (List Byte) :=
  match readBytes s.ram (regionBase .iv) (nIv s.profile) with
  | .error f => .error f
  | .ok iv => .ok (xorInto key2 iv)

/-- Step 4 (R160): skipped when the SBox is absent. -/
def mr0kSubst (s : State) (key1 : List Byte) : Except Fault (List Byte) :=
  if s.profile.sboxEn then sboxMap s.ram 0 key1 else .ok key1

/-- Step 5 (R161) on one key: AESDEC_EXP under `EXPKEY[0..n_EK)`, skipped when the ExpansionKey is absent. -/
def mr0kAes (s : State) (key : List Byte) : Except Fault (List Byte) :=
  if nEk s.profile = 0 then .ok key
  else
    match readBytes s.ram (regionBase .expKey) (nEk s.profile) with
    | .error f => .error f
    | .ok ek => .ok (Config.aesDecExp ek (blockOf key)).toList

/-- Step 7 (R163): `seed = seed2 ^ seed1 ^ ((seed1 + zext_64((L - 20) mod 2^32)) mod 2^64)`. -/
def mr0kSeed (src : Seed2Source) (key2 key3pre key3 : List Byte) (len : Nat) : DWord :=
  let seed1 := le64 key2
  let seed2 := le64 (match src with | .preAes => key3pre | .postAes => key3)
  seed2 ^^^ seed1 ^^^ (seed1 + (BitVec.ofNat 32 (len - 20)).setWidth 64)

/-- The mask of step 8 at byte `i` of the block (R164), BlockKey present. -/
def blockMask (s : State) (sb : List Byte) (i : Nat) : Except Fault Byte :=
  match readByte s.ram (regionBase .blockKey + i % nBk s.profile) with
  | .error f => .error f
  | .ok k => .ok (byteOf sb (i % 8) ^^^ k)

/-- Step 8 (R164) on the memory left by step 6. -/
def mr0kUnmask (s : State) (sb : List Byte) (m : Memory) : Except Fault Memory :=
  let o := bufAt (operandAddr s + 0x94)
  let n := mr0kBlockLen (operandLen s)
  if nBk s.profile ≠ 0 then xorRegion (blockMask s sb) o 0 n m
  else
    match s.params.noBlockKeyMode with
    | .skip => .ok m
    | .seedOnly => xorRegion (fun i => .ok (byteOf sb (i % 8))) o 0 n m

/-- Step 10 (R166) on the memory left by step 8: 3072 bytes from offset 20, cyclically; skipped when the PostKey is
absent. -/
def mr0kPost (s : State) (m : Memory) : Except Fault Memory :=
  if nPk s.profile = 0 then .ok m
  else
    xorRegion (fun i => readByte s.ram (regionBase .postKey + i % nPk s.profile))
      (bufAt (operandAddr s + 20)) 0 3072 m

/-- MR0K_DECRYPT (R152), its checks in the order CONFIG (R153), BOUNDS (R154), LENGTH (R155), LENGTH (R157), then steps
1 to 11. -/
def opMr0kDecrypt (s : State) : Op :=
  let a := operandAddr s
  let len := operandLen s
  if !profileLegal s.profile then .raise .config s
  else if !fitsBuf s.params a len then .raise .bounds s
  else if len < 0x94 then .raise .length s
  else if nPk s.profile ≠ 0 ∧ len < 20 + 3072 then .raise .length s
  else
    .withRead (readBytes s.ram (bufAt (a + 0x04)) 16) fun key1 =>
    .withRead (readBytes s.ram (bufAt (a + 0x74)) 16) fun key2raw =>
    .withRead (readBytes s.ram (bufAt (a + 0x84)) 16) fun key3pre =>
    .withRead (mr0kKey2 s key2raw) fun key2 =>
    .withRead (mr0kSubst s key1) fun key1s =>
    .withRead (mr0kAes s key1s) fun key1a =>
    .withRead (mr0kAes s key3pre) fun key3 =>
    let folded := writeBytes s.ram (bufAt (a + 0x84)) (xorBytes key1a key3)
    let sb := leBytes8 (mr0kSeed s.params.seed2Source key2 key3pre key3 len)
    .withRead (mr0kUnmask s sb folded) fun unmasked =>
    .withRead (mr0kPost s unmasked) fun out =>
    .done { s with
      ram := out
      result0 := s.opAddr + 20#32
      result1 := s.opLen - 20#32 }

/-- The meaning of MR0K_CHECK. -/
def execMr0kCheck (s : State) : Host.Outcome State Fault Refusal := complete (opMr0kCheck s)

/-- The meaning of MR0K_DECRYPT. -/
def execMr0kDecrypt (s : State) : Host.Outcome State Fault Refusal := complete (opMr0kDecrypt s)

end Sys2Proof.Machine
end

