-- ==== Sys2Proof/Machine/Prng.lean ====
section
/-! DEFINITION. The PRNG unit (spec/41_prng.md). -/

namespace Sys2Proof.Machine

/-- `seedState(s)` (R131), every product and sum mod 2^32. -/
def seedState (seed : Word) : Prng :=
  let x := seed
  let y := Config.mul * x + 1#32
  let z := Config.mul * y + 1#32
  let w := Config.mul * z + 1#32
  { x := x, y := y, z := z, w := w }

/-- The output `w'` of one step (R132). -/
def prngOut (p : Prng) : Word :=
  let t := p.x ^^^ (p.x <<< 11)
  p.w ^^^ (p.w >>> 19) ^^^ t ^^^ (t >>> 8)

/-- The state after one step, `(y, z, w, w')` (R132). -/
def prngStep (p : Prng) : Prng := { x := p.y, y := p.z, z := p.w, w := prngOut p }

/-- The NextDecrypt key (R135): `(zext_64(n) * zext_64(seed) - GOLD) mod 2^64`. -/
def nextDecryptKey (n seed : Word) : DWord := n.setWidth 64 * seed.setWidth 64 - Config.gold

/-- The loop of R136: `n` steps, one key byte each, chosen by the low 3 bits of the step's output. -/
def decryptFill (kb : List Byte) (o n : Nat) (p : Prng) (m : Memory) : Prng × Memory :=
  match n with
  | 0 => (p, m)
  | n + 1 => decryptFill kb (o + 1) n (prngStep p) (m.write o (byteOf kb ((prngOut p).toNat % 8)))

/-- PRNG_SEED (R133). -/
def opPrngSeed (s : State) : Op :=
  .done { s with prng := seedState s.opVal, prngSeed := s.opVal, seeded := true }

/-- PRNG_NEXT (R134). -/
def opPrngNext (s : State) : Op :=
  if s.seeded then .done { s with prng := prngStep s.prng, result0 := prngOut s.prng }
  else .raise .unseeded s

/-- PRNG_NEXT_DECRYPT (R136). -/
def opPrngNextDecrypt (s : State) : Op :=
  if !s.seeded then .raise .unseeded s
  else if !fitsBuf s.params (operandAddr s) (operandLen s) then .raise .bounds s
  else
    let key := nextDecryptKey s.opLen s.prngSeed
    let out := decryptFill (leBytes8 key) (bufAt (operandAddr s)) (operandLen s) s.prng s.ram
    .done { s with
      prng := out.1
      ram := out.2
      result0 := key.extractLsb' 0 32
      result1 := key.extractLsb' 32 32 }

/-- The meaning of PRNG_SEED. -/
def execPrngSeed (s : State) : Host.Outcome State Fault Refusal := complete (opPrngSeed s)

/-- The meaning of PRNG_NEXT. -/
def execPrngNext (s : State) : Host.Outcome State Fault Refusal := complete (opPrngNext s)

/-- The meaning of PRNG_NEXT_DECRYPT. -/
def execPrngNextDecrypt (s : State) : Host.Outcome State Fault Refusal := complete (opPrngNextDecrypt s)

end Sys2Proof.Machine
end

