-- ==== Sys2Proof/Machine/Ucn.lean ====
section
/-! DEFINITION. The UnityCN unit (spec/43_unitycn.md): key entry, header parse, per-byte substitution and run-length
walk. -/

namespace Sys2Proof.Machine

/-! ### Key entry -/

/-- `hexval(c)` (R182): '0'..'9', 'A'..'F', 'a'..'f', none for every other byte. -/
def hexVal (c : Byte) : Option (BitVec 4) :=
  let n := c.toNat
  if 0x30 ≤ n ∧ n ≤ 0x39 then some (BitVec.ofNat 4 (n - 0x30))
  else if 0x41 ≤ n ∧ n ≤ 0x46 then some (BitVec.ofNat 4 (n - 0x41 + 10))
  else if 0x61 ≤ n ∧ n ≤ 0x66 then some (BitVec.ofNat 4 (n - 0x61 + 10))
  else none

/-- One byte of two characters, the first the high nibble (R182). -/
def hexPair (hi lo : Byte) : Option Byte :=
  match hexVal hi, hexVal lo with
  | some h, some l => some (h ++ l)
  | _, _ => none

/-- The loop of R181: `n` bytes from the text at window offset `o`, none at the first bad digit. -/
def readHex (m : Memory) (o n : Nat) : Except Fault (Option (List Byte)) :=
  match n with
  | 0 => .ok (some [])
  | n + 1 =>
    match readByte m o with
    | .error f => .error f
    | .ok hi =>
      match readByte m (o + 1) with
      | .error f => .error f
      | .ok lo =>
        match hexPair hi lo with
        | none => .ok none
        | some b =>
          match readHex m (o + 2) n with
          | .error f => .error f
          | .ok none => .ok none
          | .ok (some bs) => .ok (some (b :: bs))

/-- UCN_KEY_HEX (R181). -/
def opUcnKeyHex (s : State) : Op :=
  if !fitsBuf s.params (operandAddr s) (operandLen s) then .raise .bounds s
  else if operandLen s ≠ 32 then .raise .invalidKeyLength s
  else
    .withRead (readHex s.ram (bufAt (operandAddr s)) 16) fun key =>
      match key with
      | none => .raise .invalidKeyLength s
      | some k =>
        .done { s with
          ram := writeBytes s.ram (regionBase .aKey) k
          ctrl := { s.ctrl with akeyEn := true } }

/-! ### Header parse -/

/-- `DecryptKey(k, data)` (R184): a no-op when CTRL.AKEY_EN = 0; UCN_AKEY is read only when it is 1. -/
def decryptKey (s : State) (k data : List Byte) : Except Fault (List Byte) :=
  if s.ctrl.akeyEn then
    match readBytes s.ram (regionBase .aKey) 16 with
    | .error f => .error f
    | .ok akey => .ok (xorBytes data (Config.aesEncEcb (blockOf akey) (blockOf k)).toList)
  else .ok data

/-- `unpack(s)` (R185): high nibble first. -/
def unpack (s : List Byte) : List Byte :=
  match s with
  | [] => []
  | b :: bs => (b >>> 4) :: (b &&& 0x0F#8) :: unpack bs

/-- UCN_INDEX_TBL from the 32 nibbles (R186): `INDEX_TBL[i] <- N[i]`. -/
def indexTable (nibbles : List Byte) : List Byte := (List.range 16).map (fun i => byteOf nibbles i)

/-- UCN_SUB_TBL from the 32 nibbles, "a transpose: `SUB_TBL[r*4 + c] = N[16 + 4c + r]`" (R186); here `j = r*4 + c`. -/
def subTable (nibbles : List Byte) : List Byte :=
  (List.range 16).map (fun j => byteOf nibbles (16 + 4 * (j % 4) + j / 4))

/-- Both tables replaced. -/
def writeTables (m : Memory) (nibbles : List Byte) : Memory :=
  writeBytes (writeBytes m (regionBase .indexTbl) (indexTable nibbles)) (regionBase .subTbl) (subTable nibbles)

/-- UCN_HEADER (R188), in the source's strict order. The four fields of R183 are read as copies first; the skipped
bytes are not read (notes/assumptions/10.md). -/
def opUcnHeader (s : State) : Op :=
  let a := operandAddr s
  if !fitsBuf s.params a 70 then .raise .bounds { s with tablesValid := false }
  else
    .withRead (readBytes s.ram (bufAt (a + 4)) 16) fun infoBytes =>
    .withRead (readBytes s.ram (bufAt (a + 20)) 16) fun infoKey =>
    .withRead (readBytes s.ram (bufAt (a + 37)) 16) fun sigBytes =>
    .withRead (readBytes s.ram (bufAt (a + 53)) 16) fun sigKey =>
    .withRead (decryptKey s sigKey sigBytes) fun sig =>
    if sig ≠ Config.ucnSig then .raise .invalidSignature { s with tablesValid := false }
    else
      .withRead (decryptKey s infoKey infoBytes) fun info =>
        .done { s with
          ram := writeTables s.ram (unpack info)
          tablesValid := true
          result0 := 70#32 }

/-! ### Per-byte transform -/

/-- `SUB_TBL[j]` as a number. -/
def subEntry (m : Memory) (j : Nat) : Except Fault Nat :=
  match readByte m (regionBase .subTbl + j) with
  | .error f => .error f
  | .ok b => .ok b.toNat

/-- `b(i)` (R190), an exact sum. -/
def maskValue (m : Memory) (i : Word) : Except Fault Nat :=
  match subEntry m (4 + ((i >>> 2) &&& 3#32).toNat) with
  | .error f => .error f
  | .ok b1 =>
    match subEntry m (i &&& 3#32).toNat with
    | .error f => .error f
    | .ok b0 =>
      match subEntry m (8 + ((i >>> 4) &&& 3#32).toNat) with
      | .error f => .error f
      | .ok b2 =>
        match subEntry m (12 + i.toNat % 256 / 64) with
        | .error f => .error f
        | .ok b3 => .ok (b1 + b0 + b2 + b3)

/-- `(INDEX_TBL[j] - b) mod 16`, the non-negative remainder (R191). -/
def substNibble (m : Memory) (b j : Nat) : Except Fault (BitVec 4) :=
  match readByte m (regionBase .indexTbl + j) with
  | .error f => .error f
  | .ok e => .ok (BitVec.ofInt 4 ((e.toNat : Int) - (b : Int)))

/-- `sub(v, i)` (R191): low nibble from the low nibble of `v`, high from the high. -/
def subst (m : Memory) (v : Byte) (i : Word) : Except Fault Byte :=
  match maskValue m i with
  | .error f => .error f
  | .ok b =>
    match substNibble m b (v &&& 0x0F#8).toNat with
    | .error f => .error f
    | .ok lo =>
      match substNibble m b (v >>> 4).toNat with
      | .error f => .error f
      | .ok hi => .ok (hi ++ lo)

/-! ### Run-length walk -/

/-- What the walk carries: the memory, the running index, the relative offset, the tokens completed (R204). -/
structure Walk where
  ram    : Memory
  idx    : Word
  off    : Nat
  tokens : Nat
deriving DecidableEq, Repr

/-- How a part of the walk ends. -/
inductive WalkEnd (α : Type) where
  | ok (v : α) (w : Walk)
  /-- X was asked for a byte at or past BUF's end (R205) -/
  | bounds (w : Walk)
  | fault (f : Fault)
deriving DecidableEq, Repr

/-- Go on with the next part of the walk. -/
def WalkEnd.andThen {α β : Type} (r : WalkEnd α) (k : α → Walk → WalkEnd β) : WalkEnd β :=
  match r with
  | .ok v w => k v w
  | .bounds w => .bounds w
  | .fault f => .fault f

/-- `X(off); off <- off + 1` (R194) in a block that starts at BUF offset `a`. -/
def walkX (size a : Nat) (w : Walk) : WalkEnd Byte :=
  if size ≤ a + w.off then .bounds w
  else
    match readByte w.ram (bufAt (a + w.off)) with
    | .error f => .fault f
    | .ok v =>
      match subst w.ram v w.idx with
      | .error f => .fault f
      | .ok p =>
        .ok p { w with ram := w.ram.write (bufAt (a + w.off)) p, idx := w.idx + 1#32, off := w.off + 1 }

/-- A run of continuation bytes, up to and including the first that is not 0xFF, added to `lit` (R201, R202). `room` is
the number of BUF bytes from the current offset on: with none left X raises BOUNDS (R205, R207). -/
def walkRun (size a room lit : Nat) (w : Walk) : WalkEnd Nat :=
  match room with
  | 0 => .bounds w
  | room + 1 =>
    (walkX size a w).andThen fun c w =>
      if c = 0xFF#8 then walkRun size a room (lit + c.toNat) w else .ok (lit + c.toNat) w

/-- A run from where the walk stands, with all the room that is left in BUF. -/
def walkRunHere (size a lit : Nat) (w : Walk) : WalkEnd Nat := walkRun size a (size - (a + w.off)) lit w

/-- The literal length of a token and the skip (R201): `off <- off + lit`. -/
def walkLiterals (size a : Nat) (t : Byte) (w : Walk) : WalkEnd Unit :=
  (if (t >>> 4) = 15#8 then walkRunHere size a 15 w else .ok (t >>> 4).toNat w).andThen fun lit w =>
    .ok () { w with off := w.off + lit }

/-- The second part of a token (R202), only where bytes remain below `len`. -/
def walkSecond (size a len : Nat) (t : Byte) (w : Walk) : WalkEnd Unit :=
  if w.off < len then
    (walkX size a w).andThen fun _ w =>
    (walkX size a w).andThen fun _ w =>
      if (t &&& 0x0F#8) = 15#8 then (walkRunHere size a 0 w).andThen fun _ w => .ok () w
      else .ok () w
  else .ok () w

/-- One token (R200), counted when it is complete. -/
def walkToken (size a len : Nat) (w : Walk) : WalkEnd Unit :=
  (walkX size a w).andThen fun t w =>
  (walkLiterals size a t w).andThen fun _ w =>
  (walkSecond size a len t w).andThen fun _ w =>
    .ok () { w with tokens := w.tokens + 1 }

/-- `while off < size` (R204). `fuel` bounds the tokens still to come: every token advances `off` (R207), so `len` is
always enough. -/
def walkTokens (size a len fuel : Nat) (w : Walk) : WalkEnd Unit :=
  match fuel with
  | 0 => .ok () w
  | fuel + 1 =>
    if w.off < len then (walkToken size a len w).andThen fun _ w => walkTokens size a len fuel w
    else .ok () w

/-- Where the walk of UCN_BLOCK begins: `idx = R[UCN_INDEX]; off = 0; tokens = 0` (R204). -/
def walkStart (s : State) : Walk where
  ram := s.ram
  idx := s.ucnIndex
  off := 0
  tokens := 0

/-- The walk of UCN_BLOCK in a state. -/
def blockWalk (s : State) : WalkEnd Unit :=
  walkTokens s.params.bufSize (operandAddr s) (operandLen s) (operandLen s) (walkStart s)

/-- What a walk leaves: `UCN_INDEX <- idx; RESULT0 <- off; RESULT1 <- tokens` (R204, and R194 before the raise). -/
def storeWalk (s : State) (w : Walk) : State :=
  { s with
    ram := w.ram
    ucnIndex := w.idx
    result0 := BitVec.ofNat 32 w.off
    result1 := BitVec.ofNat 32 w.tokens }

/-- UCN_BLOCK (R204). -/
def opUcnBlock (s : State) : Op :=
  if !s.tablesValid then .raise .noTables s
  else if !fitsBuf s.params (operandAddr s) (operandLen s) then .raise .bounds s
  else
    match blockWalk s with
    | .ok _ w => .done (storeWalk s w)
    | .bounds w => .raise .bounds (storeWalk s w)
    | .fault f => .fault f

/-- The meaning of UCN_KEY_HEX. -/
def execUcnKeyHex (s : State) : Host.Outcome State Fault Refusal := complete (opUcnKeyHex s)

/-- The meaning of UCN_HEADER. -/
def execUcnHeader (s : State) : Host.Outcome State Fault Refusal := complete (opUcnHeader s)

/-- The meaning of UCN_BLOCK. -/
def execUcnBlock (s : State) : Host.Outcome State Fault Refusal := complete (opUcnBlock s)

end Sys2Proof.Machine
end

