-- ==== Sys2Proof/Machine/Dispatch.lean ====
section
/-! DEFINITION. One arm per command (spec/30_encoding.md R93): the whole engine step of that command, completion
included (spec/40_command_engine.md R112, R113). -/

namespace Sys2Proof.Machine

def exec (i : Instr) (s : State) : Host.Outcome State Fault Refusal :=
  match i with
  | .prngSeed => Sys2Proof.Machine.execPrngSeed s
  | .prngNext => Sys2Proof.Machine.execPrngNext s
  | .prngNextDecrypt => Sys2Proof.Machine.execPrngNextDecrypt s
  | .mr0kCheck => Sys2Proof.Machine.execMr0kCheck s
  | .mr0kDecrypt => Sys2Proof.Machine.execMr0kDecrypt s
  | .ucnKeyHex => Sys2Proof.Machine.execUcnKeyHex s
  | .ucnHeader => Sys2Proof.Machine.execUcnHeader s
  | .ucnBlock => Sys2Proof.Machine.execUcnBlock s

end Sys2Proof.Machine
end

