-- ==== Sys2Proof/Machine/Port.lean ====
section
/-! DEFINITION. The host port (spec/20_memory.md): window, register map (spec/10_state.md R20), access rules, little
-endian lanes, the issue of a command (spec/40_command_engine.md R111) and the refusal while busy (R115). -/

namespace Sys2Proof.Machine

/-! ### The register map -/

/-- Size of the window in bytes: `0x10000 + 2^23` (20_memory.md R70). -/
def windowSize : Nat := 0x10000 + 2 ^ 23

/-- Offset of a bus address in the window; none outside it (00_scope.md R6, 20_memory.md R70). -/
def offsetOf (p : Params) (addr : Nat) : Option Nat :=
  if p.base ≤ addr ∧ addr < p.base + windowSize then some (addr - p.base) else none

/-- Offset of a word register (10_state.md R20). -/
def regOffset (r : WordReg) : Nat :=
  match r with
  | .id => 0x000
  | .ctrl => 0x004
  | .status => 0x008
  | .err => 0x00C
  | .command => 0x010
  | .opAddr => 0x014
  | .opLen => 0x018
  | .opVal => 0x01C
  | .result0 => 0x020
  | .result1 => 0x024
  | .prngX => 0x040
  | .prngY => 0x044
  | .prngZ => 0x048
  | .prngW => 0x04C
  | .prngSeed => 0x050
  | .ivLen => 0x060
  | .sboxEn => 0x064
  | .ekLen => 0x068
  | .pkLen => 0x06C
  | .bkLen => 0x070
  | .ucnIndex => 0x0D0

/-- Every word register. -/
def wordRegs : List WordReg :=
  [.id, .ctrl, .status, .err, .command, .opAddr, .opLen, .opVal, .result0, .result1,
   .prngX, .prngY, .prngZ, .prngW, .prngSeed, .ivLen, .sboxEn, .ekLen, .pkLen, .bkLen, .ucnIndex]

/-- Every byte region. -/
def byteRegions : List ByteRegion := [.iv, .postKey, .blockKey, .aKey, .indexTbl, .subTbl, .sbox, .expKey, .buf]

/-- Bytes an access of a width moves (20_memory.md R73). -/
def widthBytes (w : Width) : Nat :=
  match w with
  | .w8 => 1
  | .w16 => 2
  | .w32 => 4

/-- The byte region that holds all of `[o, o+n)`, if there is one. -/
def regionAt (p : Params) (o n : Nat) : Option ByteRegion :=
  byteRegions.find? fun r => decide (regionBase r ≤ o) && decide (o + n ≤ regionBase r + regionSize p r)

/-- What an access of a width at an offset reaches. -/
inductive Target where
  | reg (r : WordReg)
  | bytes (r : ByteRegion)
  /-- reserved, misaligned, wrongly sized or crossing: SLVERR (20_memory.md R73, R75) -/
  | none
deriving DecidableEq, Repr

/-- 20_memory.md R73: word registers take 32-bit accesses at their own offset; byte regions take naturally aligned
accesses that lie inside one region; "any other access" reaches nothing. -/
def targetOf (p : Params) (w : Width) (o : Nat) : Target :=
  match wordRegs.find? (fun r => regOffset r == o), w with
  | some r, .w32 => .reg r
  | some _, _ => .none
  | Option.none, _ =>
    if o % widthBytes w = 0 then
      match regionAt p o (widthBytes w) with
      | some r => .bytes r
      | Option.none => .none
    else .none

/-! ### Reading -/

/-- A word register as the host reads it (10_state.md R21 to R39, R47). -/
def regRead (s : State) (r : WordReg) : Word :=
  match r with
  | .id => 0x58530100#32
  | .ctrl => ctrlWord s.ctrl
  | .status => statusWord s
  | .err => errWord s
  | .command => s.lastCmd
  | .opAddr => s.opAddr
  | .opLen => s.opLen
  | .opVal => s.opVal
  | .result0 => s.result0
  | .result1 => s.result1
  | .prngX => s.prng.x
  | .prngY => s.prng.y
  | .prngZ => s.prng.z
  | .prngW => s.prng.w
  | .prngSeed => s.prngSeed
  | .ivLen => s.profile.ivLen.setWidth 32
  | .sboxEn => bitAt s.profile.sboxEn 0
  | .ekLen => s.profile.ekLen.setWidth 32
  | .pkLen => s.profile.pkLen.setWidth 32
  | .bkLen => s.profile.bkLen.setWidth 32
  | .ucnIndex => s.ucnIndex

/-- One RAM byte as the host reads it: a byte not written since reset reads as any value, a free value
(93_implementation_defined.md, "RAM after reset"). -/
def hostByte (s : State) (o : Nat) : Byte :=
  match s.ram.read o with
  | some b => b
  | none => Config.ramAfterReset s.resets o

/-- The lanes of a read (20_memory.md R72): byte `o` in bits 7:0, and so on, zero above the width. -/
def lanesRead (s : State) (w : Width) (o : Nat) : Word :=
  match w with
  | .w8 => (hostByte s o).setWidth 32
  | .w16 => (hostByte s (o + 1) ++ hostByte s o).setWidth 32
  | .w32 => hostByte s (o + 3) ++ hostByte s (o + 2) ++ hostByte s (o + 1) ++ hostByte s o

/-! ### Writing -/

/-- The bytes a write moves, lowest offset first (20_memory.md R72). -/
def lanesOf (w : Width) (v : Word) : List Byte :=
  match w with
  | .w8 => [v.extractLsb' 0 8]
  | .w16 => [v.extractLsb' 0 8, v.extractLsb' 8 8]
  | .w32 => [v.extractLsb' 0 8, v.extractLsb' 8 8, v.extractLsb' 16 8, v.extractLsb' 24 8]

/-- Host-writable byte regions; the two UnityCN tables are RO (10_state.md R20, R48, R49). -/
def regionWritable (r : ByteRegion) : Bool :=
  match r with
  | .iv => true
  | .postKey => true
  | .blockKey => true
  | .aKey => true
  | .indexTbl => false
  | .subTbl => false
  | .sbox => true
  | .expKey => true
  | .buf => true

/-- A write of `v` to COMMAND while idle: "`LAST_CMD <- v; STATUS.BUSY <- 1; STATUS.DONE <- 0`"
(40_command_engine.md R111). -/
def issue (v : Word) (s : State) : State := { s with lastCmd := v, busy := true, done := false }

/-- A host write of `v` to a word register while idle (10_state.md R21 to R39, R47; RO targets: 20_memory.md R76). -/
def regWrite (s : State) (r : WordReg) (v : Word) : State :=
  match r with
  | .id => s
  | .ctrl => { s with ctrl := ctrlOf v }
  | .status => { s with done := doneAfterWrite s.done v }
  | .err => { s with err := errAfterWrite s.err v }
  | .command => issue v s
  | .opAddr => { s with opAddr := v }
  | .opLen => { s with opLen := v }
  | .opVal => { s with opVal := v }
  | .result0 => s
  | .result1 => s
  | .prngX => s
  | .prngY => s
  | .prngZ => s
  | .prngW => s
  | .prngSeed => s
  | .ivLen => { s with profile := { s.profile with ivLen := v.setWidth 5 } }
  | .sboxEn => { s with profile := { s.profile with sboxEn := v.getLsbD 0 } }
  | .ekLen => { s with profile := { s.profile with ekLen := v.setWidth 8 } }
  | .pkLen => { s with profile := { s.profile with pkLen := v.setWidth 5 } }
  | .bkLen => { s with profile := { s.profile with bkLen := v.setWidth 5 } }
  | .ucnIndex => { s with ucnIndex := v }

/-- A host write to a byte region while idle; ignored where the region is RO (20_memory.md R76). -/
def regionWrite (s : State) (r : ByteRegion) (w : Width) (o : Nat) (v : Word) : State :=
  if regionWritable r then { s with ram := writeBytes s.ram o (lanesOf w v) } else s

/-! ### One access -/

/-- The port's answer is given to the host. -/
def reply (r : Reply) (s : State) : State := { s with replies := r :: s.replies }

/-- SLVERR for this access: "a read that gets SLVERR returns data 0" (20_memory.md R74). -/
def slverrFor (a : Access) : Reply :=
  match a with
  | .read _ _ => .readSlverr 0#32
  | .write _ _ _ => .writeSlverr

/-- The bus address of an access. -/
def accessAddr (a : Access) : Nat :=
  match a with
  | .read _ addr => addr
  | .write _ addr _ => addr

/-- An access to window offset `o` while STATUS.BUSY = 0. -/
def idleAccess (s : State) (o : Nat) (a : Access) : State :=
  match a with
  | .read w _ =>
    match targetOf s.params w o with
    | .reg r => reply (.readOk (regRead s r)) s
    | .bytes _ => reply (.readOk (lanesRead s w o)) s
    | .none => reply (slverrFor a) s
  | .write w _ v =>
    match targetOf s.params w o with
    | .reg r => reply .writeOk (regWrite s r v)
    | .bytes r => reply .writeOk (regionWrite s r w o v)
    | .none => reply (slverrFor a) s

/-- The register a busy block still answers for: "only 32-bit reads of ID, STATUS and ERR" (40_command_engine.md
R115). -/
def busyReadable (o : Nat) (a : Access) : Option WordReg :=
  match a with
  | .read .w32 _ =>
    if o = regOffset .id then some .id
    else if o = regOffset .status then some .status
    else if o = regOffset .err then some .err
    else none
  | .read .w8 _ => none
  | .read .w16 _ => none
  | .write _ _ _ => none

/-- An access to window offset `o` while STATUS.BUSY = 1 (40_command_engine.md R115): every other access "gets SLVERR,
changes nothing else and sets `ERR.BUSY_ACCESS <- 1`". -/
def busyAccess (s : State) (o : Nat) (a : Access) : State :=
  match busyReadable o a with
  | some r => reply (.readOk (regRead s r)) s
  | none => reply (slverrFor a) (raiseErr .busyAccess s)

/-- The port performs one host access. While reset is asserted no access is answered (70_reset_and_hazards.md R260);
an address outside the window is not the block's (20_memory.md R70). -/
def portAccess (s : State) (a : Access) : State :=
  if s.inReset then reply .noAnswer s
  else
    match offsetOf s.params (accessAddr a) with
    | none => reply .noAnswer s
    | some o => if s.busy then busyAccess s o a else idleAccess s o a

end Sys2Proof.Machine
end

