-- ==== Sys2Proof/Machine/Engine.lean ====
section
/-! DEFINITION. The engine step (spec/40_command_engine.md R112, R117), the reset input
(spec/70_reset_and_hazards.md R260 to R263), and one turn of the machine. -/

namespace Sys2Proof.Machine

/-- An illegal command: `raise ILLEGAL_CMD` (40_command_engine.md R117). -/
def execIllegal (s : State) : Host.Outcome State Fault Refusal := complete (.raise .illegalCmd s)

/-- The engine step: decode LAST_CMD and perform its whole operation (40_command_engine.md R112). -/
def runCommand (s : State) : Host.Outcome State Fault Refusal :=
  match decodeWord s.lastCmd with
  | .command i => exec i s
  | .illegal _ => execIllegal s

/-- Every stored register at its reset value, RAM without values (70_reset_and_hazards.md R261, 10_state.md R61); the
parameters and the turns still to come stay. -/
def resetRegisters (s : State) : State :=
  { State.reset with
    params := s.params
    inReset := true
    resets := s.resets + 1
    agenda := s.agenda
    replies := s.replies }

/-- The free value of the register at an offset after an abandoned command. -/
def abandoned (s : State) (r : WordReg) : Word := Config.abandonedWord s.resets (regOffset r)

/-- The four PRNG words, free. -/
def abandonedPrng (s : State) : Prng where
  x := abandoned s .prngX
  y := abandoned s .prngY
  z := abandoned s .prngZ
  w := abandoned s .prngW

/-- "any value for every BUF byte and register the running command may write" (93_implementation_defined.md, "Reset
during a command"): the `writes` column of 30_encoding.md R93, free. BUF and the byte arrays hold no value after a
reset anyway. -/
def abandonCommand (i : Instr) (s : State) : State :=
  match i with
  | .prngSeed =>
    { s with
      prng := abandonedPrng s
      prngSeed := abandoned s .prngSeed
      seeded := (abandoned s .status).getLsbD 2 }
  | .prngNext => { s with prng := abandonedPrng s, result0 := abandoned s .result0 }
  | .prngNextDecrypt =>
    { s with
      prng := abandonedPrng s
      result0 := abandoned s .result0
      result1 := abandoned s .result1 }
  | .mr0kCheck => { s with result0 := abandoned s .result0 }
  | .mr0kDecrypt => { s with result0 := abandoned s .result0, result1 := abandoned s .result1 }
  | .ucnKeyHex => { s with ctrl := { s.ctrl with akeyEn := (abandoned s .ctrl).getLsbD 0 } }
  | .ucnHeader =>
    { s with
      tablesValid := (abandoned s .status).getLsbD 3
      result0 := abandoned s .result0 }
  | .ucnBlock =>
    { s with
      ucnIndex := abandoned s .ucnIndex
      result0 := abandoned s .result0
      result1 := abandoned s .result1 }

/-- The reset input is asserted (R260): the state of R261, a busy command abandoned. Already asserted, nothing
changes. -/
def assertReset (s : State) : State :=
  if s.inReset then s
  else if s.busy then
    match decodeWord s.lastCmd with
    | .command i => abandonCommand i (resetRegisters s)
    | .illegal _ => resetRegisters s
  else resetRegisters s

/-- The reset input is released (R260). -/
def releaseReset (s : State) : State := { s with inReset := false }

/-- The engine may move when a command is running and reset is not asserted (R112, R260). -/
def engineEnabled (s : State) : Bool := s.busy && !s.inReset

/-- The engine's turn: its step where it is enabled, nothing otherwise. -/
def engineTurn (s : State) : Host.Outcome State Fault Refusal :=
  if engineEnabled s then runCommand s else .next s

/-- One turn. -/
def takeTurn (t : Turn) (s : State) : Host.Outcome State Fault Refusal :=
  match t with
  | .host a => .next (portAccess s a)
  | .engine => engineTurn s
  | .assertReset => .next (assertReset s)
  | .releaseReset => .next (releaseReset s)

/-- The command word becomes the running command, as its issue would leave it (40_command_engine.md R111), and the
next turn is the engine's. -/
def placeCommand (v : Word) (s : State) : State :=
  { issue v s with inReset := false, agenda := .engine :: s.agenda }

end Sys2Proof.Machine
end

