-- ==== Sys2Proof/Machine/Step.lean ====
section
/-! DEFINITION. One step of the machine: the agenda says which agent moves next (notes/assumptions/6.md). With no turn
listed the engine still completes a running command (spec/40_command_engine.md R119, weak fairness), and an idle block
waits (spec/70_reset_and_hazards.md R263). -/

namespace Sys2Proof.Machine

def step (s : State) : Host.Outcome State Fault Refusal :=
  match s.agenda with
  | [] => engineTurn s
  | t :: rest => takeTurn t { s with agenda := rest }

/-- `s` with a command word placed where the very next step runs it (notes/assumptions/7.md). The block fetches
nothing (10_state.md R55): the word is placed as an accepted COMMAND write leaves it. -/
def State.withFetchWord (s : State) (nbits w : Nat) : State :=
  placeCommand (BitVec.ofNat 32 (w % 2 ^ nbits)) s

end Sys2Proof.Machine
end

