-- ==== Sys2Proof/Safety.lean ====
section
/-! DEFINITION. What counts as a sound state and a safe run, in the terms the claims use. -/

namespace Sys2Proof.Machine

/-- The offset column of the byte rows of the register map, as numbers (spec/10_state.md R20). -/
def rowBase (r : ByteRegion) : Nat :=
  match r with
  | .iv => 0x080 | .postKey => 0x090 | .blockKey => 0x0A0 | .aKey => 0x0C0
  | .indexTbl => 0x0E0 | .subTbl => 0x0F0 | .sbox => 0x400 | .expKey => 0x800 | .buf => 0x10000

/-- The bytes of the byte rows (spec/10_state.md R20, spec/00_scope.md R7, R12). -/
def rowSize (p : Params) (r : ByteRegion) : Nat :=
  match r with
  | .iv => 16 | .postKey => 16 | .blockKey => 16 | .aKey => 16
  | .indexTbl => 16 | .subTbl => 16 | .sbox => 1024 | .expKey => 240 | .buf => p.bufSize

/-- Window offset of `BUF[a]`, as a number (spec/10_state.md R60). -/
def bufCell (a : Nat) : Nat := 0x10000 + a

/-- A window offset that belongs to a byte row of the register map (spec/10_state.md R20). -/
def inRegions (p : Params) (o : Nat) : Prop :=
  ∃ r : ByteRegion, rowBase r ≤ o ∧ o < rowBase r + rowSize p r

/-- The offsets of UCN_INDEX_TBL and UCN_SUB_TBL (spec/10_state.md R48, R49). -/
def isTableOffset (o : Nat) : Prop := 0x0E0 ≤ o ∧ o < 0x100

/-- Both UnityCN tables hold values. -/
def tablesWritten (m : Memory) : Prop := ∀ o, isTableOffset o → (m.read o).isSome

/-- The BUF bytes `[a, a+n)` hold values. -/
def bufWritten (m : Memory) (a n : Nat) : Prop := ∀ i < n, (m.read (bufCell (a + i))).isSome

/-- The first `n` bytes of a byte region hold values. -/
def regionWritten (m : Memory) (r : ByteRegion) (n : Nat) : Prop := ∀ i < n, (m.read (rowBase r + i)).isSome

/-- The generator is not at the all-zero state (spec/41_prng.md R137). -/
def prngNonzero (p : Prng) : Prop := ¬ (p.x = 0#32 ∧ p.y = 0#32 ∧ p.z = 0#32 ∧ p.w = 0#32)

/-- What every step keeps, whatever the agents do. -/
structure StateInv (s : State) : Prop where
  /-- the memory is in its canonical form -/
  ram_wf : s.ram.wf
  /-- every byte lies in a byte region of the register map (R20, R75) -/
  ram_in_regions : ∀ c ∈ s.ram, inRegions s.params c.1
  /-- every table entry is 0 to 15 (R48, R49) -/
  table_nibbles : ∀ o b, isTableOffset o → s.ram.read o = some b → b.toNat < 16
  /-- DONE is 0 while a command runs (spec/40_command_engine.md R111, R113, R115) -/
  busy_not_done : s.busy = true → s.done = false
  /-- no command runs while reset is asserted (spec/70_reset_and_hazards.md R260) -/
  reset_not_busy : s.inReset = true → s.busy = false

/-- What every step keeps but one that asserts reset over a running command, after which SEEDED and TABLES_VALID may be
free values (notes/assumptions/9.md). -/
structure UnitInv (s : State) : Prop where
  /-- a seeded generator is never all-zero (spec/41_prng.md R137) -/
  seeded_nonzero : s.seeded = true → prngNonzero s.prng
  /-- valid tables hold values (spec/10_state.md R50) -/
  valid_tables : s.tablesValid = true → tablesWritten s.ram

/-- A run of `n` steps is safe when no step faults or refuses. -/
def runsSafely (n : Nat) (s : State) : Prop := ∃ t, Host.Core.run Sys2Proof.core n s = .next t

end Sys2Proof.Machine
end

