-- ==== Sys2Proof/Certificates/Slice0/Obligations.lean ====
section
/-! DEFINITION. The statements for the provers. `Sys2Proof.Spec` holds what they are stated with: the rules' own
formulas, written on numbers and without the model's meanings; `Obligations` holds the statements. -/

namespace Sys2Proof.Spec
open Sys2Proof.Machine

/-- The OPCODE column of 30_encoding.md R93. -/
def opcode (i : Instr) : Nat :=
  match i with
  | .prngSeed => 0x01 | .prngNext => 0x02 | .prngNextDecrypt => 0x03
  | .mr0kCheck => 0x10 | .mr0kDecrypt => 0x11
  | .ucnKeyHex => 0x20 | .ucnHeader => 0x21 | .ucnBlock => 0x22

/-! ### Completion (40_command_engine.md R113, 00_scope.md R17) -/

/-- `STATUS.BUSY <- 0; STATUS.DONE <- 1`. -/
def completed (s : State) : State := { s with busy := false, done := true }

/-- `ERR[bit] <- 1`, then completion. -/
def failed (bit : Nat) (s : State) : State := { s with err := s.err ||| 1#9 <<< bit, busy := false, done := true }

/-! ### The register map (10_state.md R20) -/

/-- The offset column of the word registers. -/
def regRow (r : WordReg) : Nat :=
  match r with
  | .id => 0x000 | .ctrl => 0x004 | .status => 0x008 | .err => 0x00C | .command => 0x010
  | .opAddr => 0x014 | .opLen => 0x018 | .opVal => 0x01C | .result0 => 0x020 | .result1 => 0x024
  | .prngX => 0x040 | .prngY => 0x044 | .prngZ => 0x048 | .prngW => 0x04C | .prngSeed => 0x050
  | .ivLen => 0x060 | .sboxEn => 0x064 | .ekLen => 0x068 | .pkLen => 0x06C | .bkLen => 0x070
  | .ucnIndex => 0x0D0

/-- What the host reads of each word register, by the field that holds it (10_state.md R21 to R39, R47); the bits the
register does not have are 0 (R52). -/
def regValue (s : State) (r : WordReg) : Word :=
  match r with
  | .id => 0x58530100#32
  | .ctrl => BitVec.ofNat 32 (s.ctrl.akeyEn.toNat + 2 * s.ctrl.doneIe.toNat + 4 * s.ctrl.errIe.toNat)
  | .status =>
    BitVec.ofNat 32 (s.busy.toNat + 2 * s.done.toNat + 4 * s.seeded.toNat + 8 * s.tablesValid.toNat +
      16 * (s.err != 0#9).toNat)
  | .err => BitVec.ofNat 32 s.err.toNat
  | .command => s.lastCmd
  | .opAddr => s.opAddr
  | .opLen => s.opLen
  | .opVal => s.opVal
  | .result0 => s.result0
  | .result1 => s.result1
  | .prngX => s.prng.x
  | .prngY => s.prng.y
  | .prngZ => s.prng.z
  | .prngW => s.prng.w
  | .prngSeed => s.prngSeed
  | .ivLen => BitVec.ofNat 32 s.profile.ivLen.toNat
  | .sboxEn => BitVec.ofNat 32 s.profile.sboxEn.toNat
  | .ekLen => BitVec.ofNat 32 s.profile.ekLen.toNat
  | .pkLen => BitVec.ofNat 32 s.profile.pkLen.toNat
  | .bkLen => BitVec.ofNat 32 s.profile.bkLen.toNat
  | .ucnIndex => s.ucnIndex

/-- The stored bits of the word registers with access RW. -/
def rwMask (r : WordReg) : Option Word :=
  match r with
  | .ctrl => some 0x7#32
  | .opAddr => some 0xFFFFFFFF#32
  | .opLen => some 0xFFFFFFFF#32
  | .opVal => some 0xFFFFFFFF#32
  | .ivLen => some 0x1F#32
  | .sboxEn => some 0x1#32
  | .ekLen => some 0xFF#32
  | .pkLen => some 0x1F#32
  | .bkLen => some 0x1F#32
  | .ucnIndex => some 0xFFFFFFFF#32
  | _ => none

/-- The word registers with access RO. -/
def roRegs : List WordReg :=
  [.id, .result0, .result1, .prngX, .prngY, .prngZ, .prngW, .prngSeed]

/-- The number of bytes of an access (20_memory.md R73). -/
def bytesOf (w : Width) : Nat :=
  match w with
  | .w8 => 1
  | .w16 => 2
  | .w32 => 4

/-- The legal accesses of 20_memory.md R73 at a window offset: a word register's own offset, or a place inside one byte
row of R20. -/
def legalAt (p : Params) (w : Width) (o : Nat) : Prop :=
  (w = .w32 ∧ ∃ r, o = regRow r) ∨
  (o % bytesOf w = 0 ∧ ∃ r, rowBase r ≤ o ∧ o + bytesOf w ≤ rowBase r + rowSize p r)

/-- The SLVERR answer to an access (20_memory.md R74). -/
def slverr (a : Access) : Reply :=
  match a with
  | .read _ _ => .readSlverr 0#32
  | .write _ _ _ => .writeSlverr

/-- The block is idle, not in reset, and the next turn is the access `a`. -/
def idleWith (s : State) (a : Access) (rest : List Turn) : Prop :=
  s.inReset = false ∧ s.busy = false ∧ s.agenda = .host a :: rest

/-! ### PRNG (41_prng.md R131, R132, R135) -/

/-- One seeding step, `(0x6C078965 * v + 1) mod 2^32`. -/
def seedMul (v : Nat) : Nat := (0x6C078965 * v + 1) % 2 ^ 32

/-- `w'` of R132. -/
def nextOut (p : Prng) : Nat :=
  let t := (p.x.toNat ^^^ p.x.toNat <<< 11) % 2 ^ 32
  p.w.toNat ^^^ p.w.toNat >>> 19 ^^^ t ^^^ t >>> 8

/-- The new state of R132. -/
def next (p : Prng) : Prng := { x := p.y, y := p.z, z := p.w, w := BitVec.ofNat 32 (nextOut p) }

/-- The key of R135, reduced mod 2^64. -/
def decryptKeyNat (n seed : Nat) : Nat := (n * seed + 2 ^ 64 - 0x61C8864E7A143579) % 2 ^ 64

/-- Byte `j` of a little-endian number (00_scope.md R15). -/
def leByte (v j : Nat) : Byte := BitVec.ofNat 8 (v / 2 ^ (8 * j))

/-- RESULT0 of `n` PRNG_NEXT commands in a row, up to the first that gives no next state. -/
def outputs (n : Nat) (s : State) : List Word :=
  match n with
  | 0 => []
  | n + 1 =>
    match exec .prngNext s with
    | .next t => t.result0 :: outputs n t
    | .fault _ => []
    | .refused _ => []

/-! ### Mr0k (42_mr0k.md R152, R156, R158 to R166), byte by byte -/

/-- `blockLen` of R156. -/
def blockLen (len : Nat) : Nat := min (16 * ((len - 0x94) / 128)) 1024

/-- What MR0K_DECRYPT reads: buffer bytes, InitVector, SBox, PostKey, BlockKey, ExpansionKey. -/
structure Mr0kIn where
  c  : Nat → Byte
  iv : Nat → Byte
  sb : Nat → Byte
  pk : Nat → Byte
  bk : Nat → Byte
  ek : List Byte

/-- AESDEC_EXP on a 16-byte key given as a function; the identity when the ExpansionKey is absent (R161). -/
def aesKey (pr : Profile) (inp : Mr0kIn) (f : Nat → Byte) (i : Nat) : Byte :=
  if pr.ekLen.toNat = 0 then f i
  else (Config.aesDecExp inp.ek (Vector.ofFn fun j : Fin 16 => f j.val)).toList.getD i 0#8

/-- key1 after step 4 (R158, R160). -/
def key1 (pr : Profile) (inp : Mr0kIn) (i : Nat) : Byte :=
  if pr.sboxEn then inp.sb (i % 4 * 256 + (inp.c (0x04 + i)).toNat) else inp.c (0x04 + i)

/-- key2 after step 3 (R158, R159). -/
def key2 (pr : Profile) (inp : Mr0kIn) (i : Nat) : Byte :=
  if i < pr.ivLen.toNat then inp.c (0x74 + i) ^^^ inp.iv i else inp.c (0x74 + i)

/-- key3 as extracted (R158). -/
def key3 (inp : Mr0kIn) (i : Nat) : Byte := inp.c (0x84 + i)

/-- `le64` of the first 8 bytes (00_scope.md R15). -/
def le64Nat (f : Nat → Byte) : Nat := ((List.range 8).map fun i => (f i).toNat * 2 ^ (8 * i)).sum

/-- The seed of R163. -/
def seed (p : Params) (pr : Profile) (inp : Mr0kIn) (len : Nat) : Nat :=
  let seed1 := le64Nat (key2 pr inp)
  let seed2 := le64Nat (match p.seed2Source with | .preAes => key3 inp | .postAes => aesKey pr inp (key3 inp))
  seed2 ^^^ seed1 ^^^ (seed1 + (len - 20) % 2 ^ 32) % 2 ^ 64

/-- The mask of step 8 at block byte `i` (R164): 0 where the stage is skipped. -/
def mask8 (p : Params) (pr : Profile) (inp : Mr0kIn) (len i : Nat) : Byte :=
  if pr.bkLen.toNat ≠ 0 then leByte (seed p pr inp len) (i % 8) ^^^ inp.bk (i % pr.bkLen.toNat)
  else
    match p.noBlockKeyMode with
    | .skip => 0#8
    | .seedOnly => leByte (seed p pr inp len) (i % 8)

/-- Buffer byte `q` after steps 6 and 8 (R162, R164). -/
def afterStep8 (p : Params) (pr : Profile) (inp : Mr0kIn) (len q : Nat) : Byte :=
  if 0x84 ≤ q ∧ q < 0x94 then
    aesKey pr inp (key1 pr inp) (q - 0x84) ^^^ aesKey pr inp (key3 inp) (q - 0x84)
  else if 0x94 ≤ q ∧ q < 0x94 + blockLen len then inp.c q ^^^ mask8 p pr inp len (q - 0x94)
  else inp.c q

/-- Buffer byte `q` at the end (R166). -/
def decryptedByte (p : Params) (pr : Profile) (inp : Mr0kIn) (len q : Nat) : Byte :=
  if pr.pkLen.toNat ≠ 0 ∧ 20 ≤ q ∧ q < 20 + 3072 then
    afterStep8 p pr inp len q ^^^ inp.pk ((q - 20) % pr.pkLen.toNat)
  else afterStep8 p pr inp len q

/-- No profile length exceeds its store (R153). -/
def legalProfile (pr : Profile) : Prop :=
  pr.ivLen.toNat ≤ 16 ∧ pr.ekLen.toNat ≤ 240 ∧ pr.pkLen.toNat ≤ 16 ∧ pr.bkLen.toNat ≤ 16

/-- The state holds the bytes of `inp` where MR0K_DECRYPT looks for them. -/
structure HoldsMr0k (s : State) (inp : Mr0kIn) : Prop where
  buf : ∀ i < s.opLen.toNat, s.ram.read (bufCell (s.opAddr.toNat + i)) = some (inp.c i)
  iv : ∀ i < s.profile.ivLen.toNat, s.ram.read (0x080 + i) = some (inp.iv i)
  sbox : s.profile.sboxEn = true → ∀ j < 1024, s.ram.read (0x400 + j) = some (inp.sb j)
  ek_length : inp.ek.length = s.profile.ekLen.toNat
  ek : ∀ i < s.profile.ekLen.toNat, s.ram.read (0x800 + i) = some (inp.ek.getD i 0#8)
  pk : ∀ i < s.profile.pkLen.toNat, s.ram.read (0x090 + i) = some (inp.pk i)
  bk : ∀ i < s.profile.bkLen.toNat, s.ram.read (0x0A0 + i) = some (inp.bk i)

/-! ### UnityCN (43_unitycn.md R182 to R187, R190, R191) -/

/-- `hexval(c)` (R182). -/
def hexDigit (c : Byte) : Option Nat :=
  if '0'.toNat ≤ c.toNat ∧ c.toNat ≤ '9'.toNat then some (c.toNat - '0'.toNat)
  else if 'A'.toNat ≤ c.toNat ∧ c.toNat ≤ 'F'.toNat then some (c.toNat - 'A'.toNat + 10)
  else if 'a'.toNat ≤ c.toNat ∧ c.toNat ≤ 'f'.toNat then some (c.toNat - 'a'.toNat + 10)
  else none

/-- The signature, `#$unity3dchina!@` (00_scope.md R18). -/
def sigByte (i : Nat) : Byte := BitVec.ofNat 8 (("#$unity3dchina!@".toList.map Char.toNat).getD i 0)

/-- `DecryptKey(k, data)` byte `i` (R184), `ak` the active key. -/
def decryptKeyByte (s : State) (ak k data : Nat → Byte) (i : Nat) : Byte :=
  if s.ctrl.akeyEn then
    data i ^^^ (Config.aesEncEcb (Vector.ofFn fun j : Fin 16 => ak j.val)
      (Vector.ofFn fun j : Fin 16 => k j.val)).toList.getD i 0#8
  else data i

/-- Nibble `j` of a byte string, high nibble first (R185). -/
def nibble (f : Nat → Byte) (j : Nat) : Byte :=
  if j % 2 = 0 then BitVec.ofNat 8 ((f (j / 2)).toNat / 16) else BitVec.ofNat 8 ((f (j / 2)).toNat % 16)

/-- The state holds the header fields `h` of R183 at OP_ADDR, and the active key where it is used (R184). -/
structure HoldsHeader (s : State) (h ak : Nat → Byte) : Prop where
  info : ∀ i < 32, s.ram.read (bufCell (s.opAddr.toNat + (4 + i))) = some (h (4 + i))
  sig : ∀ i < 32, s.ram.read (bufCell (s.opAddr.toNat + (37 + i))) = some (h (37 + i))
  akey : s.ctrl.akeyEn = true → ∀ i < 16, s.ram.read (0x0C0 + i) = some (ak i)

/-- The decrypted signature byte (R187, R188). -/
def headerSig (s : State) (h ak : Nat → Byte) (i : Nat) : Byte :=
  decryptKeyByte s ak (fun j => h (53 + j)) (fun j => h (37 + j)) i

/-- The decrypted info byte (R188). -/
def headerInfo (s : State) (h ak : Nat → Byte) (i : Nat) : Byte :=
  decryptKeyByte s ak (fun j => h (20 + j)) (fun j => h (4 + j)) i

/-- The tables of a memory, as numbers below 16 (10_state.md R48, R49). -/
structure HoldsTables (m : Memory) (idx sub : Nat → Nat) : Prop where
  index : ∀ j < 16, idx j < 16 ∧ m.read (0x0E0 + j) = some (BitVec.ofNat 8 (idx j))
  subst : ∀ j < 16, sub j < 16 ∧ m.read (0x0F0 + j) = some (BitVec.ofNat 8 (sub j))

/-- `b(i)` (R190). -/
def maskB (sub : Nat → Nat) (i : Nat) : Nat :=
  sub (4 + i / 4 % 4) + sub (i % 4) + sub (8 + i / 16 % 4) + sub (12 + i % 256 / 64)

/-- `sub(v, i)` (R191). -/
def substByte (idx sub : Nat → Nat) (v i : Nat) : Byte :=
  BitVec.ofNat 8
    ((((idx (v % 16) : Int) - maskB sub i) % 16).toNat + 16 * (((idx (v / 16) : Int) - maskB sub i) % 16).toNat)

/-! ### The run-length walk as a relation (43_unitycn.md R194, R200 to R204) -/

/-- `X(off); off <- off + 1` returned `p` (R194). -/
def XAt (size a : Nat) (w : Walk) (p : Byte) (w' : Walk) : Prop :=
  a + w.off < size ∧ ∃ v, w.ram.read (bufCell (a + w.off)) = some v ∧ Machine.subst w.ram v w.idx = .ok p ∧
    w' = { ram := w.ram.write (bufCell (a + w.off)) p, idx := w.idx + 1#32, off := w.off + 1, tokens := w.tokens }

/-- `repeat: c = X(off); off <- off + 1 until c != 0xFF`, with the sum of the bytes read (R201, R202). -/
inductive ContRun (size a : Nat) : Walk → Nat → Walk → Prop where
  | last {w w' : Walk} {c : Byte} (hx : XAt size a w c w') (hc : c.toNat ≠ 255) : ContRun size a w c.toNat w'
  | more {w w' w'' : Walk} {c : Byte} {n : Nat} (hx : XAt size a w c w') (hc : c.toNat = 255)
      (hr : ContRun size a w' n w'') : ContRun size a w (255 + n) w''

/-- The literal length of token byte `t` is `lit` (R201). -/
def LitLen (size a : Nat) (t : Byte) (w : Walk) (lit : Nat) (w' : Walk) : Prop :=
  (t.toNat / 16 ≠ 15 ∧ lit = t.toNat / 16 ∧ w' = w) ∨
  (t.toNat / 16 = 15 ∧ ∃ n, ContRun size a w n w' ∧ lit = 15 + n)

/-- The second part of a token (R202). -/
def SecondPart (size a len : Nat) (t : Byte) (w w' : Walk) : Prop :=
  (len ≤ w.off ∧ w' = w) ∨
  (w.off < len ∧ ∃ p q w1 w2, XAt size a w p w1 ∧ XAt size a w1 q w2 ∧
    ((t.toNat % 16 ≠ 15 ∧ w' = w2) ∨ (t.toNat % 16 = 15 ∧ ∃ n, ContRun size a w2 n w')))

/-- One token, from an offset below `len` (R200, R204). -/
def OneToken (size a len : Nat) (w w' : Walk) : Prop :=
  w.off < len ∧ ∃ t lit w1 w2 w3, XAt size a w t w1 ∧ LitLen size a t w1 lit w2 ∧
    SecondPart size a len t { w2 with off := w2.off + lit } w3 ∧ w' = { w3 with tokens := w3.tokens + 1 }

/-- Tokens one after another. -/
inductive Tokens (size a len : Nat) : Walk → Walk → Prop where
  | none {w : Walk} : Tokens size a len w w
  | more {w w' w'' : Walk} (ht : OneToken size a len w w') (hr : Tokens size a len w' w'') : Tokens size a len w w''

/-- The tokens UCN_BLOCK decodes in a state, from the first on. -/
def BlockTokens (s : State) (w : Walk) : Prop :=
  Tokens s.params.bufSize s.opAddr.toNat s.opLen.toNat { ram := s.ram, idx := s.ucnIndex, off := 0, tokens := 0 } w

/-- The relative offset `o` is a literal that a token of the block skips, `w` being where the tokens lead (R200, R201). -/
def SkippedLiteral (s : State) (w : Walk) (o : Nat) : Prop :=
  ∃ t lit w0 w1 w2 w3, BlockTokens s w0 ∧ w0.off < s.opLen.toNat ∧
    XAt s.params.bufSize s.opAddr.toNat w0 t w1 ∧ LitLen s.params.bufSize s.opAddr.toNat t w1 lit w2 ∧
    SecondPart s.params.bufSize s.opAddr.toNat s.opLen.toNat t { w2 with off := w2.off + lit } w3 ∧
    Tokens s.params.bufSize s.opAddr.toNat s.opLen.toNat { w3 with tokens := w3.tokens + 1 } w ∧
    w2.off ≤ o ∧ o < w2.off + lit

/-- A continuation run in which X is asked for a byte at or past BUF's end (R205); the walk stands there. -/
inductive ContHits (size a : Nat) : Walk → Walk → Prop where
  | now {w : Walk} (h : size ≤ a + w.off) : ContHits size a w w
  | more {w w' w'' : Walk} {c : Byte} (hx : XAt size a w c w') (hc : c.toNat = 255) (hr : ContHits size a w' w'') :
      ContHits size a w w''

/-- A second part in which X is asked for a byte at or past BUF's end (R202, R205). -/
def SecondHits (size a len : Nat) (t : Byte) (w w' : Walk) : Prop :=
  w.off < len ∧
    ((size ≤ a + w.off ∧ w' = w) ∨
      ∃ p w1, XAt size a w p w1 ∧
        ((size ≤ a + w1.off ∧ w' = w1) ∨
          ∃ q w2, XAt size a w1 q w2 ∧ t.toNat % 16 = 15 ∧ ContHits size a w2 w'))

/-- A token in which X is asked for a byte at or past BUF's end (R205). -/
def TokenHits (size a len : Nat) (w w' : Walk) : Prop :=
  w.off < len ∧
    ((size ≤ a + w.off ∧ w' = w) ∨
      ∃ t w1, XAt size a w t w1 ∧
        ((t.toNat / 16 = 15 ∧ ContHits size a w1 w') ∨
          ∃ lit w2, LitLen size a t w1 lit w2 ∧ SecondHits size a len t { w2 with off := w2.off + lit } w'))

/-- The walk of UCN_BLOCK reaches BUF's end and stands at `w` (R205). -/
def BlockHitsEnd (s : State) (w : Walk) : Prop :=
  ∃ w0, BlockTokens s w0 ∧ TokenHits s.params.bufSize s.opAddr.toNat s.opLen.toNat w0 w

/-- The preconditions of UCN_BLOCK (R204). -/
def blockReady (s : State) : Prop := s.tablesValid = true ∧ s.opAddr.toNat + s.opLen.toNat ≤ s.params.bufSize

/-! ### What a command may do (30_encoding.md R93, 60_exceptions.md R231) -/

/-- The ERR bits a command can set. -/
def causeBits (i : Instr) : List Nat :=
  match i with
  | .prngSeed => []
  | .prngNext => [1]
  | .prngNextDecrypt => [1, 4]
  | .mr0kCheck => [4]
  | .mr0kDecrypt => [3, 4, 5]
  | .ucnKeyHex => [4, 7]
  | .ucnHeader => [4, 6]
  | .ucnBlock => [2, 4]

/-- The window offsets whose bytes a command may store to, computed from the operands. -/
def mayStore (i : Instr) (s : State) (o : Nat) : Prop :=
  match i with
  | .prngSeed => False
  | .prngNext => False
  | .prngNextDecrypt => bufCell s.opAddr.toNat ≤ o ∧ o < bufCell (s.opAddr.toNat + s.opLen.toNat)
  | .mr0kCheck => False
  | .mr0kDecrypt =>
    (bufCell (s.opAddr.toNat + 0x84) ≤ o ∧ o < bufCell (s.opAddr.toNat + 0x94 + blockLen s.opLen.toNat)) ∨
    (s.profile.pkLen.toNat ≠ 0 ∧ bufCell (s.opAddr.toNat + 20) ≤ o ∧ o < bufCell (s.opAddr.toNat + 3092))
  | .ucnKeyHex => 0x0C0 ≤ o ∧ o < 0x0D0
  | .ucnHeader => 0x0E0 ≤ o ∧ o < 0x100
  | .ucnBlock => bufCell s.opAddr.toNat ≤ o ∧ o < bufCell s.params.bufSize

/-- The word registers in the `writes` column of R93; SEEDED and TABLES_VALID stand in STATUS, AKEY_EN in CTRL. -/
def writesRegs (i : Instr) : List WordReg :=
  match i with
  | .prngSeed => [.prngX, .prngY, .prngZ, .prngW, .prngSeed, .status]
  | .prngNext => [.prngX, .prngY, .prngZ, .prngW, .result0]
  | .prngNextDecrypt => [.prngX, .prngY, .prngZ, .prngW, .result0, .result1]
  | .mr0kCheck => [.result0]
  | .mr0kDecrypt => [.result0, .result1]
  | .ucnKeyHex => [.ctrl]
  | .ucnHeader => [.status, .result0]
  | .ucnBlock => [.ucnIndex, .result0, .result1]

/-- The reset column of 10_state.md R20 for the word registers. -/
def resetWord (r : WordReg) : Word := if r = .id then 0x58530100#32 else 0#32

end Sys2Proof.Spec

open Sys2Proof Sys2Proof.Machine Sys2Proof.Spec

/-! ## Encoding -/

/-- 30_encoding.md R93: the eight command words, written out, and the illegal words 40_command_engine.md R117 names. -/
def Obligations.SpecWordsDecode : Prop :=
  decodeWord 0x00000001#32 = .command .prngSeed ∧
  decodeWord 0x00000002#32 = .command .prngNext ∧
  decodeWord 0x00000003#32 = .command .prngNextDecrypt ∧
  decodeWord 0x00000010#32 = .command .mr0kCheck ∧
  decodeWord 0x00000011#32 = .command .mr0kDecrypt ∧
  decodeWord 0x00000020#32 = .command .ucnKeyHex ∧
  decodeWord 0x00000021#32 = .command .ucnHeader ∧
  decodeWord 0x00000022#32 = .command .ucnBlock ∧
  decodeWord 0x00000000#32 = .illegal .unknownOpcode ∧
  decodeWord 0x00000101#32 = .illegal .reservedBits

/-- 30_encoding.md R91, R99: a word is the command whose opcode its bits 7:0 are exactly when its bits 31:8 are 0; every
other word is illegal. -/
def Obligations.DecodeAcceptsExactlyLegalWords : Prop :=
  ∀ v : Word,
    (∀ i, decodeWord v = .command i ↔ v.toNat / 2 ^ 8 = 0 ∧ v.toNat % 2 ^ 8 = opcode i) ∧
    ((∃ why, decodeWord v = .illegal why) ↔ v.toNat / 2 ^ 8 ≠ 0 ∨ ∀ i, v.toNat % 2 ^ 8 ≠ opcode i)

/-- Decode and encode agree in both directions, on command words and on words numbered as the opcode table numbers
them. -/
def Obligations.DecodeEncodeRoundTrip : Prop :=
  (∀ i : Instr, decodeWord (encode i) = .command i ∧ decodeTableWord 32 (encode i).toNat = some i) ∧
  (∀ (v : Word) (i : Instr), decodeWord v = .command i → encode i = v)

/-! ## The step -/

/-- 40_command_engine.md R112: while a command runs, the engine's turn (and the step of an empty agenda) is exec of the
decoded LAST_CMD; the step takes that turn off the agenda and does nothing else around exec.
The agenda is the model's choice: notes/assumptions/6.md. -/
def Obligations.StepRunsDecodedCommand : Prop :=
  ∀ (s : State) (i : Instr), s.busy = true → s.inReset = false → decodeWord s.lastCmd = .command i →
    (s.agenda = [] → step s = exec i s) ∧
    (∀ rest, s.agenda = .engine :: rest → step s = exec i { s with agenda := rest })

/-- 30_encoding.md R94, 40_command_engine.md R117: a word that is none of the eight completes with ERR.ILLEGAL_CMD and
no other effect. -/
def Obligations.IllegalWordRaisesIllegalCmd : Prop :=
  ∀ (s : State) (rest : List Turn), s.busy = true → s.inReset = false →
    s.lastCmd ∉ [0x01#32, 0x02#32, 0x03#32, 0x10#32, 0x11#32, 0x20#32, 0x21#32, 0x22#32] →
    s.agenda = .engine :: rest → step s = .next (failed 0 { s with agenda := rest })

/-- 70_reset_and_hazards.md R263: the idle block waits; an engine turn changes nothing then.
The agenda is the model's choice: notes/assumptions/6.md. -/
def Obligations.IdleBlockWaits : Prop :=
  ∀ s : State, s.busy = false →
    (s.agenda = [] → step s = .next s) ∧
    (∀ rest, s.agenda = .engine :: rest → step s = .next { s with agenda := rest })

/-- Notes/assumptions/7.md: the placed command word is what the very next step runs.
The placing is the model's choice. -/
def Obligations.PlacedWordRunsNext : Prop :=
  ∀ (s : State) (w : Nat) (i : Instr), decodeTableWord 32 w = some i → w < 2 ^ 32 →
    step (s.withFetchWord 32 w) =
      exec i { s with lastCmd := BitVec.ofNat 32 w, busy := true, done := false, inReset := false }

/-- 10_state.md R61: a step never refuses, and it faults only on a byte of the arrays or of BUF not written since reset;
no operation reaches outside them. -/
def Obligations.StepFaultsOnlyOnUnwrittenBytes : Prop :=
  ∀ s : State, (∀ r, step s ≠ .refused r) ∧
    (∀ f, step s = .fault f →
      ∃ o, f = .unwrittenByte o ∧ inRegions s.params o ∧ s.ram.read o = none ∧ s.busy = true)

/-! ## Reset -/

/-- 70_reset_and_hazards.md R261: every register as the host reads it after reset, and the interrupt line. R261 calls RAM
unspecified: that no byte holds a value is 10_state.md R61's treatment and the model's choice (notes/assumptions/5.md),
and the canonical form of the memory is the model's own. -/
def Obligations.ResetValues : Prop :=
  (∀ r : WordReg, regRead State.reset r = resetWord r) ∧ irq State.reset = false ∧
  (∀ o, State.reset.ram.read o = none) ∧ State.reset.ram.wf

/-- 70_reset_and_hazards.md R260, R261: asserting reset over an idle block gives every register its reset value.
That the values take effect at the assertion is the model's choice, notes/assumptions/8.md; that RAM holds no value after
it is notes/assumptions/5.md. -/
def Obligations.ResetOfIdleBlock : Prop :=
  ∀ (s : State) (rest : List Turn), s.inReset = false → s.busy = false → s.agenda = .assertReset :: rest →
    ∃ t, step s = .next t ∧ (∀ r, regRead t r = resetWord r) ∧ irq t = false ∧ t.params = s.params ∧
      t.inReset = true ∧ t.agenda = rest ∧ t.replies = s.replies ∧ (∀ o, t.ram.read o = none)

/-- 70_reset_and_hazards.md R260: a running command is abandoned and the engine is idle. Of a legal word, every register
outside the `writes` column of its row of R93 has its reset value (what the column names is a free value, of which nothing
is said; STATUS then still reads 0 but in the bits SEEDED and TABLES_VALID); of an illegal word, which writes nothing
(40_command_engine.md R117), every register has. That BUSY, DONE and ERR are at their reset values then is the model's
reading, notes/assumptions/9.md; that the values take effect at the assertion is its choice, notes/assumptions/8.md; that
RAM holds no value after it is notes/assumptions/5.md. -/
def Obligations.ResetAbandonsCommand : Prop :=
  ∀ (s : State) (rest : List Turn), s.inReset = false → s.busy = true → s.agenda = .assertReset :: rest →
    ∃ t, step s = .next t ∧ t.busy = false ∧ t.done = false ∧ t.err = 0#9 ∧ irq t = false ∧ t.params = s.params ∧
      t.inReset = true ∧ t.agenda = rest ∧ t.replies = s.replies ∧ t.ctrl.doneIe = false ∧ t.ctrl.errIe = false ∧
      (∀ o, t.ram.read o = none) ∧
      (∀ i, decodeWord s.lastCmd = .command i →
        (∀ r, r ∉ writesRegs i → regRead t r = resetWord r) ∧
        (i ≠ .prngSeed → t.seeded = false) ∧ (i ≠ .ucnHeader → t.tablesValid = false) ∧
        (i ≠ .ucnKeyHex → t.ctrl.akeyEn = false)) ∧
      (∀ why, decodeWord s.lastCmd = .illegal why → ∀ r, regRead t r = resetWord r)

/-- 70_reset_and_hazards.md R260: "While asserted no host access is answered and the engine takes no step".
The reset input as turns is the model's choice: notes/assumptions/8.md. -/
def Obligations.NothingMovesInReset : Prop :=
  ∀ (s : State) (rest : List Turn), s.inReset = true →
    (∀ a, s.agenda = .host a :: rest → step s = .next { s with agenda := rest, replies := .noAnswer :: s.replies }) ∧
    (s.agenda = .engine :: rest → step s = .next { s with agenda := rest }) ∧
    (s.agenda = .assertReset :: rest → step s = .next { s with agenda := rest }) ∧
    (s.agenda = .releaseReset :: rest → step s = .next { s with agenda := rest, inReset := false }) ∧
    (s.agenda = [] → step s = .next s)

/-! ## The host port -/

/-- 40_command_engine.md R111: a COMMAND write while idle is accepted, whatever the word and whatever ERR holds. -/
def Obligations.CommandWriteIssues : Prop :=
  ∀ (s : State) (v : Word) (rest : List Turn), idleWith s (.write .w32 (s.params.base + 0x010) v) rest →
    step s = .next { s with
      agenda := rest, lastCmd := v, busy := true, done := false, replies := .writeOk :: s.replies }

/-- 40_command_engine.md R115: while busy only 32-bit reads of ID, STATUS and ERR are answered, with their current
values; every other access in the window gets SLVERR, sets ERR.BUSY_ACCESS and changes nothing else. -/
def Obligations.BusyBlockRefusesAccesses : Prop :=
  ∀ (s : State) (a : Access) (o : Nat) (rest : List Turn), s.inReset = false → s.busy = true →
    s.agenda = .host a :: rest → accessAddr a = s.params.base + o → o < 0x10000 + 2 ^ 23 →
    (a = .read .w32 (s.params.base + 0x000) →
      step s = .next { s with agenda := rest, replies := .readOk 0x58530100#32 :: s.replies }) ∧
    (a = .read .w32 (s.params.base + 0x008) →
      step s = .next { s with agenda := rest, replies := .readOk (statusWord s) :: s.replies }) ∧
    (a = .read .w32 (s.params.base + 0x00C) →
      step s = .next { s with agenda := rest, replies := .readOk (s.err.setWidth 32) :: s.replies }) ∧
    (a ∉ [Access.read .w32 (s.params.base + 0x000), .read .w32 (s.params.base + 0x008),
        .read .w32 (s.params.base + 0x00C)] →
      step s = .next { s with agenda := rest, err := s.err ||| 1#9 <<< 8, replies := slverr a :: s.replies })

/-- 20_memory.md R70: an access outside the window is not the block's: nothing changes, nothing is answered.
That it is recorded as not answered is the model's choice: notes/assumptions/19.md. -/
def Obligations.AccessOutsideWindowIgnored : Prop :=
  ∀ (s : State) (a : Access) (rest : List Turn), s.agenda = .host a :: rest →
    (accessAddr a < s.params.base ∨ s.params.base + (0x10000 + 2 ^ 23) ≤ accessAddr a) →
    step s = .next { s with agenda := rest, replies := .noAnswer :: s.replies }

/-- 20_memory.md R73 to R75: an idle block answers exactly the legal accesses; every other access in the window gets
SLVERR, with read data 0, and changes nothing. -/
def Obligations.IllegalAccessesGetSlverr : Prop :=
  ∀ (s : State) (w : Width) (o : Nat) (v : Word) (rest : List Turn), o < 0x10000 + 2 ^ 23 →
    (idleWith s (.read w (s.params.base + o)) rest →
      (¬ legalAt s.params w o →
        step s = .next { s with agenda := rest, replies := .readSlverr 0#32 :: s.replies }) ∧
      (legalAt s.params w o →
        ∃ d, step s = .next { s with agenda := rest, replies := .readOk d :: s.replies })) ∧
    (idleWith s (.write w (s.params.base + o) v) rest →
      (¬ legalAt s.params w o →
        step s = .next { s with agenda := rest, replies := .writeSlverr :: s.replies }) ∧
      (legalAt s.params w o →
        ∃ t, step s = .next t ∧ t.agenda = rest ∧ t.replies = .writeOk :: s.replies))

/-- 10_state.md R20 to R39, R47: every word register reads as the field that holds it, bit for bit, and a 32-bit read of
it while idle is answered with that value; 20_memory.md R79: it changes nothing. -/
def Obligations.RegisterReads : Prop :=
  ∀ (s : State) (r : WordReg), regRead s r = regValue s r ∧
    ∀ rest, idleWith s (.read .w32 (s.params.base + regRow r)) rest →
      step s = .next { s with agenda := rest, replies := .readOk (regValue s r) :: s.replies }

/-- 10_state.md R21 to R27: the words of ID, CTRL, STATUS, ERR and COMMAND, bit by bit. -/
def Obligations.StatusWordLayout : Prop :=
  ∀ (s : State) (n : Nat),
    (regRead s .id = 0x58530100#32) ∧ (regRead s .command = s.lastCmd) ∧
    (regRead s .ctrl).getLsbD n =
      ((n == 0 && s.ctrl.akeyEn) || (n == 1 && s.ctrl.doneIe) || (n == 2 && s.ctrl.errIe)) ∧
    (regRead s .status).getLsbD n =
      ((n == 0 && s.busy) || (n == 1 && s.done) || (n == 2 && s.seeded) || (n == 3 && s.tablesValid) ||
        (n == 4 && s.err != 0#9)) ∧
    (regRead s .err).getLsbD n = (decide (n < 9) && s.err.getLsbD n)

/-- 10_state.md R22, R28 to R30, R35 to R39, R47, R52: a write to an RW word register stores its field bits, and changes
no other register and no byte. -/
def Obligations.RegisterWritesStore : Prop :=
  ∀ (s : State) (r : WordReg) (m v : Word) (rest : List Turn), rwMask r = some m →
    idleWith s (.write .w32 (s.params.base + regRow r) v) rest →
    ∃ t, step s = .next t ∧ regRead t r = v &&& m ∧ (∀ q, q ≠ r → regRead t q = regRead s q) ∧
      t.ram = s.ram ∧ t.params = s.params ∧ t.inReset = s.inReset ∧ t.resets = s.resets ∧ t.agenda = rest ∧
      t.replies = .writeOk :: s.replies

/-- 20_memory.md R76: writes to read-only registers and arrays complete and change nothing; a write to STATUS changes
only DONE, which it clears when bit 1 is 1 (10_state.md R23). -/
def Obligations.ReadOnlyWritesIgnored : Prop :=
  ∀ (s : State) (v : Word) (rest : List Turn),
    (∀ r ∈ roRegs, idleWith s (.write .w32 (s.params.base + regRow r) v) rest →
      step s = .next { s with agenda := rest, replies := .writeOk :: s.replies }) ∧
    (∀ w o, 0x0E0 ≤ o → o < 0x100 → o % bytesOf w = 0 → idleWith s (.write w (s.params.base + o) v) rest →
      step s = .next { s with agenda := rest, replies := .writeOk :: s.replies }) ∧
    (idleWith s (.write .w32 (s.params.base + 0x008) v) rest →
      step s = .next { s with
        agenda := rest, done := s.done && !v.getLsbD 1, replies := .writeOk :: s.replies })

/-- 10_state.md R26: a host write of `v` to ERR gives `R[ERR] & ~(v & 0x1FF)`. -/
def Obligations.ErrWriteClearsBits : Prop :=
  ∀ (s : State) (v : Word) (rest : List Turn), idleWith s (.write .w32 (s.params.base + 0x00C) v) rest →
    ∃ e, step s = .next { s with agenda := rest, err := e, replies := .writeOk :: s.replies } ∧
      e.setWidth 32 = s.err.setWidth 32 &&& ~~~(v &&& 0x1FF#32)

/-- 20_memory.md R79: two reads of one offset of an idle block in a row change nothing and return the same value. -/
def Obligations.ReadsAreIdempotent : Prop :=
  ∀ (s : State) (w : Width) (addr : Nat) (rest : List Turn),
    idleWith s (.read w addr) (.host (.read w addr) :: rest) →
    ∃ t d, step s = .next t ∧ step t = .next { s with agenda := rest, replies := d :: d :: s.replies }

/-- 20_memory.md R72, R89: a write to a writable byte region moves byte `k` of its data to offset `o + k`, and reaches
no other byte and no register. -/
def Obligations.ByteRegionWrites : Prop :=
  ∀ (s : State) (w : Width) (r : ByteRegion) (o : Nat) (v : Word) (rest : List Turn),
    r ≠ .indexTbl → r ≠ .subTbl → rowBase r ≤ o → o + bytesOf w ≤ rowBase r + rowSize s.params r →
    o % bytesOf w = 0 → idleWith s (.write w (s.params.base + o) v) rest →
    ∃ m, step s = .next { s with agenda := rest, ram := m, replies := .writeOk :: s.replies } ∧
      (∀ k < bytesOf w, m.read (o + k) = some (leByte v.toNat k)) ∧
      (∀ x, ¬ (o ≤ x ∧ x < o + bytesOf w) → m.read x = s.ram.read x)

/-- 20_memory.md R72: a read of a byte region yields byte `o + k` in lane `k`, wherever that byte was written since
reset (a byte that was not reads as a free value).
That a narrow read's value is zero-extended is the model's choice: notes/assumptions/12.md. -/
def Obligations.ByteRegionReads : Prop :=
  ∀ (s : State) (w : Width) (r : ByteRegion) (o : Nat) (rest : List Turn),
    rowBase r ≤ o → o + bytesOf w ≤ rowBase r + rowSize s.params r → o % bytesOf w = 0 →
    idleWith s (.read w (s.params.base + o)) rest →
    ∃ d, step s = .next { s with agenda := rest, replies := .readOk d :: s.replies } ∧
      d.toNat < 2 ^ (8 * bytesOf w) ∧
      (∀ k < bytesOf w, ∀ b, s.ram.read (o + k) = some b → leByte d.toNat k = b)

/-! ## Completion, errors, frames: all commands -/

/-- 40_command_engine.md R113, R118, 60_exceptions.md R231: a command ends idle and done, and sets at most one ERR bit,
one of its own causes; it never clears one. -/
def Obligations.CommandsCompleteWithOneError : Prop :=
  ∀ (i : Instr) (s t : State), exec i s = .next t →
    t.busy = false ∧ t.done = true ∧ (t.err = s.err ∨ ∃ b ∈ causeBits i, t.err = s.err ||| 1#9 <<< b)

/-- 40_command_engine.md R121, 30_encoding.md R93: the registers no command writes, and those only some commands
write. -/
def Obligations.CommandRegisterFrame : Prop :=
  ∀ (i : Instr) (s t : State), exec i s = .next t →
    (t.params = s.params ∧ t.lastCmd = s.lastCmd ∧ t.opAddr = s.opAddr ∧ t.opLen = s.opLen ∧ t.opVal = s.opVal ∧
      t.profile = s.profile ∧ t.ctrl.doneIe = s.ctrl.doneIe ∧ t.ctrl.errIe = s.ctrl.errIe ∧ t.inReset = s.inReset ∧
      t.resets = s.resets ∧ t.agenda = s.agenda ∧ t.replies = s.replies) ∧
    (i ∉ [.prngSeed, .prngNext, .prngNextDecrypt] → t.prng = s.prng) ∧
    (i ≠ .prngSeed → t.prngSeed = s.prngSeed ∧ t.seeded = s.seeded) ∧
    (i ∉ [.prngNext, .prngNextDecrypt, .mr0kCheck, .mr0kDecrypt, .ucnHeader, .ucnBlock] → t.result0 = s.result0) ∧
    (i ∉ [.prngNextDecrypt, .mr0kDecrypt, .ucnBlock] → t.result1 = s.result1) ∧
    (i ≠ .ucnKeyHex → t.ctrl.akeyEn = s.ctrl.akeyEn) ∧
    (i ≠ .ucnHeader → t.tablesValid = s.tablesValid) ∧
    (i ≠ .ucnBlock → t.ucnIndex = s.ucnIndex)

/-- 40_command_engine.md R121: every byte outside what the command stores to reads as before, for each command with the
addresses computed from its operands; PRNG_SEED, PRNG_NEXT and MR0K_CHECK store nothing. -/
def Obligations.CommandMemoryFrame : Prop :=
  ∀ (i : Instr) (s t : State), exec i s = .next t →
    ∀ o, ¬ mayStore i s o → t.ram.read o = s.ram.read o

/-! ## PRNG -/

/-- 41_prng.md R131, R133: PRNG_SEED. -/
def Obligations.PrngSeedResult : Prop :=
  ∀ s : State,
    exec .prngSeed s = .next (completed { s with
      prng := {
        x := s.opVal
        y := BitVec.ofNat 32 (seedMul s.opVal.toNat)
        z := BitVec.ofNat 32 (seedMul (seedMul s.opVal.toNat))
        w := BitVec.ofNat 32 (seedMul (seedMul (seedMul s.opVal.toNat))) }
      prngSeed := s.opVal
      seeded := true })

/-- 41_prng.md R132, R134: PRNG_NEXT, seeded and unseeded. -/
def Obligations.PrngNextResult : Prop :=
  ∀ s : State,
    (s.seeded = true →
      exec .prngNext s = .next (completed { s with
        prng := next s.prng, result0 := BitVec.ofNat 32 (nextOut s.prng) })) ∧
    (s.seeded = false → exec .prngNext s = .next (failed 1 s))

/-- 41_prng.md R136: PRNG_NEXT_DECRYPT refuses an unseeded generator first, then a region that does not fit, and then
changes nothing else. -/
def Obligations.NextDecryptErrors : Prop :=
  ∀ s : State,
    (s.seeded = false → exec .prngNextDecrypt s = .next (failed 1 s)) ∧
    (s.seeded = true → s.params.bufSize < s.opAddr.toNat + s.opLen.toNat →
      exec .prngNextDecrypt s = .next (failed 4 s))

/-- 41_prng.md R135, R136: PRNG_NEXT_DECRYPT writes `n` bytes, each a key byte chosen by one step's output mod 8,
advances the generator by exactly `n` steps and leaves the key in RESULT0 and RESULT1; every other byte and register is
unchanged. -/
def Obligations.NextDecryptResult : Prop :=
  ∀ s : State, s.seeded = true → s.opAddr.toNat + s.opLen.toNat ≤ s.params.bufSize →
    let key := decryptKeyNat s.opLen.toNat s.prngSeed.toNat
    ∃ m, exec .prngNextDecrypt s = .next (completed { s with
        prng := next^[s.opLen.toNat] s.prng
        ram := m
        result0 := BitVec.ofNat 32 key
        result1 := BitVec.ofNat 32 (key / 2 ^ 32) }) ∧
      (∀ j < s.opLen.toNat,
        m.read (bufCell (s.opAddr.toNat + j)) = some (leByte key (nextOut (next^[j] s.prng) % 8))) ∧
      (∀ o, ¬ (bufCell s.opAddr.toNat ≤ o ∧ o < bufCell (s.opAddr.toNat + s.opLen.toNat)) → m.read o = s.ram.read o)

/-- 41_prng.md R137: the step is a bijection on the 2^128 states; the all-zero state steps to itself and no other state
steps to it; no seeded state is all-zero, so none is after any number of steps. -/
def Obligations.PrngStepIsBijection : Prop :=
  Function.Bijective prngStep ∧
    prngStep { x := 0#32, y := 0#32, z := 0#32, w := 0#32 } = { x := 0#32, y := 0#32, z := 0#32, w := 0#32 } ∧
    (∀ p, prngNonzero p → prngNonzero (prngStep p)) ∧
    (∀ (v : Word) (n : Nat), prngNonzero (prngStep^[n] (seedState v)))

/-- 41_prng.md R138: whatever else two states hold, after PRNG_SEED the results of `n` PRNG_NEXT commands depend on the
seed alone, and two seeds that differ give different results within the first 4.
PRNG_NEXT_DECRYPT commands in the sequence, which R138 admits too, are not in this statement. -/
def Obligations.DistinctSeedsDiffer : Prop :=
  ∀ s t s' t' : State, exec .prngSeed s = .next s' → exec .prngSeed t = .next t' →
    (∀ n, (outputs n s').length = n) ∧
    (s.opVal = t.opVal → ∀ n, outputs n s' = outputs n t') ∧
    (s.opVal ≠ t.opVal → outputs 4 s' ≠ outputs 4 t')

/-! ## Mr0k -/

/-- 42_mr0k.md R151: MR0K_CHECK. -/
def Obligations.Mr0kCheckResult : Prop :=
  ∀ s : State,
    (s.params.bufSize < s.opAddr.toNat + s.opLen.toNat → exec .mr0kCheck s = .next (failed 4 s)) ∧
    (s.opAddr.toNat + s.opLen.toNat ≤ s.params.bufSize →
      (s.opLen.toNat < 4 → exec .mr0kCheck s = .next (completed { s with result0 := 0#32 })) ∧
      (4 ≤ s.opLen.toNat → ∀ b0 b1 b2 b3 : Byte,
        s.ram.read (bufCell s.opAddr.toNat) = some b0 → s.ram.read (bufCell (s.opAddr.toNat + 1)) = some b1 →
        s.ram.read (bufCell (s.opAddr.toNat + 2)) = some b2 → s.ram.read (bufCell (s.opAddr.toNat + 3)) = some b3 →
        exec .mr0kCheck s = .next (completed { s with
          result0 := if b0 = 0x6D#8 ∧ b1 = 0x72#8 ∧ b2 = 0x30#8 ∧ b3 = 0x6B#8 then 1#32 else 0#32 })))

/-- 42_mr0k.md R153 to R155, R157: the refusals of MR0K_DECRYPT in their order, each changing nothing else. -/
def Obligations.Mr0kDecryptErrors : Prop :=
  ∀ s : State,
    (¬ legalProfile s.profile → exec .mr0kDecrypt s = .next (failed 3 s)) ∧
    (legalProfile s.profile →
      (s.params.bufSize < s.opAddr.toNat + s.opLen.toNat → exec .mr0kDecrypt s = .next (failed 4 s)) ∧
      (s.opAddr.toNat + s.opLen.toNat ≤ s.params.bufSize →
        (s.opLen.toNat < 0x94 ∨ (s.profile.pkLen.toNat ≠ 0 ∧ s.opLen.toNat < 3092)) →
        exec .mr0kDecrypt s = .next (failed 5 s)))

/-- 42_mr0k.md R152: MR0K_DECRYPT, every buffer byte by the formulas of R156 to R166, for every profile, both values of
MR0K_SEED2_SOURCE and of MR0K_NO_BLOCKKEY_MODE and any AES; RESULT0 and RESULT1 name the slice; nothing else changes.
It asks for a value in every byte of the buffer and, with the SBox present, in the whole SBox, more than the command
reads. -/
def Obligations.Mr0kDecryptResult : Prop :=
  ∀ (s : State) (inp : Mr0kIn), legalProfile s.profile →
    s.opAddr.toNat + s.opLen.toNat ≤ s.params.bufSize → 0x94 ≤ s.opLen.toNat →
    (s.profile.pkLen.toNat ≠ 0 → 3092 ≤ s.opLen.toNat) → HoldsMr0k s inp →
    ∃ m, exec .mr0kDecrypt s = .next (completed { s with
        ram := m
        result0 := BitVec.ofNat 32 (s.opAddr.toNat + 20)
        result1 := BitVec.ofNat 32 (s.opLen.toNat - 20) }) ∧
      (∀ q < s.opLen.toNat, m.read (bufCell (s.opAddr.toNat + q)) =
        some (decryptedByte s.params s.profile inp s.opLen.toNat q)) ∧
      (∀ o, ¬ (bufCell s.opAddr.toNat ≤ o ∧ o < bufCell (s.opAddr.toNat + s.opLen.toNat)) → m.read o = s.ram.read o)

/-- 42_mr0k.md R156: the consequences it lists for the block length. -/
def Obligations.Mr0kBlockLenBounds : Prop :=
  ∀ len : Nat, 0x94 ≤ len →
    mr0kBlockLen len = blockLen len ∧ mr0kBlockLen len % 16 = 0 ∧ mr0kBlockLen len ≤ 1024 ∧
    16 * ((len - 0x94) / 128) ≤ (len - 0x94) / 8 ∧
    0x94 + mr0kBlockLen len ≤ len ∧ (len ≤ 0x113 → mr0kBlockLen len = 0) ∧ (len = 276 → mr0kBlockLen len = 16) ∧
    (8340 ≤ len ↔ mr0kBlockLen len = 1024)

/-! ## UnityCN -/

/-- 43_unitycn.md R181, R182: UCN_KEY_HEX loads the 16 decoded bytes and sets AKEY_EN; nothing else changes. -/
def Obligations.UcnKeyHexLoads : Prop :=
  ∀ (s : State) (c : Nat → Byte) (d : Nat → Nat), s.opLen.toNat = 32 →
    s.opAddr.toNat + s.opLen.toNat ≤ s.params.bufSize →
    (∀ i < 32, s.ram.read (bufCell (s.opAddr.toNat + i)) = some (c i) ∧ hexDigit (c i) = some (d i)) →
    ∃ m, exec .ucnKeyHex s = .next (completed { s with ram := m, ctrl := { s.ctrl with akeyEn := true } }) ∧
      (∀ j < 16, m.read (0x0C0 + j) = some (BitVec.ofNat 8 (d (2 * j) * 16 + d (2 * j + 1)))) ∧
      (∀ o, ¬ (0x0C0 ≤ o ∧ o < 0x0D0) → m.read o = s.ram.read o)

/-- 43_unitycn.md R181: the refusals of UCN_KEY_HEX in their order; the key and AKEY_EN are unchanged. -/
def Obligations.UcnKeyHexErrors : Prop :=
  ∀ s : State,
    (s.params.bufSize < s.opAddr.toNat + s.opLen.toNat → exec .ucnKeyHex s = .next (failed 4 s)) ∧
    (s.opAddr.toNat + s.opLen.toNat ≤ s.params.bufSize →
      (s.opLen.toNat ≠ 32 → exec .ucnKeyHex s = .next (failed 7 s)) ∧
      (s.opLen.toNat = 32 → ∀ c : Nat → Byte,
        (∀ i < 32, s.ram.read (bufCell (s.opAddr.toNat + i)) = some (c i)) →
        (∃ i < 32, hexDigit (c i) = none) → exec .ucnKeyHex s = .next (failed 7 s)))

/-- 43_unitycn.md R188: the refusals of UCN_HEADER; TABLES_VALID is cleared, the tables keep their bytes.
That the signature clause asks nothing of the skipped header bytes is the model's reading of R183 over the one 70-byte
MemRead of R188: notes/assumptions/10.md. -/
def Obligations.UcnHeaderErrors : Prop :=
  ∀ s : State,
    (s.params.bufSize < s.opAddr.toNat + 70 →
      exec .ucnHeader s = .next (failed 4 { s with tablesValid := false })) ∧
    (s.opAddr.toNat + 70 ≤ s.params.bufSize → ∀ h ak : Nat → Byte, HoldsHeader s h ak →
      (∃ i < 16, headerSig s h ak i ≠ sigByte i) →
      exec .ucnHeader s = .next (failed 6 { s with tablesValid := false }))

/-- 43_unitycn.md R183 to R188: UCN_HEADER replaces both tables from the 32 nibbles of the decrypted infoBytes; BUF and
every other byte are unchanged; the skipped header bytes are not read.
That they are not read is the model's reading of R183 over the one 70-byte MemRead of R188: notes/assumptions/10.md. -/
def Obligations.UcnHeaderLoadsTables : Prop :=
  ∀ (s : State) (h ak : Nat → Byte), s.opAddr.toNat + 70 ≤ s.params.bufSize → HoldsHeader s h ak →
    (∀ i < 16, headerSig s h ak i = sigByte i) →
    ∃ m, exec .ucnHeader s = .next (completed { s with ram := m, tablesValid := true, result0 := 70#32 }) ∧
      (∀ i < 16, m.read (0x0E0 + i) = some (nibble (headerInfo s h ak) i)) ∧
      (∀ i < 16, m.read (0x0F0 + (i % 4 * 4 + i / 4)) = some (nibble (headerInfo s h ak) (16 + i))) ∧
      (∀ o, ¬ (0x0E0 ≤ o ∧ o < 0x100) → m.read o = s.ram.read o)

/-- 43_unitycn.md R190, R191: the per-byte transform. -/
def Obligations.SubstFormula : Prop :=
  ∀ (m : Memory) (idx sub : Nat → Nat) (v : Byte) (i : Word), HoldsTables m idx sub →
    Machine.subst m v i = .ok (substByte idx sub v.toNat i.toNat)

/-- 43_unitycn.md R193: only the low 8 bits of the index matter, whatever the tables hold. -/
def Obligations.SubstPeriodic : Prop :=
  ∀ (m : Memory) (v : Byte) (i : Word), Machine.subst m v i = Machine.subst m v (BitVec.ofNat 32 (i.toNat % 256))

/-- 43_unitycn.md R204: UCN_BLOCK without tables, or with a region that does not fit, changes nothing else. -/
def Obligations.UcnBlockErrors : Prop :=
  ∀ s : State,
    (s.tablesValid = false → exec .ucnBlock s = .next (failed 2 s)) ∧
    (s.tablesValid = true → s.params.bufSize < s.opAddr.toNat + s.opLen.toNat →
      exec .ucnBlock s = .next (failed 4 s))

/-- 43_unitycn.md R204 (with R194, R200 to R202): UCN_BLOCK is the walk. Whenever the tokens of the block lead to an
offset at or past `size`, the command completes with the walk's bytes, running index, final offset and token count, and
nothing else changes. -/
def Obligations.UcnBlockFollowsWalk : Prop :=
  ∀ (s : State) (w : Walk), blockReady s → BlockTokens s w → s.opLen.toNat ≤ w.off →
    exec .ucnBlock s = .next (completed { s with
      ram := w.ram, ucnIndex := w.idx, result0 := BitVec.ofNat 32 w.off, result1 := BitVec.ofNat 32 w.tokens })

/-- 43_unitycn.md R203, R204, R206, R207: wherever the tokens of a block lead, the offset fits RESULT0 and there are at
most `size` tokens; when they lead to `size` or past it, UCN_BLOCK gives a next state whose RESULT0 and RESULT1 are that
offset and that token count, not reduced, in which every byte outside `[a, BUF_SIZE)` and every skipped literal keeps its
value. -/
def Obligations.UcnBlockOffsetFits : Prop :=
  ∀ (s : State) (w : Walk), blockReady s → BlockTokens s w →
    w.off ≤ 256 * s.params.bufSize + 15 ∧ w.off < 2 ^ 32 ∧ w.tokens ≤ s.opLen.toNat ∧
    (∀ o, ¬ (bufCell s.opAddr.toNat ≤ o ∧ o < bufCell s.params.bufSize) → w.ram.read o = s.ram.read o) ∧
    (s.opLen.toNat ≤ w.off →
      ∃ t, exec .ucnBlock s = .next t ∧ t.result0.toNat = w.off ∧ t.result1.toNat = w.tokens ∧ t.err = s.err ∧
        (∀ o, ¬ (bufCell s.opAddr.toNat ≤ o ∧ o < bufCell s.params.bufSize) → t.ram.read o = s.ram.read o) ∧
        (∀ o, SkippedLiteral s w o →
          t.ram.read (bufCell (s.opAddr.toNat + o)) = s.ram.read (bufCell (s.opAddr.toNat + o))))

/-- 43_unitycn.md R205: when the walk asks for a byte at or past BUF's end, the command raises BOUNDS and what the walk
made stands: UCN_INDEX the index the faulting byte would have used, RESULT0 its relative offset, RESULT1 the tokens
completed before it; no byte at or beyond it, and none outside `[a, BUF_SIZE)`, is changed. -/
def Obligations.UcnBlockWalkFault : Prop :=
  ∀ (s : State) (w : Walk), blockReady s → BlockHitsEnd s w →
    exec .ucnBlock s = .next (failed 4 { s with
      ram := w.ram, ucnIndex := w.idx, result0 := BitVec.ofNat 32 w.off, result1 := BitVec.ofNat 32 w.tokens }) ∧
    s.params.bufSize ≤ s.opAddr.toNat + w.off ∧ w.off < 2 ^ 32 ∧
    (∀ o, ¬ (bufCell s.opAddr.toNat ≤ o ∧ o < bufCell s.params.bufSize) → w.ram.read o = s.ram.read o)

/-- 43_unitycn.md R207: the walk always ends, after at most `size` tokens and at most `BUF_SIZE - a` transformed bytes
(the advance of the index), and the command with it: with the tables and BUF's bytes from the block's start on written,
its tokens reach `size`, or it reaches BUF's end inside one. -/
def Obligations.UcnBlockTerminates : Prop :=
  ∀ s : State, blockReady s → tablesWritten s.ram →
    bufWritten s.ram s.opAddr.toNat (s.params.bufSize - s.opAddr.toNat) →
    ∃ (w : Walk) (n : Nat),
      ((BlockTokens s w ∧ s.opLen.toNat ≤ w.off ∧ w.tokens ≤ s.opLen.toNat) ∨
        (BlockHitsEnd s w ∧ w.tokens < s.opLen.toNat)) ∧
      w.idx = s.ucnIndex + BitVec.ofNat 32 n ∧ n ≤ s.params.bufSize - s.opAddr.toNat ∧
      ∃ t, exec .ucnBlock s = .next t

/-- 43_unitycn.md R208 (a), (b), (c): size 0 reads and changes nothing; a first token whose literals reach or jump past
size ends the walk, with one byte transformed and the literals untouched. -/
def Obligations.UcnBlockCornerCases : Prop :=
  ∀ s : State, blockReady s →
    (s.opLen = 0#32 → exec .ucnBlock s = .next (completed { s with result0 := 0#32, result1 := 0#32 })) ∧
    (∀ v p : Byte, 0 < s.opLen.toNat → s.ram.read (bufCell s.opAddr.toNat) = some v →
      Machine.subst s.ram v s.ucnIndex = .ok p → p.toNat / 16 ≠ 15 → s.opLen.toNat ≤ 1 + p.toNat / 16 →
      exec .ucnBlock s = .next (completed { s with
        ram := s.ram.write (bufCell s.opAddr.toNat) p
        ucnIndex := s.ucnIndex + 1#32
        result0 := BitVec.ofNat 32 (1 + p.toNat / 16)
        result1 := 1#32 }))

/-- 43_unitycn.md R209: splitting one logical block between two UCN_BLOCK commands at a token boundary gives the same
bytes and final index as one command over the whole. -/
def Obligations.UcnBlockSplitsAtTokenBoundary : Prop :=
  ∀ (s : State) (w1 w : Walk), blockReady s → BlockTokens s w1 →
    Tokens s.params.bufSize s.opAddr.toNat s.opLen.toNat w1 w → s.opLen.toNat ≤ w.off → w1.off < s.opLen.toNat →
    ∃ t t1 t2, exec .ucnBlock s = .next t ∧
      exec .ucnBlock { s with opLen := BitVec.ofNat 32 w1.off } = .next t1 ∧
      exec .ucnBlock { t1 with
        opAddr := BitVec.ofNat 32 (s.opAddr.toNat + w1.off)
        opLen := BitVec.ofNat 32 (s.opLen.toNat - w1.off) } = .next t2 ∧
      t1.result0 = BitVec.ofNat 32 w1.off ∧ t1.err = s.err ∧ t2.err = s.err ∧ t.err = s.err ∧
      (∀ o, t2.ram.read o = t.ram.read o) ∧ t2.ucnIndex = t.ucnIndex

/-! ## Interrupt line -/

/-- 60_exceptions.md R244, R245: the line is up exactly while an enabled source is pending; a completion raises it when
DONE_IE is 1; a host write of 1 to STATUS bit 1 lowers it when ERR is 0. -/
def Obligations.InterruptLine : Prop :=
  (∀ s : State, irq s = true ↔
    ((s.done = true ∧ s.ctrl.doneIe = true) ∨ (s.err ≠ 0#9 ∧ s.ctrl.errIe = true))) ∧
  (∀ (i : Instr) (s t : State), exec i s = .next t → s.ctrl.doneIe = true → irq t = true) ∧
  (∀ (s : State) (v : Word) (rest : List Turn), idleWith s (.write .w32 (s.params.base + 0x008) v) rest →
    v.getLsbD 1 = true → s.err = 0#9 → ∃ t, step s = .next t ∧ irq t = false)

/-! ## Whole-machine rules -/

/-- Every step keeps the canonical memory, the register map's regions, the tables' nibbles, and DONE = 0 while busy. -/
def Obligations.StepKeepsStateInv : Prop :=
  ∀ s t : State, StateInv s → step s = .next t → StateInv t

/-- The invariant holds at reset. -/
def Obligations.ResetHasStateInv : Prop := StateInv State.reset ∧ UnitInv State.reset

/-- 41_prng.md R137, 10_state.md R50: a seeded generator is never all-zero and valid tables hold values, over every step
but an assertion of reset over a running command (after it SEEDED and TABLES_VALID may be free values).
Those free values are the model's: notes/assumptions/9.md. -/
def Obligations.StepKeepsUnitInv : Prop :=
  ∀ s t : State, UnitInv s → step s = .next t →
    ¬ (s.busy = true ∧ ∃ rest, s.agenda = .assertReset :: rest) → UnitInv t

/-- 10_state.md R25: an ERR bit is cleared only by a host write of 1 to it while the engine is idle, or by reset. -/
def Obligations.ErrBitsAreSticky : Prop :=
  ∀ (s t : State) (n : Nat), step s = .next t → s.err.getLsbD n = true → t.err.getLsbD n = false →
    (∃ rest, s.agenda = .assertReset :: rest) ∨
    (s.busy = false ∧ ∃ rest v, s.agenda = .host (.write .w32 (s.params.base + 0x00C) v) :: rest ∧
      v.getLsbD n = true)

/-- 10_state.md R34: "PRNG_SEED sets it to 1. Nothing but reset sets it to 0": who changes SEEDED. -/
def Obligations.SeededChangesOnly : Prop :=
  ∀ s t : State, step s = .next t → t.seeded ≠ s.seeded →
    (∃ rest, s.agenda = .assertReset :: rest) ∨
    (s.busy = true ∧ decodeWord s.lastCmd = .command .prngSeed ∧ t.seeded = true)

/-- 10_state.md R32, R33: only the three PRNG commands (and reset) write the PRNG words, only PRNG_SEED the seed. -/
def Obligations.PrngWordsChangeOnly : Prop :=
  ∀ s t : State, step s = .next t → ¬ (∃ rest, s.agenda = .assertReset :: rest) →
    (t.prng ≠ s.prng → s.busy = true ∧
      ∃ i ∈ [Instr.prngSeed, .prngNext, .prngNextDecrypt], decodeWord s.lastCmd = .command i) ∧
    (t.prngSeed ≠ s.prngSeed → s.busy = true ∧ decodeWord s.lastCmd = .command .prngSeed)

/-- 10_state.md R48, R49: only UCN_HEADER writes the UnityCN tables; reset leaves them without values.
That they hold no value after it is the model's: notes/assumptions/5.md. -/
def Obligations.TablesChangeOnly : Prop :=
  ∀ (s t : State) (o : Nat), step s = .next t → isTableOffset o → t.ram.read o ≠ s.ram.read o →
    (∃ rest, s.agenda = .assertReset :: rest) ∨ (s.busy = true ∧ decodeWord s.lastCmd = .command .ucnHeader)

/-- 00_scope.md R6 to R11: no step changes a parameter. -/
def Obligations.ParametersAreFixed : Prop :=
  ∀ s t : State, step s = .next t → t.params = s.params

/-- 40_command_engine.md R114, R116: whatever accesses the host makes while a command runs, the operands, the profile, the
context, LAST_CMD and BUF stay what they were and the command ends with the same registers and bytes; only ERR
(BUSY_ACCESS) and the replies tell of them. -/
def Obligations.RunningCommandUnaffectedByHost : Prop :=
  ∀ (i : Instr) (s : State) (accesses : List Access), s.busy = true →
    let s' := accesses.foldl portAccess s
    s' = { s with err := s'.err, replies := s'.replies } ∧
    (s'.err = s.err ∨ s'.err = s.err ||| 1#9 <<< 8) ∧
    (∀ t, exec i s = .next t → exec i s' = .next { t with err := t.err ||| s'.err, replies := s'.replies }) ∧
    (∀ f, exec i s = .fault f → exec i s' = .fault f)
end

