-- ==== Sys2Proof/Laws/State.lean ====
section
/-! SUPPORT. One lemma per field per named update of the state, true by rfl, so that no later proof unfolds a record
update. -/

namespace Sys2Proof.Machine

variable (s : State)

/-! ### raiseErr -/

@[simp] theorem raiseErr_params (c : Cause) : (raiseErr c s).params = s.params := rfl
@[simp] theorem raiseErr_ctrl (c : Cause) : (raiseErr c s).ctrl = s.ctrl := rfl
@[simp] theorem raiseErr_busy (c : Cause) : (raiseErr c s).busy = s.busy := rfl
@[simp] theorem raiseErr_done (c : Cause) : (raiseErr c s).done = s.done := rfl
@[simp] theorem raiseErr_seeded (c : Cause) : (raiseErr c s).seeded = s.seeded := rfl
@[simp] theorem raiseErr_tablesValid (c : Cause) : (raiseErr c s).tablesValid = s.tablesValid := rfl
@[simp] theorem raiseErr_err (c : Cause) : (raiseErr c s).err = errWith s.err c := rfl
@[simp] theorem raiseErr_lastCmd (c : Cause) : (raiseErr c s).lastCmd = s.lastCmd := rfl
@[simp] theorem raiseErr_opAddr (c : Cause) : (raiseErr c s).opAddr = s.opAddr := rfl
@[simp] theorem raiseErr_opLen (c : Cause) : (raiseErr c s).opLen = s.opLen := rfl
@[simp] theorem raiseErr_opVal (c : Cause) : (raiseErr c s).opVal = s.opVal := rfl
@[simp] theorem raiseErr_result0 (c : Cause) : (raiseErr c s).result0 = s.result0 := rfl
@[simp] theorem raiseErr_result1 (c : Cause) : (raiseErr c s).result1 = s.result1 := rfl
@[simp] theorem raiseErr_prng (c : Cause) : (raiseErr c s).prng = s.prng := rfl
@[simp] theorem raiseErr_prngSeed (c : Cause) : (raiseErr c s).prngSeed = s.prngSeed := rfl
@[simp] theorem raiseErr_profile (c : Cause) : (raiseErr c s).profile = s.profile := rfl
@[simp] theorem raiseErr_ucnIndex (c : Cause) : (raiseErr c s).ucnIndex = s.ucnIndex := rfl
@[simp] theorem raiseErr_ram (c : Cause) : (raiseErr c s).ram = s.ram := rfl
@[simp] theorem raiseErr_inReset (c : Cause) : (raiseErr c s).inReset = s.inReset := rfl
@[simp] theorem raiseErr_resets (c : Cause) : (raiseErr c s).resets = s.resets := rfl
@[simp] theorem raiseErr_agenda (c : Cause) : (raiseErr c s).agenda = s.agenda := rfl
@[simp] theorem raiseErr_replies (c : Cause) : (raiseErr c s).replies = s.replies := rfl

/-! ### finish -/

@[simp] theorem finish_params : (finish s).params = s.params := rfl
@[simp] theorem finish_ctrl : (finish s).ctrl = s.ctrl := rfl
@[simp] theorem finish_busy : (finish s).busy = false := rfl
@[simp] theorem finish_done : (finish s).done = true := rfl
@[simp] theorem finish_seeded : (finish s).seeded = s.seeded := rfl
@[simp] theorem finish_tablesValid : (finish s).tablesValid = s.tablesValid := rfl
@[simp] theorem finish_err : (finish s).err = s.err := rfl
@[simp] theorem finish_lastCmd : (finish s).lastCmd = s.lastCmd := rfl
@[simp] theorem finish_opAddr : (finish s).opAddr = s.opAddr := rfl
@[simp] theorem finish_opLen : (finish s).opLen = s.opLen := rfl
@[simp] theorem finish_opVal : (finish s).opVal = s.opVal := rfl
@[simp] theorem finish_result0 : (finish s).result0 = s.result0 := rfl
@[simp] theorem finish_result1 : (finish s).result1 = s.result1 := rfl
@[simp] theorem finish_prng : (finish s).prng = s.prng := rfl
@[simp] theorem finish_prngSeed : (finish s).prngSeed = s.prngSeed := rfl
@[simp] theorem finish_profile : (finish s).profile = s.profile := rfl
@[simp] theorem finish_ucnIndex : (finish s).ucnIndex = s.ucnIndex := rfl
@[simp] theorem finish_ram : (finish s).ram = s.ram := rfl
@[simp] theorem finish_inReset : (finish s).inReset = s.inReset := rfl
@[simp] theorem finish_resets : (finish s).resets = s.resets := rfl
@[simp] theorem finish_agenda : (finish s).agenda = s.agenda := rfl
@[simp] theorem finish_replies : (finish s).replies = s.replies := rfl

/-! ### issue -/

@[simp] theorem issue_params (v : Word) : (issue v s).params = s.params := rfl
@[simp] theorem issue_ctrl (v : Word) : (issue v s).ctrl = s.ctrl := rfl
@[simp] theorem issue_busy (v : Word) : (issue v s).busy = true := rfl
@[simp] theorem issue_done (v : Word) : (issue v s).done = false := rfl
@[simp] theorem issue_seeded (v : Word) : (issue v s).seeded = s.seeded := rfl
@[simp] theorem issue_tablesValid (v : Word) : (issue v s).tablesValid = s.tablesValid := rfl
@[simp] theorem issue_err (v : Word) : (issue v s).err = s.err := rfl
@[simp] theorem issue_lastCmd (v : Word) : (issue v s).lastCmd = v := rfl
@[simp] theorem issue_opAddr (v : Word) : (issue v s).opAddr = s.opAddr := rfl
@[simp] theorem issue_opLen (v : Word) : (issue v s).opLen = s.opLen := rfl
@[simp] theorem issue_opVal (v : Word) : (issue v s).opVal = s.opVal := rfl
@[simp] theorem issue_result0 (v : Word) : (issue v s).result0 = s.result0 := rfl
@[simp] theorem issue_result1 (v : Word) : (issue v s).result1 = s.result1 := rfl
@[simp] theorem issue_prng (v : Word) : (issue v s).prng = s.prng := rfl
@[simp] theorem issue_prngSeed (v : Word) : (issue v s).prngSeed = s.prngSeed := rfl
@[simp] theorem issue_profile (v : Word) : (issue v s).profile = s.profile := rfl
@[simp] theorem issue_ucnIndex (v : Word) : (issue v s).ucnIndex = s.ucnIndex := rfl
@[simp] theorem issue_ram (v : Word) : (issue v s).ram = s.ram := rfl
@[simp] theorem issue_inReset (v : Word) : (issue v s).inReset = s.inReset := rfl
@[simp] theorem issue_resets (v : Word) : (issue v s).resets = s.resets := rfl
@[simp] theorem issue_agenda (v : Word) : (issue v s).agenda = s.agenda := rfl
@[simp] theorem issue_replies (v : Word) : (issue v s).replies = s.replies := rfl

/-! ### reply -/

@[simp] theorem reply_params (r : Reply) : (reply r s).params = s.params := rfl
@[simp] theorem reply_ctrl (r : Reply) : (reply r s).ctrl = s.ctrl := rfl
@[simp] theorem reply_busy (r : Reply) : (reply r s).busy = s.busy := rfl
@[simp] theorem reply_done (r : Reply) : (reply r s).done = s.done := rfl
@[simp] theorem reply_seeded (r : Reply) : (reply r s).seeded = s.seeded := rfl
@[simp] theorem reply_tablesValid (r : Reply) : (reply r s).tablesValid = s.tablesValid := rfl
@[simp] theorem reply_err (r : Reply) : (reply r s).err = s.err := rfl
@[simp] theorem reply_lastCmd (r : Reply) : (reply r s).lastCmd = s.lastCmd := rfl
@[simp] theorem reply_opAddr (r : Reply) : (reply r s).opAddr = s.opAddr := rfl
@[simp] theorem reply_opLen (r : Reply) : (reply r s).opLen = s.opLen := rfl
@[simp] theorem reply_opVal (r : Reply) : (reply r s).opVal = s.opVal := rfl
@[simp] theorem reply_result0 (r : Reply) : (reply r s).result0 = s.result0 := rfl
@[simp] theorem reply_result1 (r : Reply) : (reply r s).result1 = s.result1 := rfl
@[simp] theorem reply_prng (r : Reply) : (reply r s).prng = s.prng := rfl
@[simp] theorem reply_prngSeed (r : Reply) : (reply r s).prngSeed = s.prngSeed := rfl
@[simp] theorem reply_profile (r : Reply) : (reply r s).profile = s.profile := rfl
@[simp] theorem reply_ucnIndex (r : Reply) : (reply r s).ucnIndex = s.ucnIndex := rfl
@[simp] theorem reply_ram (r : Reply) : (reply r s).ram = s.ram := rfl
@[simp] theorem reply_inReset (r : Reply) : (reply r s).inReset = s.inReset := rfl
@[simp] theorem reply_resets (r : Reply) : (reply r s).resets = s.resets := rfl
@[simp] theorem reply_agenda (r : Reply) : (reply r s).agenda = s.agenda := rfl
@[simp] theorem reply_replies (r : Reply) : (reply r s).replies = r :: s.replies := rfl

/-! ### storeWalk -/

@[simp] theorem storeWalk_params (w : Walk) : (storeWalk s w).params = s.params := rfl
@[simp] theorem storeWalk_ctrl (w : Walk) : (storeWalk s w).ctrl = s.ctrl := rfl
@[simp] theorem storeWalk_busy (w : Walk) : (storeWalk s w).busy = s.busy := rfl
@[simp] theorem storeWalk_done (w : Walk) : (storeWalk s w).done = s.done := rfl
@[simp] theorem storeWalk_seeded (w : Walk) : (storeWalk s w).seeded = s.seeded := rfl
@[simp] theorem storeWalk_tablesValid (w : Walk) : (storeWalk s w).tablesValid = s.tablesValid := rfl
@[simp] theorem storeWalk_err (w : Walk) : (storeWalk s w).err = s.err := rfl
@[simp] theorem storeWalk_lastCmd (w : Walk) : (storeWalk s w).lastCmd = s.lastCmd := rfl
@[simp] theorem storeWalk_opAddr (w : Walk) : (storeWalk s w).opAddr = s.opAddr := rfl
@[simp] theorem storeWalk_opLen (w : Walk) : (storeWalk s w).opLen = s.opLen := rfl
@[simp] theorem storeWalk_opVal (w : Walk) : (storeWalk s w).opVal = s.opVal := rfl
@[simp] theorem storeWalk_result0 (w : Walk) : (storeWalk s w).result0 = BitVec.ofNat 32 w.off := rfl
@[simp] theorem storeWalk_result1 (w : Walk) : (storeWalk s w).result1 = BitVec.ofNat 32 w.tokens := rfl
@[simp] theorem storeWalk_prng (w : Walk) : (storeWalk s w).prng = s.prng := rfl
@[simp] theorem storeWalk_prngSeed (w : Walk) : (storeWalk s w).prngSeed = s.prngSeed := rfl
@[simp] theorem storeWalk_profile (w : Walk) : (storeWalk s w).profile = s.profile := rfl
@[simp] theorem storeWalk_ucnIndex (w : Walk) : (storeWalk s w).ucnIndex = w.idx := rfl
@[simp] theorem storeWalk_ram (w : Walk) : (storeWalk s w).ram = w.ram := rfl
@[simp] theorem storeWalk_inReset (w : Walk) : (storeWalk s w).inReset = s.inReset := rfl
@[simp] theorem storeWalk_resets (w : Walk) : (storeWalk s w).resets = s.resets := rfl
@[simp] theorem storeWalk_agenda (w : Walk) : (storeWalk s w).agenda = s.agenda := rfl
@[simp] theorem storeWalk_replies (w : Walk) : (storeWalk s w).replies = s.replies := rfl

/-! ### releaseReset -/

@[simp] theorem releaseReset_params : (releaseReset s).params = s.params := rfl
@[simp] theorem releaseReset_ctrl : (releaseReset s).ctrl = s.ctrl := rfl
@[simp] theorem releaseReset_busy : (releaseReset s).busy = s.busy := rfl
@[simp] theorem releaseReset_done : (releaseReset s).done = s.done := rfl
@[simp] theorem releaseReset_seeded : (releaseReset s).seeded = s.seeded := rfl
@[simp] theorem releaseReset_tablesValid : (releaseReset s).tablesValid = s.tablesValid := rfl
@[simp] theorem releaseReset_err : (releaseReset s).err = s.err := rfl
@[simp] theorem releaseReset_lastCmd : (releaseReset s).lastCmd = s.lastCmd := rfl
@[simp] theorem releaseReset_opAddr : (releaseReset s).opAddr = s.opAddr := rfl
@[simp] theorem releaseReset_opLen : (releaseReset s).opLen = s.opLen := rfl
@[simp] theorem releaseReset_opVal : (releaseReset s).opVal = s.opVal := rfl
@[simp] theorem releaseReset_result0 : (releaseReset s).result0 = s.result0 := rfl
@[simp] theorem releaseReset_result1 : (releaseReset s).result1 = s.result1 := rfl
@[simp] theorem releaseReset_prng : (releaseReset s).prng = s.prng := rfl
@[simp] theorem releaseReset_prngSeed : (releaseReset s).prngSeed = s.prngSeed := rfl
@[simp] theorem releaseReset_profile : (releaseReset s).profile = s.profile := rfl
@[simp] theorem releaseReset_ucnIndex : (releaseReset s).ucnIndex = s.ucnIndex := rfl
@[simp] theorem releaseReset_ram : (releaseReset s).ram = s.ram := rfl
@[simp] theorem releaseReset_inReset : (releaseReset s).inReset = false := rfl
@[simp] theorem releaseReset_resets : (releaseReset s).resets = s.resets := rfl
@[simp] theorem releaseReset_agenda : (releaseReset s).agenda = s.agenda := rfl
@[simp] theorem releaseReset_replies : (releaseReset s).replies = s.replies := rfl

/-! ### resetRegisters -/

@[simp] theorem resetRegisters_params : (resetRegisters s).params = s.params := rfl
@[simp] theorem resetRegisters_ctrl : (resetRegisters s).ctrl = { akeyEn := false, doneIe := false, errIe := false } := rfl
@[simp] theorem resetRegisters_busy : (resetRegisters s).busy = false := rfl
@[simp] theorem resetRegisters_done : (resetRegisters s).done = false := rfl
@[simp] theorem resetRegisters_seeded : (resetRegisters s).seeded = false := rfl
@[simp] theorem resetRegisters_tablesValid : (resetRegisters s).tablesValid = false := rfl
@[simp] theorem resetRegisters_err : (resetRegisters s).err = 0#9 := rfl
@[simp] theorem resetRegisters_lastCmd : (resetRegisters s).lastCmd = 0#32 := rfl
@[simp] theorem resetRegisters_opAddr : (resetRegisters s).opAddr = 0#32 := rfl
@[simp] theorem resetRegisters_opLen : (resetRegisters s).opLen = 0#32 := rfl
@[simp] theorem resetRegisters_opVal : (resetRegisters s).opVal = 0#32 := rfl
@[simp] theorem resetRegisters_result0 : (resetRegisters s).result0 = 0#32 := rfl
@[simp] theorem resetRegisters_result1 : (resetRegisters s).result1 = 0#32 := rfl
@[simp] theorem resetRegisters_prng : (resetRegisters s).prng = { x := 0#32, y := 0#32, z := 0#32, w := 0#32 } := rfl
@[simp] theorem resetRegisters_prngSeed : (resetRegisters s).prngSeed = 0#32 := rfl
@[simp] theorem resetRegisters_profile : (resetRegisters s).profile = { ivLen := 0#5, sboxEn := false, ekLen := 0#8, pkLen := 0#5, bkLen := 0#5 } := rfl
@[simp] theorem resetRegisters_ucnIndex : (resetRegisters s).ucnIndex = 0#32 := rfl
@[simp] theorem resetRegisters_ram : (resetRegisters s).ram = [] := rfl
@[simp] theorem resetRegisters_inReset : (resetRegisters s).inReset = true := rfl
@[simp] theorem resetRegisters_resets : (resetRegisters s).resets = s.resets + 1 := rfl
@[simp] theorem resetRegisters_agenda : (resetRegisters s).agenda = s.agenda := rfl
@[simp] theorem resetRegisters_replies : (resetRegisters s).replies = s.replies := rfl

end Sys2Proof.Machine
end

