-- ==== Sys2Proof/Laws/Complete.lean ====
section
/-! SUPPORT. Completion and reading: what `complete` and `Op.withRead` can end in (spec/40_command_engine.md R113). -/

namespace Sys2Proof.Machine

theorem complete_next_iff {o : Op} {t : State} :
    complete o = .next t ↔ (∃ u, o = .done u ∧ t = finish u) ∨ (∃ c u, o = .raise c u ∧ t = finish (raiseErr c u)) := by
  cases o <;> simp [complete, eq_comm]

theorem complete_fault_iff {o : Op} {f : Fault} : complete o = .fault f ↔ o = .fault f := by
  cases o <;> simp [complete]

theorem complete_not_refused {o : Op} {r : Refusal} : complete o ≠ .refused r := by
  cases o <;> simp [complete]

/-- A property of how an operation ends. -/
def Op.Holds (fin : State → Prop) (rai : Cause → State → Prop) (flt : Fault → Prop) (o : Op) : Prop :=
  match o with
  | .done u => fin u
  | .raise c u => rai c u
  | .fault f => flt f

variable {fin : State → Prop} {rai : Cause → State → Prop} {flt : Fault → Prop}

/-- An operation that reads and goes on has a property when the fault has it and what goes on has it. -/
theorem Op.Holds.withRead {α : Type} {r : Except Fault α} {k : α → Op} (hf : ∀ f, r = .error f → flt f)
    (hk : ∀ a, r = .ok a → (k a).Holds fin rai flt) : (Op.withRead r k).Holds fin rai flt := by
  cases r with
  | ok a => exact hk a rfl
  | error f => exact hf f rfl

@[simp] theorem Op.withRead_ok {α : Type} (a : α) (k : α → Op) : Op.withRead (.ok a) k = k a := rfl
@[simp] theorem Op.withRead_error {α : Type} (f : Fault) (k : α → Op) : Op.withRead (.error f) k = .fault f := rfl

end Sys2Proof.Machine
end

