-- ==== Sys2Proof/Laws/Memory.lean ====
section
/-! SUPPORT. The memory: read after write, the canonical form, and what each byte-string operation does, said once. -/

namespace Sys2Proof.Machine

/-! ### One byte -/

theorem Memory.read_write (m : Memory) (o x : Nat) (v : Byte) :
    (m.write o v).read x = if x = o then some v else m.read x := by
  induction m with
  | nil => simp only [Memory.write, Memory.read, eq_comm (a := o)]
  | cons c rest ih =>
    obtain ⟨k, b⟩ := c
    simp only [Memory.write]
    split
    · simp only [Memory.read, eq_comm (a := o)]
    · split
      · rename_i h; subst h
        simp only [Memory.read, eq_comm (a := o)]
        by_cases hx : x = o <;> simp [hx]
      · simp only [Memory.read, ih]
        by_cases hx : x = o <;> simp [hx]
        omega

@[simp] theorem Memory.read_write_self (m : Memory) (o : Nat) (v : Byte) : (m.write o v).read o = some v := by
  simp [Memory.read_write]

theorem Memory.read_write_other (m : Memory) {o x : Nat} (v : Byte) (h : x ≠ o) :
    (m.write o v).read x = m.read x := by
  simp [Memory.read_write, h]

theorem Memory.mem_write {m : Memory} {o : Nat} {v : Byte} {c : Host.Cell} (h : c ∈ m.write o v) :
    c = (o, v) ∨ c ∈ m := by
  induction m with
  | nil => simpa [Memory.write] using h
  | cons d rest ih =>
    obtain ⟨k, b⟩ := d
    simp only [Memory.write] at h
    split at h
    · simpa using h
    · split at h
      · rcases List.mem_cons.mp h with h | h
        · exact .inl h
        · exact .inr (List.mem_cons_of_mem _ h)
      · rcases List.mem_cons.mp h with h | h
        · exact .inr (h ▸ List.mem_cons_self)
        · rcases ih h with h | h
          · exact .inl h
          · exact .inr (List.mem_cons_of_mem _ h)

/-- Every write keeps the canonical form. -/
theorem Memory.wf_write {m : Memory} (o : Nat) (v : Byte) (h : m.wf) : (m.write o v).wf := by
  induction m with
  | nil => simp [Memory.write, Memory.wf]
  | cons d rest ih =>
    obtain ⟨k, b⟩ := d
    have hp := List.pairwise_cons.mp h
    simp only [Memory.write]
    split
    · rename_i hlt
      refine List.pairwise_cons.mpr ⟨?_, h⟩
      intro c hc
      rcases List.mem_cons.mp hc with hc | hc
      · simpa [hc] using hlt
      · have := hp.1 c hc; simp only at this ⊢; omega
    · split
      · rename_i heq
        exact List.pairwise_cons.mpr ⟨fun c hc => by simpa [heq] using hp.1 c hc, hp.2⟩
      · refine List.pairwise_cons.mpr ⟨?_, ih hp.2⟩
        intro c hc
        rcases Memory.mem_write hc with hc | hc
        · subst hc; simp only; omega
        · exact hp.1 c hc

/-- In a canonical memory a listed byte is what its offset reads as. -/
theorem Memory.read_of_mem {m : Memory} {c : Host.Cell} (h : m.wf) (hc : c ∈ m) : m.read c.1 = some c.2 := by
  induction m with
  | nil => simp at hc
  | cons d rest ih =>
    obtain ⟨k, b⟩ := d
    have hp := List.pairwise_cons.mp h
    rcases List.mem_cons.mp hc with hc | hc
    · simp [hc, Memory.read]
    · have := hp.1 c hc
      simp only at this
      simp only [Memory.read]
      rw [if_neg (by omega)]
      exact ih hp.2 hc

theorem Memory.mem_of_read {m : Memory} {o : Nat} {v : Byte} (h : m.read o = some v) : (o, v) ∈ m := by
  induction m with
  | nil => simp [Memory.read] at h
  | cons d rest ih =>
    obtain ⟨k, b⟩ := d
    simp only [Memory.read] at h
    split at h
    · simp_all
    · exact List.mem_cons_of_mem _ (ih h)

/-! ### What a sequence of writes can do -/

/-- `m'` is reached from `m` by byte writes, each at an offset and of a value that satisfy `P`. -/
inductive Memory.Writes (P : Nat → Byte → Prop) (m : Memory) : Memory → Prop where
  | refl : Memory.Writes P m m
  | write {m' : Memory} {o : Nat} {v : Byte} (h : Memory.Writes P m m') (hp : P o v) :
      Memory.Writes P m (m'.write o v)

variable {P Q : Nat → Byte → Prop} {m m' m'' : Memory}

theorem Memory.Writes.one {o : Nat} {v : Byte} (hp : P o v) : Memory.Writes P m (m.write o v) :=
  .write .refl hp

theorem Memory.Writes.trans (h : Memory.Writes P m m') (h' : Memory.Writes P m' m'') : Memory.Writes P m m'' := by
  induction h' with
  | refl => exact h
  | write _ hp ih => exact .write ih hp

theorem Memory.Writes.mono (hpq : ∀ o v, P o v → Q o v) (h : Memory.Writes P m m') : Memory.Writes Q m m' := by
  induction h with
  | refl => exact .refl
  | write _ hp ih => exact .write ih (hpq _ _ hp)

theorem Memory.Writes.wf (h : Memory.Writes P m m') (hm : m.wf) : m'.wf := by
  induction h with
  | refl => exact hm
  | write _ _ ih => exact Memory.wf_write _ _ ih

/-- The frame: an offset no write may reach reads as before. -/
theorem Memory.Writes.frame (h : Memory.Writes P m m') {x : Nat} (hx : ∀ v, ¬ P x v) : m'.read x = m.read x := by
  induction h with
  | refl => rfl
  | @write m' o v _ hp ih =>
    rw [Memory.read_write_other _ _ (fun hxo => hx v (by rw [hxo]; exact hp)), ih]

/-- No write takes a value away. -/
theorem Memory.Writes.keeps_written (h : Memory.Writes P m m') {x : Nat} (hx : (m.read x).isSome) :
    (m'.read x).isSome := by
  induction h with
  | refl => exact hx
  | write _ _ ih => rw [Memory.read_write]; split <;> simp_all

theorem Memory.Writes.unwritten (h : Memory.Writes P m m') {x : Nat} (hx : m'.read x = none) : m.read x = none := by
  cases hm : m.read x with
  | none => rfl
  | some v => simpa [hx] using h.keeps_written (x := x) (by simp [hm])

/-- What reads as a value afterwards read so before, or was written. -/
theorem Memory.Writes.read_cases (h : Memory.Writes P m m') {x : Nat} {v : Byte} (hx : m'.read x = some v) :
    m.read x = some v ∨ P x v := by
  induction h with
  | refl => exact .inl hx
  | write _ hp ih =>
    rw [Memory.read_write] at hx
    split at hx
    · simp_all
    · exact ih hx

theorem Memory.Writes.mem_cases (h : Memory.Writes P m m') {c : Host.Cell} (hc : c ∈ m') : c ∈ m ∨ P c.1 c.2 := by
  induction h with
  | refl => exact .inl hc
  | write _ hp ih =>
    rcases Memory.mem_write hc with hc | hc
    · subst hc; exact .inr hp
    · exact ih hc

/-! ### Byte strings -/

@[simp] theorem readByte_ok_iff {m : Memory} {o : Nat} {b : Byte} : readByte m o = .ok b ↔ m.read o = some b := by
  unfold readByte; cases m.read o <;> simp

@[simp] theorem readByte_error_iff {m : Memory} {o : Nat} {f : Fault} :
    readByte m o = .error f ↔ m.read o = none ∧ f = .unwrittenByte o := by
  unfold readByte; cases m.read o <;> simp [eq_comm]

theorem byteOf_cons_zero (b : Byte) (s : List Byte) : byteOf (b :: s) 0 = b := rfl
theorem byteOf_cons_succ (b : Byte) (s : List Byte) (i : Nat) : byteOf (b :: s) (i + 1) = byteOf s i := rfl

theorem readBytes_ok_iff {m : Memory} {o n : Nat} {l : List Byte} :
    readBytes m o n = .ok l ↔ l.length = n ∧ ∀ i < n, m.read (o + i) = some (byteOf l i) := by
  induction n generalizing o l with
  | zero => cases l <;> simp [readBytes]
  | succ n ih =>
    simp only [readBytes]
    constructor
    · intro h
      split at h
      · exact absurd h (by simp)
      · rename_i b hb
        split at h
        · exact absurd h (by simp)
        · rename_i bs hbs
          obtain ⟨hl, hr⟩ := ih.mp hbs
          simp only [Except.ok.injEq] at h
          subst h
          refine ⟨by simp [hl], fun i hi => ?_⟩
          cases i with
          | zero => simpa [byteOf_cons_zero] using hb
          | succ i =>
            rw [byteOf_cons_succ, ← hr i (by omega)]
            congr 1; omega
    · rintro ⟨hl, hr⟩
      cases l with
      | nil => simp at hl
      | cons b bs =>
        have h0 := hr 0 (by omega)
        rw [Nat.add_zero, byteOf_cons_zero] at h0
        have hbs : readBytes m (o + 1) n = .ok bs := by
          refine ih.mpr ⟨by simpa using hl, fun i hi => ?_⟩
          have := hr (i + 1) (by omega)
          rw [byteOf_cons_succ] at this
          rw [← this]; congr 1; omega
        simp [readByte_ok_iff.mpr h0, hbs]

theorem readBytes_error {m : Memory} {o n : Nat} {f : Fault} (h : readBytes m o n = .error f) :
    ∃ i < n, m.read (o + i) = none ∧ f = .unwrittenByte (o + i) := by
  induction n generalizing o with
  | zero => simp [readBytes] at h
  | succ n ih =>
    simp only [readBytes] at h
    split at h
    · rename_i e he
      simp only [Except.error.injEq] at h
      subst h
      have := readByte_error_iff.mp he
      exact ⟨0, by omega, by simpa using this.1, by simpa using this.2⟩
    · split at h
      · rename_i e he
        simp only [Except.error.injEq] at h
        subst h
        obtain ⟨i, hi, hr, hf⟩ := ih he
        refine ⟨i + 1, by omega, ?_, ?_⟩
        · rw [← hr]; congr 1; omega
        · rw [hf]; congr 1; omega
      · exact absurd h (by simp)

/-- Written bytes can be read. -/
theorem readBytes_written {m : Memory} {o n : Nat} (h : ∀ i < n, (m.read (o + i)).isSome) :
    ∃ l, readBytes m o n = .ok l ∧ l.length = n := by
  cases hr : readBytes m o n with
  | ok l => exact ⟨l, rfl, (readBytes_ok_iff.mp hr).1⟩
  | error f =>
    obtain ⟨i, hi, hn, _⟩ := readBytes_error hr
    simpa [hn] using h i hi

theorem writeBytes_read (m : Memory) (o x : Nat) (l : List Byte) :
    (writeBytes m o l).read x = if o ≤ x ∧ x < o + l.length then some (byteOf l (x - o)) else m.read x := by
  induction l generalizing m o with
  | nil => rw [if_neg (by simp)]; rfl
  | cons b bs ih =>
    simp only [writeBytes, ih, Memory.read_write, List.length_cons]
    by_cases h1 : x = o
    · subst h1; simp [byteOf_cons_zero]
    · by_cases h2 : o + 1 ≤ x ∧ x < o + 1 + bs.length
      · have h3 : o ≤ x ∧ x < o + (bs.length + 1) := by omega
        have h4 : x - o = (x - (o + 1)) + 1 := by omega
        simp [h2, h3, h4, byteOf_cons_succ]
      · have h3 : ¬ (o ≤ x ∧ x < o + (bs.length + 1)) := by omega
        rw [if_neg h2, if_neg h1, if_neg h3]

theorem writeBytes_writes {m : Memory} {o : Nat} {l : List Byte}
    (h : ∀ i < l.length, P (o + i) (byteOf l i)) : Memory.Writes P m (writeBytes m o l) := by
  induction l generalizing m o with
  | nil => exact .refl
  | cons b bs ih =>
    refine Memory.Writes.trans (Memory.Writes.one (by simpa [byteOf_cons_zero] using h 0 (by simp))) (ih fun i hi => ?_)
    have := h (i + 1) (by simpa using hi)
    rw [byteOf_cons_succ] at this
    rwa [Nat.add_assoc, Nat.add_comm 1 i]

/-- What `xorRegion` leaves when it ends: the region's bytes masked, every other byte as before. -/
theorem xorRegion_ok {mask : Nat → Except Fault Byte} {o i n : Nat} {m m' : Memory}
    (h : xorRegion mask o i n m = .ok m') :
    (∀ x, ¬ (o + i ≤ x ∧ x < o + i + n) → m'.read x = m.read x) ∧
    (∀ j, i ≤ j → j < i + n → ∃ b k, m.read (o + j) = some b ∧ mask j = .ok k ∧ m'.read (o + j) = some (b ^^^ k)) ∧
    Memory.Writes (fun x _ => o + i ≤ x ∧ x < o + i + n) m m' := by
  induction n generalizing i m with
  | zero =>
    simp only [xorRegion, Except.ok.injEq] at h
    subst h
    exact ⟨fun _ _ => rfl, fun j h1 h2 => by omega, .refl⟩
  | succ n ih =>
    simp only [xorRegion] at h
    split at h
    · exact absurd h (by simp)
    · rename_i b hb
      have hb := readByte_ok_iff.mp hb
      split at h
      · exact absurd h (by simp)
      · rename_i k hk
        obtain ⟨hf, hr, hw⟩ := ih h
        refine ⟨fun x hx => ?_, fun j h1 h2 => ?_, ?_⟩
        · rw [hf x (by omega), Memory.read_write_other _ _ (by omega)]
        · by_cases hj : j = i
          · subst hj
            exact ⟨b, k, hb, hk, by rw [hf _ (by omega), Memory.read_write_self]⟩
          · obtain ⟨b', k', h3, h4, h5⟩ := hr j (by omega) (by omega)
            exact ⟨b', k', by rwa [Memory.read_write_other _ _ (by omega)] at h3, h4, h5⟩
        · refine Memory.Writes.trans (Memory.Writes.one (by omega)) (hw.mono fun x _ hx => by omega)

/-- `xorRegion` ends whenever the region is written and every mask byte can be read. -/
theorem xorRegion_total {mask : Nat → Except Fault Byte} {o i n : Nat} {m : Memory}
    (hm : ∀ j, i ≤ j → j < i + n → (m.read (o + j)).isSome) (hk : ∀ j, i ≤ j → j < i + n → ∃ k, mask j = .ok k) :
    ∃ m', xorRegion mask o i n m = .ok m' := by
  induction n generalizing i m with
  | zero => exact ⟨m, rfl⟩
  | succ n ih =>
    obtain ⟨b, hb⟩ := Option.isSome_iff_exists.mp (hm i (by omega) (by omega))
    obtain ⟨k, hk'⟩ := hk i (by omega) (by omega)
    simp only [xorRegion, readByte_ok_iff.mpr hb, hk']
    refine ih (fun j h1 h2 => ?_) (fun j h1 h2 => hk j (by omega) (by omega))
    rw [Memory.read_write_other _ _ (by omega)]
    exact hm j (by omega) (by omega)

/-- `xorRegion` faults only on an unwritten byte of the region, or where its mask does. -/
theorem xorRegion_error {mask : Nat → Except Fault Byte} {o i n : Nat} {m : Memory} {f : Fault}
    (h : xorRegion mask o i n m = .error f) :
    ∃ j, i ≤ j ∧ j < i + n ∧ ((m.read (o + j) = none ∧ f = .unwrittenByte (o + j)) ∨ mask j = .error f) := by
  induction n generalizing i m with
  | zero => simp [xorRegion] at h
  | succ n ih =>
    simp only [xorRegion] at h
    split at h
    · rename_i e he
      simp only [Except.error.injEq] at h
      subst h
      exact ⟨i, by omega, by omega, .inl (readByte_error_iff.mp he)⟩
    · split at h
      · rename_i e he
        simp only [Except.error.injEq] at h
        subst h
        exact ⟨i, by omega, by omega, .inr he⟩
      · obtain ⟨j, h1, h2, h3⟩ := ih h
        refine ⟨j, by omega, by omega, ?_⟩
        rwa [Memory.read_write_other _ _ (by omega)] at h3

end Sys2Proof.Machine
end

