-- ==== Sys2Proof/Laws/Prng.lean ====
section
/-! SUPPORT. The PRNG unit: the output loop of PRNG_NEXT_DECRYPT, said once (spec/41_prng.md R136). -/

namespace Sys2Proof.Machine

theorem decryptFill_spec (kb : List Byte) (o n : Nat) (p : Prng) (m : Memory) :
    (decryptFill kb o n p m).1 = prngStep^[n] p ∧
    (∀ x, (decryptFill kb o n p m).2.read x =
      if o ≤ x ∧ x < o + n then some (byteOf kb ((prngOut (prngStep^[x - o] p)).toNat % 8)) else m.read x) ∧
    Memory.Writes (fun x _ => o ≤ x ∧ x < o + n) m (decryptFill kb o n p m).2 := by
  induction n generalizing o p m with
  | zero => exact ⟨rfl, fun x => by rw [if_neg (by omega)]; rfl, .refl⟩
  | succ n ih =>
    simp only [decryptFill]
    obtain ⟨h1, h2, h3⟩ := ih (o + 1) (prngStep p) (m.write o (byteOf kb ((prngOut p).toNat % 8)))
    refine ⟨by rw [h1, Function.iterate_succ_apply], fun x => ?_, ?_⟩
    · rw [h2, Memory.read_write]
      by_cases hx : x = o
      · subst hx
        rw [if_neg (by omega), if_pos rfl, if_pos (by omega), Nat.sub_self]
        rfl
      · by_cases hr : o + 1 ≤ x ∧ x < o + 1 + n
        · have h4 : x - o = (x - (o + 1)) + 1 := by omega
          rw [if_pos hr, if_pos (by omega), h4, Function.iterate_succ_apply]
        · rw [if_neg hr, if_neg hx, if_neg (by omega)]
    · exact (Memory.Writes.one (by omega)).trans (h3.mono fun x _ hx => by omega)

/-- Each output is XOR of its parts; the all-zero state steps to itself (R137). -/
theorem prngStep_zero : prngStep { x := 0#32, y := 0#32, z := 0#32, w := 0#32 } =
    { x := 0#32, y := 0#32, z := 0#32, w := 0#32 } := rfl

/-- An xorshift to the left is injective: the lowest differing bit would stay. -/
theorem xorShiftLeft_injective {a b : Word} {k : Nat} (hk : 0 < k) (h : a ^^^ a <<< k = b ^^^ b <<< k) : a = b := by
  have key : ∀ n : Nat, a.getLsbD n = b.getLsbD n := by
    intro n
    induction n using Nat.strong_induction_on with
    | _ n ih =>
      have hb := congrArg (fun v : Word => v.getLsbD n) h
      simp only [BitVec.getLsbD_xor, BitVec.getLsbD_shiftLeft] at hb
      by_cases hn : n < k
      · simpa [hn] using hb
      · have := ih (n - k) (by omega)
        rw [this] at hb
        simpa using hb
  exact BitVec.eq_of_getLsbD_eq fun i _ => key i

/-- An xorshift to the right is injective: the highest differing bit would stay. -/
theorem xorShiftRight_injective {a b : Word} {k : Nat} (hk : 0 < k) (h : a ^^^ a >>> k = b ^^^ b >>> k) : a = b := by
  have key : ∀ d n : Nat, 32 ≤ n + d → a.getLsbD n = b.getLsbD n := by
    intro d
    induction d using Nat.strong_induction_on with
    | _ d ih =>
      intro n hn
      by_cases hd : 32 ≤ n
      · rw [BitVec.getLsbD_of_ge _ _ hd, BitVec.getLsbD_of_ge _ _ hd]
      · have hb := congrArg (fun v : Word => v.getLsbD n) h
        simp only [BitVec.getLsbD_xor, BitVec.getLsbD_ushiftRight] at hb
        have := ih (d - k) (by omega) (k + n) (by omega)
        rw [this] at hb
        simpa using hb
  exact BitVec.eq_of_getLsbD_eq fun i _ => key 32 i (by omega)

end Sys2Proof.Machine
end

