-- ==== Sys2Proof/Laws/Walk.lean ====
section
/-! SUPPORT. The run-length walk of UCN_BLOCK: everything each part can do, said once (spec/43_unitycn.md R194 to R207). -/

namespace Sys2Proof.Machine

/-! ### The register map's numbers are the model's -/

theorem rowBase_eq (r : ByteRegion) : rowBase r = regionBase r := by cases r <;> rfl
theorem rowSize_eq (p : Params) (r : ByteRegion) : rowSize p r = regionSize p r := by cases r <;> rfl
theorem bufCell_eq (a : Nat) : bufCell a = bufAt a := rfl

theorem inRegions_iff {p : Params} {o : Nat} :
    inRegions p o ↔ ∃ r : ByteRegion, regionBase r ≤ o ∧ o < regionBase r + regionSize p r := by
  simp only [inRegions, rowBase_eq, rowSize_eq]

/-- An offset inside a byte region. -/
theorem inRegions_of (r : ByteRegion) {p : Params} {o : Nat} (h1 : regionBase r ≤ o)
    (h2 : o < regionBase r + regionSize p r) : inRegions p o := inRegions_iff.mpr ⟨r, h1, h2⟩

theorem bufAt_inRegions {p : Params} {o : Nat} (h1 : bufAt 0 ≤ o) (h2 : o < bufAt p.bufSize) : inRegions p o :=
  inRegions_of .buf (by simpa [bufAt] using h1) (by simpa [bufAt, regionSize] using h2)

theorem table_inRegions {p : Params} {o : Nat} (h : isTableOffset o) : inRegions p o := by
  obtain ⟨h1, h2⟩ := h
  by_cases h3 : o < 0x0F0
  · exact inRegions_of .indexTbl (by simpa [regionBase] using h1) (by simpa [regionBase, regionSize] using h3)
  · exact inRegions_of .subTbl (by simp only [regionBase]; omega) (by simpa [regionBase, regionSize] using h2)

/-! ### The per-byte transform reads the tables and nothing else -/

theorem bits2_lt (i : Word) : (i &&& 3#32).toNat < 4 := by
  have h : (i &&& 3#32).toNat = i.toNat &&& 3 := by simp [BitVec.toNat_and]
  have : i.toNat &&& 3 ≤ 3 := Nat.and_le_right
  omega

theorem nibbleLow_lt (v : Byte) : (v &&& 0x0F#8).toNat < 16 := by
  have h : (v &&& 0x0F#8).toNat = v.toNat &&& 15 := by simp [BitVec.toNat_and]
  have : v.toNat &&& 15 ≤ 15 := Nat.and_le_right
  omega

theorem nibbleHigh_lt (v : Byte) : (v >>> 4).toNat < 16 := by
  have h : (v >>> 4).toNat = v.toNat / 16 := by simp [BitVec.toNat_ushiftRight, Nat.shiftRight_eq_div_pow]
  have := v.isLt
  omega

theorem subEntry_error {m : Memory} {j : Nat} {f : Fault} (h : subEntry m j = .error f) :
    m.read (0x0F0 + j) = none ∧ f = .unwrittenByte (0x0F0 + j) := by
  unfold subEntry at h
  split at h
  · rename_i e he
    simp only [Except.error.injEq] at h
    subst h
    simpa [regionBase] using he
  · exact absurd h (by simp)

theorem substNibble_error {m : Memory} {b j : Nat} {f : Fault} (h : substNibble m b j = .error f) :
    m.read (0x0E0 + j) = none ∧ f = .unwrittenByte (0x0E0 + j) := by
  unfold substNibble at h
  split at h
  · rename_i e he
    simp only [Except.error.injEq] at h
    subst h
    simpa [regionBase] using he
  · exact absurd h (by simp)

theorem maskValue_error {m : Memory} {i : Word} {f : Fault} (h : maskValue m i = .error f) :
    ∃ o, isTableOffset o ∧ m.read o = none ∧ f = .unwrittenByte o := by
  have lt1 := bits2_lt (i >>> 2)
  have lt0 := bits2_lt i
  have lt2 := bits2_lt (i >>> 4)
  unfold maskValue at h
  split at h
  · rename_i e he
    simp only [Except.error.injEq] at h; subst h
    obtain ⟨h1, h2⟩ := subEntry_error he
    exact ⟨_, ⟨by omega, by omega⟩, h1, h2⟩
  · split at h
    · rename_i e he
      simp only [Except.error.injEq] at h; subst h
      obtain ⟨h1, h2⟩ := subEntry_error he
      exact ⟨_, ⟨by omega, by omega⟩, h1, h2⟩
    · split at h
      · rename_i e he
        simp only [Except.error.injEq] at h; subst h
        obtain ⟨h1, h2⟩ := subEntry_error he
        exact ⟨_, ⟨by omega, by omega⟩, h1, h2⟩
      · split at h
        · rename_i e he
          simp only [Except.error.injEq] at h; subst h
          obtain ⟨h1, h2⟩ := subEntry_error he
          exact ⟨_, ⟨by omega, by omega⟩, h1, h2⟩
        · exact absurd h (by simp)

/-- The transform faults only where a table byte holds no value. -/
theorem subst_error {m : Memory} {v : Byte} {i : Word} {f : Fault} (h : subst m v i = .error f) :
    ∃ o, isTableOffset o ∧ m.read o = none ∧ f = .unwrittenByte o := by
  have ltl := nibbleLow_lt v
  have lth := nibbleHigh_lt v
  unfold subst at h
  split at h
  · rename_i e he
    simp only [Except.error.injEq] at h; subst h
    exact maskValue_error he
  · split at h
    · rename_i e he
      simp only [Except.error.injEq] at h; subst h
      obtain ⟨h1, h2⟩ := substNibble_error he
      exact ⟨_, ⟨by omega, by omega⟩, h1, h2⟩
    · split at h
      · rename_i e he
        simp only [Except.error.injEq] at h; subst h
        obtain ⟨h1, h2⟩ := substNibble_error he
        exact ⟨_, ⟨by omega, by omega⟩, h1, h2⟩
      · exact absurd h (by simp)

/-! ### What a part of the walk can do -/

/-- `w'` is reached from `w`: only BUF bytes from `w`'s offset on, below `w'`'s offset and below BUF's end, are written;
the offset and the token count do not go back. -/
structure Walk.Follows (size a : Nat) (w w' : Walk) : Prop where
  writes : Memory.Writes (fun o _ => bufAt (a + w.off) ≤ o ∧ o < bufAt (a + w'.off) ∧ o < bufAt size) w.ram w'.ram
  off_le : w.off ≤ w'.off
  tokens_le : w.tokens ≤ w'.tokens

theorem Walk.Follows.rfl {size a : Nat} {w : Walk} : Walk.Follows size a w w := ⟨.refl, le_rfl, le_rfl⟩

theorem Walk.Follows.trans {size a : Nat} {w w' w'' : Walk} (h : Walk.Follows size a w w')
    (h' : Walk.Follows size a w' w'') : Walk.Follows size a w w'' where
  writes := by
    have h1 := h.off_le
    have h2 := h'.off_le
    refine (h.writes.mono fun o _ hp => ?_).trans (h'.writes.mono fun o _ hp => ?_) <;> simp only [bufAt] at hp ⊢ <;> omega
  off_le := h.off_le.trans h'.off_le
  tokens_le := h.tokens_le.trans h'.tokens_le

/-- Everything a part of the walk that starts at `w` can end in. -/
def WalkEnd.From {α : Type} (size a : Nat) (w : Walk) (r : WalkEnd α) : Prop :=
  match r with
  | .ok _ w' => Walk.Follows size a w w'
  | .bounds w' => Walk.Follows size a w w' ∧ size ≤ a + w'.off
  | .fault f => ∃ o, f = .unwrittenByte o ∧ w.ram.read o = none ∧
      (isTableOffset o ∨ (bufAt (a + w.off) ≤ o ∧ o < bufAt size))

theorem WalkEnd.From.andThen {α β : Type} {size a : Nat} {w : Walk} {r : WalkEnd α} {k : α → Walk → WalkEnd β}
    (hr : r.From size a w) (hk : ∀ v w', r = .ok v w' → (k v w').From size a w') :
    (r.andThen k).From size a w := by
  cases r with
  | ok v w' =>
    have hf : Walk.Follows size a w w' := hr
    have h := hk v w' rfl
    simp only [WalkEnd.andThen]
    cases hkv : k v w' with
    | ok u w'' => rw [hkv] at h; exact hf.trans h
    | bounds w'' => rw [hkv] at h; exact ⟨hf.trans h.1, h.2⟩
    | fault f =>
      rw [hkv] at h
      obtain ⟨o, h1, h2, h3⟩ := h
      refine ⟨o, h1, hf.writes.unwritten h2, h3.imp_right fun h4 => ⟨?_, h4.2⟩⟩
      have h5 := h4.1
      have h6 := hf.off_le
      simp only [bufAt] at h5 ⊢
      omega
  | bounds w' => exact hr
  | fault f => exact hr

/-- X (R194): it stops at BUF's end, or transforms exactly the byte it stands on and advances. -/
theorem walkX_cases (size a : Nat) (w : Walk) :
    (size ≤ a + w.off ∧ walkX size a w = .bounds w) ∨
    (a + w.off < size ∧
      ((∃ v p, w.ram.read (bufAt (a + w.off)) = some v ∧ subst w.ram v w.idx = .ok p ∧
          walkX size a w = .ok p
            { w with ram := w.ram.write (bufAt (a + w.off)) p, idx := w.idx + 1#32, off := w.off + 1 }) ∨
        (∃ o, walkX size a w = .fault (.unwrittenByte o) ∧ w.ram.read o = none ∧
          (isTableOffset o ∨ o = bufAt (a + w.off))))) := by
  unfold walkX
  by_cases hs : size ≤ a + w.off
  · exact .inl ⟨hs, by simp [hs]⟩
  · refine .inr ⟨by omega, ?_⟩
    rw [if_neg hs]
    cases hv : readByte w.ram (bufAt (a + w.off)) with
    | error f =>
      obtain ⟨h1, h2⟩ := readByte_error_iff.mp hv
      exact .inr ⟨_, by rw [h2], h1, .inr rfl⟩
    | ok v =>
      cases hp : subst w.ram v w.idx with
      | error f =>
        obtain ⟨o, h1, h2, h3⟩ := subst_error hp
        exact .inr ⟨o, by simp only [hp, h3], h2, .inl h1⟩
      | ok p => exact .inl ⟨v, p, readByte_ok_iff.mp hv, hp, by simp only [hp]⟩

theorem walkX_from (size a : Nat) (w : Walk) : (walkX size a w).From size a w := by
  rcases walkX_cases size a w with ⟨h, he⟩ | ⟨h, ⟨v, p, _, _, he⟩ | ⟨o, he, h1, h2⟩⟩
  · rw [he]; exact ⟨.rfl, h⟩
  · rw [he]
    exact ⟨Memory.Writes.one (by simp only [bufAt]; omega), by simp, le_rfl⟩
  · rw [he]
    refine ⟨o, rfl, h1, h2.imp_right fun h3 => ?_⟩
    simp only [h3, bufAt] at *; omega

theorem walkX_ok_off {size a : Nat} {w w' : Walk} {v : Byte} (h : walkX size a w = .ok v w') :
    w'.off = w.off + 1 ∧ w'.idx = w.idx + 1#32 ∧ w'.tokens = w.tokens ∧ a + w.off < size := by
  rcases walkX_cases size a w with ⟨_, he⟩ | ⟨hl, ⟨v', p, _, _, he⟩ | ⟨o, he, _, _⟩⟩ <;> rw [he] at h
  · exact absurd h (by simp)
  · simp only [WalkEnd.ok.injEq] at h
    obtain ⟨_, rfl⟩ := h
    exact ⟨rfl, rfl, rfl, hl⟩
  · exact absurd h (by simp)

theorem walkRun_from (size a room : Nat) : ∀ lit w, room = size - (a + w.off) →
    (walkRun size a room lit w).From size a w := by
  induction room with
  | zero => intro lit w h; exact ⟨.rfl, by omega⟩
  | succ room ih =>
    intro lit w h
    simp only [walkRun]
    refine (walkX_from size a w).andThen fun c w' hx => ?_
    have hx := walkX_ok_off hx
    split
    · exact ih _ _ (by omega)
    · exact .rfl

theorem walkRunHere_from (size a lit : Nat) (w : Walk) : (walkRunHere size a lit w).From size a w :=
  walkRun_from size a _ lit w rfl

theorem walkLiterals_from (size a : Nat) (t : Byte) (w : Walk) : (walkLiterals size a t w).From size a w := by
  unfold walkLiterals
  refine WalkEnd.From.andThen ?_ fun lit w' _ => ?_
  · split
    · exact walkRunHere_from size a 15 w
    · exact .rfl
  · exact ⟨.refl, by simp, le_rfl⟩

theorem walkSecond_from (size a len : Nat) (t : Byte) (w : Walk) : (walkSecond size a len t w).From size a w := by
  unfold walkSecond
  split
  · refine (walkX_from size a w).andThen fun _ w1 _ => (walkX_from size a w1).andThen fun _ w2 _ => ?_
    split
    · exact (walkRunHere_from size a 0 w2).andThen fun _ w3 _ => .rfl
    · exact .rfl
  · exact .rfl

theorem walkToken_from (size a len : Nat) (w : Walk) : (walkToken size a len w).From size a w := by
  unfold walkToken
  refine (walkX_from size a w).andThen fun t w1 _ => (walkLiterals_from size a t w1).andThen fun _ w2 _ =>
    (walkSecond_from size a len t w2).andThen fun _ w3 _ => ?_
  exact ⟨.refl, le_rfl, by simp⟩

/-- Every token advances the offset (R207). -/
theorem walkToken_advances {size a len : Nat} {w w' : Walk} (h : walkToken size a len w = .ok () w') :
    w.off + 1 ≤ w'.off := by
  unfold walkToken at h
  cases hx : walkX size a w with
  | bounds _ => rw [hx] at h; exact absurd h (by simp [WalkEnd.andThen])
  | fault _ => rw [hx] at h; exact absurd h (by simp [WalkEnd.andThen])
  | ok t w1 =>
    rw [hx] at h
    simp only [WalkEnd.andThen] at h
    have h1 := (walkX_ok_off hx).1
    have h2 : WalkEnd.From size a w1 (WalkEnd.ok () w') := by
      rw [← h]
      refine (walkLiterals_from size a t w1).andThen fun _ w2 _ =>
        (walkSecond_from size a len t w2).andThen fun _ w3 _ => ?_
      exact ⟨.refl, le_rfl, by simp⟩
    have := h2.off_le
    omega

theorem walkTokens_from (size a len fuel : Nat) : ∀ w, (walkTokens size a len fuel w).From size a w := by
  induction fuel with
  | zero => intro w; exact .rfl
  | succ fuel ih =>
    intro w
    simp only [walkTokens]
    split
    · exact (walkToken_from size a len w).andThen fun _ w' _ => ih w'
    · exact .rfl

/-- With fuel for the bytes that are left, the walk ends at or past the end of the block. -/
theorem walkTokens_reaches_end {size a len fuel : Nat} {w w' : Walk} (hf : len ≤ w.off + fuel)
    (h : walkTokens size a len fuel w = .ok () w') : len ≤ w'.off := by
  induction fuel generalizing w with
  | zero => simp only [walkTokens, WalkEnd.ok.injEq] at h; rw [← h.2]; omega
  | succ fuel ih =>
    simp only [walkTokens] at h
    split at h
    · cases ht : walkToken size a len w with
      | bounds _ => rw [ht] at h; exact absurd h (by simp [WalkEnd.andThen])
      | fault _ => rw [ht] at h; exact absurd h (by simp [WalkEnd.andThen])
      | ok _ w1 =>
        rw [ht] at h
        have := walkToken_advances ht
        exact ih (by omega) h
    · rename_i hlt
      simp only [WalkEnd.ok.injEq] at h; rw [← h.2]; omega

/-- Fuel is no part of the meaning: more than the bytes that are left changes nothing. -/
theorem walkTokens_fuel {size a len fuel : Nat} {w : Walk} (hf : len ≤ w.off + fuel) (extra : Nat) :
    walkTokens size a len (fuel + extra) w = walkTokens size a len fuel w := by
  induction fuel generalizing w with
  | zero =>
    cases extra with
    | zero => rfl
    | succ e => simp only [walkTokens]; rw [if_neg (by omega)]
  | succ fuel ih =>
    rw [Nat.add_right_comm]
    simp only [walkTokens]
    split
    · cases ht : walkToken size a len w with
      | bounds _ => rfl
      | fault _ => rfl
      | ok _ w1 =>
        have := walkToken_advances ht
        simp only [WalkEnd.andThen]
        exact ih (by omega)
    · rfl

theorem blockWalk_from (s : State) : (blockWalk s).From s.params.bufSize (operandAddr s) (walkStart s) :=
  walkTokens_from _ _ _ _ _

end Sys2Proof.Machine
end

