-- ==== Sys2Proof/Laws/Exec.lean ====
section
/-! SUPPORT. Everything a command can do, said once: what it stores to, what else it changes, which errors it raises,
where it faults (spec/30_encoding.md R93, spec/40_command_engine.md R121, spec/60_exceptions.md R231). Invariants and
frames follow from `opOf_effect` without unfolding a meaning again. -/

namespace Sys2Proof.Machine

/-- The operation behind each command's meaning. -/
def opOf (i : Instr) (s : State) : Op :=
  match i with
  | .prngSeed => opPrngSeed s
  | .prngNext => opPrngNext s
  | .prngNextDecrypt => opPrngNextDecrypt s
  | .mr0kCheck => opMr0kCheck s
  | .mr0kDecrypt => opMr0kDecrypt s
  | .ucnKeyHex => opUcnKeyHex s
  | .ucnHeader => opUcnHeader s
  | .ucnBlock => opUcnBlock s

theorem exec_eq (i : Instr) (s : State) : exec i s = complete (opOf i s) := by cases i <;> rfl

/-- Where a command may store, from its operands. -/
def storeSpan (i : Instr) (s : State) (o : Nat) : Prop :=
  match i with
  | .prngSeed => False
  | .prngNext => False
  | .prngNextDecrypt => bufAt (operandAddr s) ≤ o ∧ o < bufAt (operandAddr s + operandLen s)
  | .mr0kCheck => False
  | .mr0kDecrypt =>
    (bufAt (operandAddr s + 0x84) ≤ o ∧ o < bufAt (operandAddr s + 0x94 + mr0kBlockLen (operandLen s))) ∨
    (nPk s.profile ≠ 0 ∧ bufAt (operandAddr s + 20) ≤ o ∧ o < bufAt (operandAddr s + 3092))
  | .ucnKeyHex => 0x0C0 ≤ o ∧ o < 0x0D0
  | .ucnHeader => isTableOffset o
  | .ucnBlock => bufAt (operandAddr s) ≤ o ∧ o < bufAt s.params.bufSize

/-- The ERR causes of a command (60_exceptions.md R231). -/
def causesOf (i : Instr) : List Cause :=
  match i with
  | .prngSeed => []
  | .prngNext => [.unseeded]
  | .prngNextDecrypt => [.unseeded, .bounds]
  | .mr0kCheck => [.bounds]
  | .mr0kDecrypt => [.config, .bounds, .length]
  | .ucnKeyHex => [.bounds, .invalidKeyLength]
  | .ucnHeader => [.bounds, .invalidSignature]
  | .ucnBlock => [.noTables, .bounds]

/-- A byte a command may write: in its span, in a byte region, a nibble in the UnityCN tables. -/
def stores (i : Instr) (s : State) (o : Nat) (v : Byte) : Prop :=
  storeSpan i s o ∧ inRegions s.params o ∧ (isTableOffset o → v.toNat < 16)

/-- The registers and bytes a command leaves, before completion. -/
structure Effect (i : Instr) (s u : State) : Prop where
  params : u.params = s.params
  busy : u.busy = s.busy
  done : u.done = s.done
  err : u.err = s.err
  lastCmd : u.lastCmd = s.lastCmd
  opAddr : u.opAddr = s.opAddr
  opLen : u.opLen = s.opLen
  opVal : u.opVal = s.opVal
  profile : u.profile = s.profile
  doneIe : u.ctrl.doneIe = s.ctrl.doneIe
  errIe : u.ctrl.errIe = s.ctrl.errIe
  inReset : u.inReset = s.inReset
  resets : u.resets = s.resets
  agenda : u.agenda = s.agenda
  replies : u.replies = s.replies
  prng : i ∉ [.prngSeed, .prngNext, .prngNextDecrypt] → u.prng = s.prng
  seed : i ≠ .prngSeed → u.prngSeed = s.prngSeed ∧ u.seeded = s.seeded
  result0 : i ∉ [.prngNext, .prngNextDecrypt, .mr0kCheck, .mr0kDecrypt, .ucnHeader, .ucnBlock] → u.result0 = s.result0
  result1 : i ∉ [.prngNextDecrypt, .mr0kDecrypt, .ucnBlock] → u.result1 = s.result1
  akeyEn : i ≠ .ucnKeyHex → u.ctrl.akeyEn = s.ctrl.akeyEn
  tablesValid : i ≠ .ucnHeader → u.tablesValid = s.tablesValid
  ucnIndex : i ≠ .ucnBlock → u.ucnIndex = s.ucnIndex
  ram : Memory.Writes (stores i s) s.ram u.ram

/-- A fault on a byte of the arrays or of BUF that holds no value. -/
def unread (p : Params) (m : Memory) (f : Fault) : Prop :=
  ∃ o, f = .unwrittenByte o ∧ inRegions p o ∧ m.read o = none

/-- What `opOf_effect` says of each command. -/
abbrev Op.Effective (i : Instr) (s : State) (o : Op) : Prop :=
  o.Holds (Effect i s) (fun c u => Effect i s u ∧ c ∈ causesOf i) (unread s.params s.ram)

theorem Effect.same (i : Instr) (s : State) : Effect i s s := by
  constructor <;> first | rfl | exact fun _ => rfl | exact fun _ => ⟨rfl, rfl⟩ | exact .refl

/-- A raise before any change. -/
theorem Op.Effective.raise {i : Instr} {s : State} {c : Cause} (hc : c ∈ causesOf i) :
    Op.Effective i s (.raise c s) := ⟨Effect.same i s, hc⟩

theorem readBytes_unread {p : Params} {m : Memory} {o n : Nat} {f : Fault} (hin : ∀ i < n, inRegions p (o + i))
    (h : readBytes m o n = .error f) : unread p m f := by
  obtain ⟨i, hi, h1, h2⟩ := readBytes_error h
  exact ⟨_, h2, hin i hi, h1⟩

theorem readByte_unread {p : Params} {m : Memory} {o : Nat} {f : Fault} (hin : inRegions p o)
    (h : readByte m o = .error f) : unread p m f := by
  obtain ⟨h1, h2⟩ := readByte_error_iff.mp h
  exact ⟨_, h2, hin, h1⟩

/-- Bytes of a region, from its first on. -/
theorem inRegions_from (r : ByteRegion) {p : Params} {n : Nat} (hn : n ≤ regionSize p r) :
    ∀ i < n, inRegions p (regionBase r + i) := fun i hi => inRegions_of r (by omega) (by omega)

/-- Bytes of BUF. -/
theorem inRegions_buf {p : Params} {a n : Nat} (h : a + n ≤ p.bufSize) : ∀ i < n, inRegions p (bufAt a + i) :=
  fun i hi => bufAt_inRegions (by simp only [bufAt]; omega) (by simp only [bufAt]; omega)

theorem bufAt_not_table {a o : Nat} (h : bufAt a ≤ o) : ¬ isTableOffset o := by
  simp only [bufAt, regionBase] at h
  simp only [isTableOffset]
  omega

theorem fitsBuf_iff {p : Params} {a n : Nat} : fitsBuf p a n = true ↔ a + n ≤ p.bufSize := by
  simp [fitsBuf]

/-! ### PRNG -/

theorem opPrngSeed_effect (s : State) : Op.Effective .prngSeed s (opPrngSeed s) := by
  constructor <;> first | rfl | exact fun h => absurd rfl h | exact fun _ => rfl | exact .refl | exact fun h => absurd (by simp) h

theorem opPrngNext_effect (s : State) : Op.Effective .prngNext s (opPrngNext s) := by
  unfold opPrngNext
  split
  · constructor <;> first | rfl | exact fun _ => rfl | exact fun _ => ⟨rfl, rfl⟩ | exact .refl | exact fun h => absurd (by simp) h
  · exact Op.Effective.raise (by simp [causesOf])

theorem opPrngNextDecrypt_effect (s : State) : Op.Effective .prngNextDecrypt s (opPrngNextDecrypt s) := by
  unfold opPrngNextDecrypt
  split
  · exact Op.Effective.raise (by simp [causesOf])
  · split
    · exact Op.Effective.raise (by simp [causesOf])
    · rename_i hfit
      have hfit : operandAddr s + operandLen s ≤ s.params.bufSize := fitsBuf_iff.mp (by simpa using hfit)
      have hw : Memory.Writes (stores .prngNextDecrypt s) s.ram
          (decryptFill (leBytes8 (nextDecryptKey s.opLen s.prngSeed)) (bufAt (operandAddr s)) (operandLen s) s.prng
            s.ram).2 := by
        refine (decryptFill_spec _ _ _ _ _).2.2.mono fun o v hp => ?_
        have h1 : bufAt (operandAddr s) ≤ o := hp.1
        have h2 : o < bufAt (operandAddr s + operandLen s) := by have := hp.2; simp only [bufAt] at *; omega
        exact ⟨⟨h1, h2⟩, bufAt_inRegions (by simp only [bufAt] at *; omega) (by simp only [bufAt] at *; omega),
          fun ht => absurd ht (bufAt_not_table h1)⟩
      constructor <;>
        first | rfl | exact fun _ => rfl | exact fun _ => ⟨rfl, rfl⟩ | exact hw | exact fun h => absurd (by simp) h

/-! ### Mr0k -/

theorem opMr0kCheck_effect (s : State) : Op.Effective .mr0kCheck s (opMr0kCheck s) := by
  unfold opMr0kCheck
  split
  · exact Op.Effective.raise (by simp [causesOf])
  · rename_i hfit
    have hfit : operandAddr s + operandLen s ≤ s.params.bufSize := fitsBuf_iff.mp (by simpa using hfit)
    split
    · constructor <;>
        first | rfl | exact fun _ => rfl | exact fun _ => ⟨rfl, rfl⟩ | exact .refl | exact fun h => absurd (by simp) h
    · refine Op.Holds.withRead (fun f hf => readBytes_unread (inRegions_buf (by omega)) hf) fun head _ => ?_
      constructor <;>
        first | rfl | exact fun _ => rfl | exact fun _ => ⟨rfl, rfl⟩ | exact .refl | exact fun h => absurd (by simp) h

theorem sboxMap_ok {m : Memory} {key l : List Byte} {i : Nat} (h : sboxMap m i key = .ok l) :
    l.length = key.length ∧
    ∀ j < key.length, m.read (0x400 + ((i + j) % 4 * 256 + (byteOf key j).toNat)) = some (byteOf l j) := by
  induction key generalizing i l with
  | nil =>
    simp only [sboxMap, Except.ok.injEq] at h
    subst h
    exact ⟨rfl, fun j hj => by simp at hj⟩
  | cons b bs ih =>
    simp only [sboxMap] at h
    split at h
    · exact absurd h (by simp)
    · rename_i c hc
      split at h
      · exact absurd h (by simp)
      · rename_i cs hcs
        simp only [Except.ok.injEq] at h
        subst h
        obtain ⟨h1, h2⟩ := ih hcs
        refine ⟨by simp [h1], fun j hj => ?_⟩
        cases j with
        | zero => simpa [byteOf_cons_zero, regionBase] using hc
        | succ j =>
          have := h2 j (by simpa using hj)
          rwa [Nat.add_right_comm, Nat.add_assoc] at this

theorem sboxMap_error {m : Memory} {key : List Byte} {i : Nat} {f : Fault} (h : sboxMap m i key = .error f) :
    ∃ j < key.length, m.read (0x400 + ((i + j) % 4 * 256 + (byteOf key j).toNat)) = none ∧
      f = .unwrittenByte (0x400 + ((i + j) % 4 * 256 + (byteOf key j).toNat)) := by
  induction key generalizing i with
  | nil => simp [sboxMap] at h
  | cons b bs ih =>
    simp only [sboxMap] at h
    split at h
    · rename_i e he
      simp only [Except.error.injEq] at h
      subst h
      obtain ⟨h1, h2⟩ := readByte_error_iff.mp he
      exact ⟨0, by simp, by simpa [byteOf_cons_zero, regionBase] using h1,
        by simpa [byteOf_cons_zero, regionBase] using h2⟩
    · split at h
      · rename_i e he
        simp only [Except.error.injEq] at h
        subst h
        obtain ⟨j, h1, h2, h3⟩ := ih he
        rw [Nat.add_right_comm, Nat.add_assoc] at h2 h3
        exact ⟨j + 1, by simpa using h1, h2, h3⟩
      · exact absurd h (by simp)

theorem sboxMap_unread {p : Params} {m : Memory} {key : List Byte} {i : Nat} {f : Fault}
    (h : sboxMap m i key = .error f) : unread p m f := by
  obtain ⟨j, _, h1, h2⟩ := sboxMap_error h
  have hb := (byteOf key j).isLt
  exact ⟨_, h2, inRegions_of .sbox (by simp [regionBase]) (by simp only [regionBase, regionSize]; omega), h1⟩

theorem profileLegal_iff {p : Profile} :
    profileLegal p = true ↔ ((nIv p ≤ 16 ∧ nEk p ≤ 240) ∧ nPk p ≤ 16) ∧ nBk p ≤ 16 := by
  simp only [profileLegal, Bool.and_eq_true, decide_eq_true_eq]

theorem mr0kKey2_unread {s : State} {k : List Byte} {f : Fault} (hl : nIv s.profile ≤ 16)
    (h : mr0kKey2 s k = .error f) : unread s.params s.ram f := by
  unfold mr0kKey2 at h
  split at h
  · rename_i e he
    simp only [Except.error.injEq] at h
    exact h ▸ readBytes_unread (inRegions_from .iv hl) he
  · exact absurd h (by simp)

theorem mr0kSubst_unread {s : State} {k : List Byte} {f : Fault} (h : mr0kSubst s k = .error f) :
    unread s.params s.ram f := by
  unfold mr0kSubst at h
  split at h
  · exact sboxMap_unread h
  · exact absurd h (by simp)

theorem mr0kAes_unread {s : State} {k : List Byte} {f : Fault} (hl : nEk s.profile ≤ 240)
    (h : mr0kAes s k = .error f) : unread s.params s.ram f := by
  unfold mr0kAes at h
  split at h
  · exact absurd h (by simp)
  · split at h
    · rename_i e he
      simp only [Except.error.injEq] at h
      exact h ▸ readBytes_unread (inRegions_from .expKey hl) he
    · exact absurd h (by simp)

theorem blockMask_unread {s : State} {sb : List Byte} {i : Nat} {f : Fault} (h0 : nBk s.profile ≠ 0)
    (hl : nBk s.profile ≤ 16) (h : blockMask s sb i = .error f) : unread s.params s.ram f := by
  unfold blockMask at h
  split at h
  · rename_i e he
    simp only [Except.error.injEq] at h
    exact h ▸ readByte_unread (inRegions_from .blockKey hl _ (Nat.mod_lt _ (Nat.pos_of_ne_zero h0))) he
  · exact absurd h (by simp)

theorem mr0kBlockLen_le {len : Nat} (h : 0x94 ≤ len) : 0x94 + mr0kBlockLen len ≤ len := by
  unfold mr0kBlockLen
  rw [Nat.shiftRight_eq_div_pow]
  omega

theorem xorRegion_unread {p : Params} {mask : Nat → Except Fault Byte} {o n : Nat} {m m0 : Memory} {f : Fault}
    {P : Nat → Byte → Prop} (hw : Memory.Writes P m0 m) (hin : ∀ i < n, inRegions p (o + i))
    (hm : ∀ j f, mask j = .error f → unread p m0 f) (h : xorRegion mask o 0 n m = .error f) : unread p m0 f := by
  obtain ⟨j, _, hj, h3 | h3⟩ := xorRegion_error h
  · exact ⟨_, h3.2, hin j (by omega), hw.unwritten h3.1⟩
  · exact hm j f h3

/-- Step 8 (R164): what it writes, where it faults. -/
theorem mr0kUnmask_spec {s : State} {sb : List Byte} {m : Memory} {P : Nat → Byte → Prop}
    (hw : Memory.Writes P s.ram m) (hl : nBk s.profile ≤ 16)
    (hin : operandAddr s + 0x94 + mr0kBlockLen (operandLen s) ≤ s.params.bufSize) :
    (∀ f, mr0kUnmask s sb m = .error f → unread s.params s.ram f) ∧
    (∀ m', mr0kUnmask s sb m = .ok m' → Memory.Writes (fun x _ => bufAt (operandAddr s + 0x94) ≤ x ∧
      x < bufAt (operandAddr s + 0x94) + mr0kBlockLen (operandLen s)) m m') := by
  unfold mr0kUnmask
  simp only
  split
  · rename_i hbk
    exact ⟨fun f hf => xorRegion_unread hw (inRegions_buf hin) (fun j f hf => blockMask_unread hbk hl hf) hf,
      fun m' h => (xorRegion_ok h).2.2.mono fun x _ hx => by omega⟩
  · split
    · exact ⟨fun f hf => absurd hf (by simp), fun m' h => by simp only [Except.ok.injEq] at h; exact h ▸ .refl⟩
    · exact ⟨fun f hf => xorRegion_unread hw (inRegions_buf hin) (fun j f hf => absurd hf (by simp)) hf,
        fun m' h => (xorRegion_ok h).2.2.mono fun x _ hx => by omega⟩

/-- Step 10 (R166): what it writes, where it faults. -/
theorem mr0kPost_spec {s : State} {m : Memory} {P : Nat → Byte → Prop} (hw : Memory.Writes P s.ram m)
    (hl : nPk s.profile ≤ 16) (hin : nPk s.profile ≠ 0 → operandAddr s + 20 + 3072 ≤ s.params.bufSize) :
    (∀ f, mr0kPost s m = .error f → unread s.params s.ram f) ∧
    (∀ m', mr0kPost s m = .ok m' → Memory.Writes (fun x _ => nPk s.profile ≠ 0 ∧ bufAt (operandAddr s + 20) ≤ x ∧
      x < bufAt (operandAddr s + 20) + 3072) m m') := by
  unfold mr0kPost
  split
  · exact ⟨fun f hf => absurd hf (by simp), fun m' h => by simp only [Except.ok.injEq] at h; exact h ▸ .refl⟩
  · rename_i hpk
    exact ⟨fun f hf => xorRegion_unread hw (inRegions_buf (hin hpk)) (fun j f hf => readByte_unread
        (inRegions_from .postKey hl _ (Nat.mod_lt _ (Nat.pos_of_ne_zero hpk))) hf) hf,
      fun m' h => (xorRegion_ok h).2.2.mono fun x _ hx => ⟨hpk, by omega, by omega⟩⟩

theorem mr0kAes_length {s : State} {k l : List Byte} (hk : k.length = 16) (h : mr0kAes s k = .ok l) :
    l.length = 16 := by
  unfold mr0kAes at h
  split at h
  · simp only [Except.ok.injEq] at h; exact h ▸ hk
  · split at h
    · exact absurd h (by simp)
    · simp only [Except.ok.injEq] at h; rw [← h]; simp

theorem mr0kSubst_length {s : State} {k l : List Byte} (h : mr0kSubst s k = .ok l) : l.length = k.length := by
  unfold mr0kSubst at h
  split at h
  · exact (sboxMap_ok h).1
  · simp only [Except.ok.injEq] at h; rw [h]

theorem opMr0kDecrypt_effect (s : State) : Op.Effective .mr0kDecrypt s (opMr0kDecrypt s) := by
  unfold opMr0kDecrypt
  simp only
  split
  · exact Op.Effective.raise (by simp [causesOf])
  · rename_i hlegal
    obtain ⟨⟨⟨hiv, hek⟩, hpkl⟩, hbk⟩ := profileLegal_iff.mp (by simpa using hlegal)
    split
    · exact Op.Effective.raise (by simp [causesOf])
    · rename_i hfit
      have hfit : operandAddr s + operandLen s ≤ s.params.bufSize := fitsBuf_iff.mp (by simpa using hfit)
      split
      · exact Op.Effective.raise (by simp [causesOf])
      · rename_i hlen
        have hlen : 0x94 ≤ operandLen s := by omega
        split
        · exact Op.Effective.raise (by simp [causesOf])
        · rename_i hpk
          have hbl := mr0kBlockLen_le hlen
          have hpost : nPk s.profile ≠ 0 → 3092 ≤ operandLen s := fun h => by
            have := not_and.mp hpk h; omega
          refine Op.Holds.withRead (fun f hf => readBytes_unread (inRegions_buf (by omega)) hf) fun key1 h1 => ?_
          refine Op.Holds.withRead (fun f hf => readBytes_unread (inRegions_buf (by omega)) hf) fun key2raw h2 => ?_
          refine Op.Holds.withRead (fun f hf => readBytes_unread (inRegions_buf (by omega)) hf) fun key3pre h3 => ?_
          refine Op.Holds.withRead (fun f hf => mr0kKey2_unread hiv hf) fun key2 h4 => ?_
          refine Op.Holds.withRead (fun f hf => mr0kSubst_unread hf) fun key1s h5 => ?_
          refine Op.Holds.withRead (fun f hf => mr0kAes_unread hek hf) fun key1a h6 => ?_
          refine Op.Holds.withRead (fun f hf => mr0kAes_unread hek hf) fun key3 h7 => ?_
          have l1a : key1a.length = 16 :=
            mr0kAes_length ((mr0kSubst_length h5).trans (readBytes_ok_iff.mp h1).1) h6
          have l3 : key3.length = 16 := mr0kAes_length (readBytes_ok_iff.mp h3).1 h7
          have lx : (xorBytes key1a key3).length = 16 := by simp [xorBytes, l1a, l3]
          have hst : ∀ o v, (bufAt (operandAddr s + 0x84) ≤ o ∧
              o < bufAt (operandAddr s + 0x94) + mr0kBlockLen (operandLen s)) ∨
              (nPk s.profile ≠ 0 ∧ bufAt (operandAddr s + 20) ≤ o ∧ o < bufAt (operandAddr s + 20) + 3072) →
              stores .mr0kDecrypt s o v := by
            intro o v ho
            have h0 : bufAt (operandAddr s + 20) ≤ o := by simp only [bufAt] at *; omega
            have hend : o < bufAt s.params.bufSize := by simp only [bufAt] at *; omega
            refine ⟨?_, bufAt_inRegions (by simp only [bufAt] at *; omega) hend,
              fun ht => absurd ht (bufAt_not_table h0)⟩
            rcases ho with ho | ho
            · exact .inl (by simp only [bufAt] at *; omega)
            · exact .inr ⟨ho.1, by simp only [bufAt] at *; omega⟩
          have hw6 : Memory.Writes (stores .mr0kDecrypt s) s.ram
              (writeBytes s.ram (bufAt (operandAddr s + 0x84)) (xorBytes key1a key3)) := by
            refine writeBytes_writes fun i hi => hst _ _ (.inl ?_)
            rw [lx] at hi
            simp only [bufAt]; omega
          refine Op.Holds.withRead (fun f hf => (mr0kUnmask_spec hw6 hbk (by omega)).1 f hf) fun unmasked h8 => ?_
          have hw8 := hw6.trans (((mr0kUnmask_spec hw6 hbk (by omega)).2 _ h8).mono fun o v ho => hst o v (.inl (by
            simp only [bufAt] at *; omega)))
          have h10 := mr0kPost_spec hw8 hpkl fun h => by have := hpost h; omega
          refine Op.Holds.withRead (fun f hf => h10.1 f hf) fun out h9 => ?_
          have hw9 := hw8.trans ((h10.2 _ h9).mono fun o v ho => hst o v (.inr ho))
          constructor <;>
            first | rfl | exact fun _ => rfl | exact fun _ => ⟨rfl, rfl⟩ | exact hw9 | exact fun h => absurd (by simp) h

/-! ### UnityCN -/

theorem readHex_unread {p : Params} {m : Memory} {o n : Nat} {f : Fault} (hin : ∀ i < 2 * n, inRegions p (o + i))
    (h : readHex m o n = .error f) : unread p m f := by
  induction n generalizing o with
  | zero => simp [readHex] at h
  | succ n ih =>
    simp only [readHex] at h
    split at h
    · rename_i e he
      simp only [Except.error.injEq] at h
      exact h ▸ readByte_unread (hin 0 (by omega)) he
    · split at h
      · rename_i e he
        simp only [Except.error.injEq] at h
        exact h ▸ readByte_unread (hin 1 (by omega)) he
      · split at h
        · exact absurd h (by simp)
        · split at h
          · rename_i e he
            simp only [Except.error.injEq] at h
            exact ih (fun i hi => by rw [Nat.add_assoc]; exact hin _ (by omega)) (h ▸ he)
          · exact absurd h (by simp)
          · exact absurd h (by simp)

theorem readHex_length {m : Memory} {o n : Nat} {l : List Byte} (h : readHex m o n = .ok (some l)) : l.length = n := by
  induction n generalizing o l with
  | zero => simp only [readHex, Except.ok.injEq, Option.some.injEq] at h; simp [← h]
  | succ n ih =>
    simp only [readHex] at h
    split at h
    · exact absurd h (by simp)
    · split at h
      · exact absurd h (by simp)
      · split at h
        · exact absurd h (by simp)
        · split at h
          · exact absurd h (by simp)
          · exact absurd h (by simp)
          · rename_i bs hbs
            simp only [Except.ok.injEq, Option.some.injEq] at h
            rw [← h, List.length_cons, ih hbs]

theorem opUcnKeyHex_effect (s : State) : Op.Effective .ucnKeyHex s (opUcnKeyHex s) := by
  unfold opUcnKeyHex
  split
  · exact Op.Effective.raise (by simp [causesOf])
  · rename_i hfit
    have hfit : operandAddr s + operandLen s ≤ s.params.bufSize := fitsBuf_iff.mp (by simpa using hfit)
    split
    · exact Op.Effective.raise (by simp [causesOf])
    · rename_i hlen
      refine Op.Holds.withRead (fun f hf => readHex_unread (inRegions_buf (by omega)) hf) fun key hk => ?_
      cases key with
      | none => exact Op.Effective.raise (by simp [causesOf])
      | some k =>
        have hl := readHex_length hk
        have hw : Memory.Writes (stores .ucnKeyHex s) s.ram (writeBytes s.ram (regionBase .aKey) k) := by
          refine writeBytes_writes fun i hi => ⟨?_, inRegions_of .aKey ?_ ?_, fun ht => ?_⟩ <;>
            simp only [storeSpan, regionBase, regionSize, isTableOffset] at * <;> omega
        constructor <;>
          first | rfl | exact fun _ => rfl | exact fun _ => ⟨rfl, rfl⟩ | exact hw | exact fun h => absurd rfl h

theorem decryptKey_unread {s : State} {k d : List Byte} {f : Fault} (h : decryptKey s k d = .error f) :
    unread s.params s.ram f := by
  unfold decryptKey at h
  split at h
  · split at h
    · rename_i e he
      simp only [Except.error.injEq] at h
      exact h ▸ readBytes_unread (inRegions_from .aKey le_rfl) he
    · exact absurd h (by simp)
  · exact absurd h (by simp)

theorem unpack_lt (l : List Byte) (i : Nat) : (byteOf (unpack l) i).toNat < 16 := by
  induction l generalizing i with
  | nil => simp [unpack, byteOf]
  | cons b bs ih =>
    match i with
    | 0 => exact nibbleHigh_lt b
    | 1 => exact nibbleLow_lt b
    | i + 2 => exact ih i

theorem byteOf_map_range {f : Nat → Byte} {n i : Nat} (h : i < n) : byteOf ((List.range n).map f) i = f i := by
  simp [byteOf, List.getD, h]

theorem indexTable_get {l : List Byte} {i : Nat} (h : i < 16) : byteOf (indexTable l) i = byteOf l i :=
  byteOf_map_range h

theorem subTable_get {l : List Byte} {j : Nat} (h : j < 16) :
    byteOf (subTable l) j = byteOf l (16 + 4 * (j % 4) + j / 4) := byteOf_map_range h

@[simp] theorem indexTable_length (l : List Byte) : (indexTable l).length = 16 := by simp [indexTable]
@[simp] theorem subTable_length (l : List Byte) : (subTable l).length = 16 := by simp [subTable]

theorem writeTables_writes (s : State) (l : List Byte) :
    Memory.Writes (stores .ucnHeader s) s.ram (writeTables s.ram (unpack l)) := by
  unfold writeTables
  refine Memory.Writes.trans (writeBytes_writes fun i hi => ?_) (writeBytes_writes fun i hi => ?_)
  · rw [indexTable_length] at hi
    refine ⟨?_, inRegions_of .indexTbl ?_ ?_, fun _ => ?_⟩
    · simp only [storeSpan, isTableOffset, regionBase]; omega
    · simp only [regionBase]; omega
    · simp only [regionBase, regionSize]; omega
    · rw [indexTable_get hi]; exact unpack_lt l i
  · rw [subTable_length] at hi
    refine ⟨?_, inRegions_of .subTbl ?_ ?_, fun _ => ?_⟩
    · simp only [storeSpan, isTableOffset, regionBase]; omega
    · simp only [regionBase]; omega
    · simp only [regionBase, regionSize]; omega
    · rw [subTable_get hi]; exact unpack_lt l _

/-- The state of UCN_HEADER's raises: TABLES_VALID cleared, nothing else (R188). -/
theorem Effect.clearTables (s : State) : Effect .ucnHeader s { s with tablesValid := false } := by
  constructor <;>
    first | rfl | exact fun _ => rfl | exact fun _ => ⟨rfl, rfl⟩ | exact .refl | exact fun h => absurd rfl h

/-- The state of UCN_HEADER's success (R188). -/
theorem Effect.loadTables (s : State) (l : List Byte) : Effect .ucnHeader s
    { s with ram := writeTables s.ram (unpack l), tablesValid := true, result0 := 70#32 } := by
  have hw := writeTables_writes s l
  generalize writeTables s.ram (unpack l) = m at hw ⊢
  exact
    { Effect.same .ucnHeader s with
      result0 := fun h => absurd (by decide) h
      tablesValid := fun h => absurd rfl h
      ram := hw }

theorem opUcnHeader_effect (s : State) : Op.Effective .ucnHeader s (opUcnHeader s) := by
  unfold opUcnHeader
  simp only
  split
  · exact ⟨Effect.clearTables s, by simp [causesOf]⟩
  · rename_i hfit
    have hfit : operandAddr s + 70 ≤ s.params.bufSize := fitsBuf_iff.mp (by simpa using hfit)
    refine Op.Holds.withRead (fun f hf => readBytes_unread (inRegions_buf (by omega)) hf) fun infoBytes _ => ?_
    refine Op.Holds.withRead (fun f hf => readBytes_unread (inRegions_buf (by omega)) hf) fun infoKey _ => ?_
    refine Op.Holds.withRead (fun f hf => readBytes_unread (inRegions_buf (by omega)) hf) fun sigBytes _ => ?_
    refine Op.Holds.withRead (fun f hf => readBytes_unread (inRegions_buf (by omega)) hf) fun sigKey _ => ?_
    refine Op.Holds.withRead (fun f hf => decryptKey_unread hf) fun sig _ => ?_
    split
    · exact ⟨Effect.clearTables s, by simp [causesOf]⟩
    · refine Op.Holds.withRead (fun f hf => decryptKey_unread hf) fun info _ => ?_
      exact Effect.loadTables s info

theorem storeWalk_effect {s : State} {w : Walk}
    (h : Walk.Follows s.params.bufSize (operandAddr s) (walkStart s) w) : Effect .ucnBlock s (storeWalk s w) := by
  have hw : Memory.Writes (stores .ucnBlock s) s.ram w.ram := by
    refine h.writes.mono fun o v hp => ?_
    simp only [walkStart, Nat.add_zero] at hp
    have h0 : bufAt 0 ≤ o := by have := hp.1; simp only [bufAt] at *; omega
    exact ⟨⟨hp.1, hp.2.2⟩, bufAt_inRegions h0 hp.2.2, fun ht => absurd ht (bufAt_not_table hp.1)⟩
  exact
    { Effect.same .ucnBlock s with
      result0 := fun h => absurd (by simp) h
      result1 := fun h => absurd (by simp) h
      ucnIndex := fun h => absurd rfl h
      ram := hw }

theorem opUcnBlock_effect (s : State) : Op.Effective .ucnBlock s (opUcnBlock s) := by
  unfold opUcnBlock
  split
  · exact Op.Effective.raise (by simp [causesOf])
  · split
    · exact Op.Effective.raise (by simp [causesOf])
    · have hfrom := blockWalk_from s
      split
      · rename_i w hw
        rw [hw] at hfrom
        exact storeWalk_effect hfrom
      · rename_i w hw
        rw [hw] at hfrom
        exact ⟨storeWalk_effect hfrom.1, by simp [causesOf]⟩
      · rename_i f hw
        rw [hw] at hfrom
        obtain ⟨o, h1, h2, h3⟩ := hfrom
        refine ⟨o, h1, h3.elim table_inRegions fun h4 => bufAt_inRegions ?_ h4.2, h2⟩
        have := h4.1
        simp only [bufAt] at this ⊢
        omega

/-! ### All commands -/

theorem opOf_effect (i : Instr) (s : State) : Op.Effective i s (opOf i s) := by
  cases i
  · exact opPrngSeed_effect s
  · exact opPrngNext_effect s
  · exact opPrngNextDecrypt_effect s
  · exact opMr0kCheck_effect s
  · exact opMr0kDecrypt_effect s
  · exact opUcnKeyHex_effect s
  · exact opUcnHeader_effect s
  · exact opUcnBlock_effect s

/-- A command that gives a next state left an effect, and raised nothing or one of its causes. -/
theorem exec_next {i : Instr} {s t : State} (h : exec i s = .next t) :
    ∃ u, Effect i s u ∧ (t = finish u ∨ ∃ c ∈ causesOf i, t = finish (raiseErr c u)) := by
  rw [exec_eq] at h
  have he := opOf_effect i s
  rcases complete_next_iff.mp h with ⟨u, hu, ht⟩ | ⟨c, u, hu, ht⟩
  · rw [hu] at he
    exact ⟨u, he, .inl ht⟩
  · rw [hu] at he
    exact ⟨u, he.1, .inr ⟨c, he.2, ht⟩⟩

/-- A command faults only on a byte of the arrays or of BUF that holds no value. -/
theorem exec_fault {i : Instr} {s : State} {f : Fault} (h : exec i s = .fault f) : unread s.params s.ram f := by
  rw [exec_eq, complete_fault_iff] at h
  have he := opOf_effect i s
  rw [h] at he
  exact he

theorem exec_not_refused (i : Instr) (s : State) (r : Refusal) : exec i s ≠ .refused r := by
  rw [exec_eq]
  exact complete_not_refused

end Sys2Proof.Machine
end

