-- ==== Sys2Proof/Laws/Bytes.lean ====
section
/-! SUPPORT. Byte strings byte by byte: what each operation on them yields (spec/00_scope.md R15, spec/42_mr0k.md R159,
spec/43_unitycn.md R182, R185, R186), and that no command reads ERR or the replies (spec/40_command_engine.md R118). -/

namespace Sys2Proof.Machine

/-! ### Strings -/

/-- Equal strings have equal lengths and bytes. -/
theorem bytes_ext {l r : List Byte} (h : l.length = r.length) (hb : ∀ i < l.length, byteOf l i = byteOf r i) : l = r := by
  refine List.ext_getElem h fun i h1 h2 => ?_
  simpa [byteOf, List.getD, h1, h2] using hb i h1

/-- A run of memory bytes given by a function is read as that function's string. -/
theorem readBytes_of_fun {m : Memory} {o n : Nat} {f : Nat → Byte} (h : ∀ i < n, m.read (o + i) = some (f i)) :
    readBytes m o n = .ok ((List.range n).map f) := by
  refine readBytes_ok_iff.mpr ⟨by simp, fun i hi => ?_⟩
  rw [h i hi, byteOf_map_range hi]

theorem xorBytes_length {s t : List Byte} (h : s.length = t.length) : (xorBytes s t).length = s.length := by
  simp [xorBytes, h]

theorem xorBytes_get {s t : List Byte} {i : Nat} (h : s.length = t.length) (hi : i < s.length) :
    byteOf (xorBytes s t) i = byteOf s i ^^^ byteOf t i := by
  simp only [xorBytes, byteOf, List.getD, List.getElem?_zipWith]
  rw [List.getElem?_eq_getElem hi, List.getElem?_eq_getElem (h ▸ hi)]
  rfl

theorem xorInto_length {s t : List Byte} (h : t.length ≤ s.length) : (xorInto s t).length = s.length := by
  induction s generalizing t with
  | nil => cases t <;> simp [xorInto] at *
  | cons a s ih =>
    cases t with
    | nil => simp [xorInto]
    | cons b t => simp only [xorInto, List.length_cons]; rw [ih (by simpa using h)]

/-- The first `t.length` bytes are masked, the rest stay (42_mr0k.md R159). -/
theorem xorInto_get {s t : List Byte} (i : Nat) (h : t.length ≤ s.length) :
    byteOf (xorInto s t) i = if i < t.length then byteOf s i ^^^ byteOf t i else byteOf s i := by
  induction s generalizing t i with
  | nil => cases t <;> simp [xorInto] at *
  | cons a s ih =>
    cases t with
    | nil => simp [xorInto]
    | cons b t =>
      cases i with
      | zero => simp [xorInto, byteOf]
      | succ i =>
        simp only [xorInto, byteOf_cons_succ]
        rw [ih i (by simpa using h)]
        simp

theorem blockOf_of_fun {l : List Byte} {f : Nat → Byte} (h : ∀ i < 16, byteOf l i = f i) :
    blockOf l = Vector.ofFn fun j : Fin 16 => f j.val := by
  unfold blockOf
  congr 1
  funext j
  exact h j j.isLt

/-! ### Little-endian numbers -/

theorem extract_byte {n : Nat} (v : BitVec n) (j : Nat) :
    v.extractLsb' (8 * j) 8 = BitVec.ofNat 8 (v.toNat / 2 ^ (8 * j)) := by
  rw [← BitVec.toNat_inj]
  simp [BitVec.extractLsb'_toNat, Nat.shiftRight_eq_div_pow]

theorem leBytes8_get (v : DWord) {j : Nat} (h : j < 8) :
    byteOf (leBytes8 v) j = BitVec.ofNat 8 (v.toNat / 2 ^ (8 * j)) := by
  rcases (by omega : j = 0 ∨ j = 1 ∨ j = 2 ∨ j = 3 ∨ j = 4 ∨ j = 5 ∨ j = 6 ∨ j = 7) with
    rfl | rfl | rfl | rfl | rfl | rfl | rfl | rfl
  exacts [extract_byte v 0, extract_byte v 1, extract_byte v 2, extract_byte v 3, extract_byte v 4, extract_byte v 5,
    extract_byte v 6, extract_byte v 7]

/-- A byte appended below a number. -/
theorem append_byte {a b : Nat} (hb : b < 2 ^ 8) : a <<< 8 ||| b = a * 256 + b := by
  rw [← Nat.shiftLeft_add_eq_or_of_lt hb, Nat.shiftLeft_eq]

theorem le64_toNat (l : List Byte) :
    (le64 l).toNat = ((List.range 8).map fun i => (byteOf l i).toNat * 2 ^ (8 * i)).sum := by
  unfold le64
  simp only [BitVec.toNat_append, List.range_succ, List.range_zero, List.map_append, List.map_nil, List.map_cons,
    List.sum_append, List.sum_cons, List.sum_nil, List.nil_append]
  have k0 := (byteOf l 0).isLt
  have k1 := (byteOf l 1).isLt
  have k2 := (byteOf l 2).isLt
  have k3 := (byteOf l 3).isLt
  have k4 := (byteOf l 4).isLt
  have k5 := (byteOf l 5).isLt
  have k6 := (byteOf l 6).isLt
  simp only [append_byte k0, append_byte k1, append_byte k2, append_byte k3, append_byte k4, append_byte k5,
    append_byte k6]
  omega

/-! ### Nibbles -/

theorem byteHigh_eq (b : Byte) : b >>> 4 = BitVec.ofNat 8 (b.toNat / 16) := by
  rw [← BitVec.toNat_inj]
  simp [Nat.shiftRight_eq_div_pow]
  omega

theorem byteLow_eq (b : Byte) : b &&& 0x0F#8 = BitVec.ofNat 8 (b.toNat % 16) := by
  have h : b.toNat &&& 15 = b.toNat % 16 := Nat.and_two_pow_sub_one_eq_mod b.toNat 4
  rw [← BitVec.toNat_inj]
  simp [BitVec.toNat_and, h]
  omega

/-- Nibble `i` of an unpacked string: of byte `i / 2`, the high one first (43_unitycn.md R185). -/
theorem unpack_get (l : List Byte) {i : Nat} (h : i < 2 * l.length) :
    byteOf (unpack l) i = if i % 2 = 0 then byteOf l (i / 2) >>> 4 else byteOf l (i / 2) &&& 0x0F#8 := by
  induction l generalizing i with
  | nil => simp at h
  | cons b bs ih =>
    match i with
    | 0 => rfl
    | 1 => rfl
    | i + 2 =>
      simp only [unpack]
      rw [byteOf_cons_succ, byteOf_cons_succ, ih (by simp at h; omega), show (i + 2) % 2 = i % 2 by omega,
        show (i + 2) / 2 = i / 2 + 1 by omega, byteOf_cons_succ]

/-! ### The UnityCN tables -/

theorem writeTables_read (m : Memory) (l : List Byte) (x : Nat) :
    (writeTables m l).read x =
      if 0x0F0 ≤ x ∧ x < 0x100 then some (byteOf (subTable l) (x - 0x0F0))
      else if 0x0E0 ≤ x ∧ x < 0x0F0 then some (byteOf (indexTable l) (x - 0x0E0))
      else m.read x := by
  unfold writeTables
  rw [writeBytes_read, writeBytes_read, subTable_length, indexTable_length]
  rfl

/-- A UCN_HEADER that ends well leaves tables that hold values; one that raises clears TABLES_VALID (R188). -/
theorem opUcnHeader_tables (s : State) : (opUcnHeader s).Holds (fun u => tablesWritten u.ram)
    (fun _ u => u.tablesValid = false) (fun _ => True) := by
  unfold opUcnHeader
  simp only
  split
  · rfl
  · refine .withRead (fun _ _ => trivial) fun _ _ => .withRead (fun _ _ => trivial) fun _ _ =>
      .withRead (fun _ _ => trivial) fun _ _ => .withRead (fun _ _ => trivial) fun _ _ =>
      .withRead (fun _ _ => trivial) fun _ _ => ?_
    split
    · rfl
    · refine .withRead (fun _ _ => trivial) fun info _ => ?_
      intro o ho
      obtain ⟨h1, h2⟩ := ho
      rw [writeTables_read]
      split
      · rfl
      · rw [if_pos (by omega)]; rfl

/-! ### What no command reads -/

/-- Another ERR and other replies. -/
def withErrReplies (e : BitVec 9) (r : List Reply) (s : State) : State := { s with err := e, replies := r }

/-- A change of the state an operation ends in. -/
def Op.map (f : State → State) (o : Op) : Op :=
  match o with
  | .done s => .done (f s)
  | .raise c s => .raise c (f s)
  | .fault x => .fault x

theorem Op.map_withRead {α : Type} (f : State → State) (r : Except Fault α) (k : α → Op) :
    Op.map f (Op.withRead r k) = Op.withRead r (fun a => Op.map f (k a)) := by cases r <;> rfl

theorem Op.map_ite (f : State → State) (c : Prop) [Decidable c] (a b : Op) :
    Op.map f (if c then a else b) = if c then Op.map f a else Op.map f b := by split <;> rfl

/-- ERR and the replies pass through every command unread (R118). -/
theorem opOf_withErrReplies (i : Instr) (s : State) (e : BitVec 9) (r : List Reply) :
    opOf i (withErrReplies e r s) = Op.map (withErrReplies e r) (opOf i s) := by
  cases i <;> simp only [opOf]
  · rfl
  · unfold opPrngNext; rw [Op.map_ite]; rfl
  · unfold opPrngNextDecrypt; simp only [Op.map_ite]; rfl
  · unfold opMr0kCheck; simp only [Op.map_ite, Op.map_withRead]; rfl
  · unfold opMr0kDecrypt; simp only [Op.map_ite, Op.map_withRead]; rfl
  · unfold opUcnKeyHex
    simp only [Op.map_ite, Op.map_withRead]
    have hr : (withErrReplies e r s).ram = s.ram := rfl
    have hp : (withErrReplies e r s).params = s.params := rfl
    have ha : operandAddr (withErrReplies e r s) = operandAddr s := rfl
    have hl : operandLen (withErrReplies e r s) = operandLen s := rfl
    have hc : (withErrReplies e r s).ctrl = s.ctrl := rfl
    rw [hr, hp, ha, hl, hc]
    simp only [Op.map]
    congr 2
    congr 1
    funext key
    cases key <;> rfl
  · unfold opUcnHeader
    simp only [Op.map_ite, Op.map_withRead]
    have hd : ∀ k d, decryptKey (withErrReplies e r s) k d = decryptKey s k d := fun _ _ => rfl
    have ho : operandAddr (withErrReplies e r s) = operandAddr s := rfl
    have hr : (withErrReplies e r s).ram = s.ram := rfl
    have hp : (withErrReplies e r s).params = s.params := rfl
    have hw : ∀ m, withErrReplies e r { s with ram := m, tablesValid := true, result0 := 70#32 } =
        { withErrReplies e r s with ram := m, tablesValid := true, result0 := 70#32 } := fun _ => rfl
    have hq : withErrReplies e r { s with tablesValid := false } =
        { withErrReplies e r s with tablesValid := false } := rfl
    simp only [hd, ho, hr, hp, Op.map, hw, hq]
  · unfold opUcnBlock
    simp only [Op.map_ite]
    rw [show blockWalk (withErrReplies e r s) = blockWalk s from rfl]
    cases blockWalk s <;> rfl

end Sys2Proof.Machine
end

