-- ==== Sys2Proof/Laws/PerInstr.lean ====
section
/-! SUPPORT. One statement about each command as syntax, with one lemma per constructor (LAWS.json: Encoding). -/

namespace Sys2Proof.Laws

/-- A command's word is legal (spec/30_encoding.md R91), decodes to the command, and is the one word of its row of R93. -/
def Encoding.Statement (i : Instr) : Prop :=
  i.wf = true ∧ WellFormed.word (encode i) = true ∧ decodeWord (encode i) = .command i ∧
    decodeTableWord 32 (encode i).toNat = some i

theorem Encoding.prngSeed : Encoding.Statement .prngSeed := by refine ⟨?_, ?_, ?_, ?_⟩ <;> decide
theorem Encoding.prngNext : Encoding.Statement .prngNext := by refine ⟨?_, ?_, ?_, ?_⟩ <;> decide
theorem Encoding.prngNextDecrypt : Encoding.Statement .prngNextDecrypt := by refine ⟨?_, ?_, ?_, ?_⟩ <;> decide
theorem Encoding.mr0kCheck : Encoding.Statement .mr0kCheck := by refine ⟨?_, ?_, ?_, ?_⟩ <;> decide
theorem Encoding.mr0kDecrypt : Encoding.Statement .mr0kDecrypt := by refine ⟨?_, ?_, ?_, ?_⟩ <;> decide
theorem Encoding.ucnKeyHex : Encoding.Statement .ucnKeyHex := by refine ⟨?_, ?_, ?_, ?_⟩ <;> decide
theorem Encoding.ucnHeader : Encoding.Statement .ucnHeader := by refine ⟨?_, ?_, ?_, ?_⟩ <;> decide
theorem Encoding.ucnBlock : Encoding.Statement .ucnBlock := by refine ⟨?_, ?_, ?_, ?_⟩ <;> decide

end Sys2Proof.Laws
end

