-- ==== Sys2Proof/Laws/Port.lean ====
section
/-! SUPPORT. The host port: what an access reaches and everything it can do, said once (spec/20_memory.md R70 to R76,
spec/40_command_engine.md R111, R115). -/

namespace Sys2Proof.Machine

theorem wordRegs_complete (r : WordReg) : r ∈ wordRegs := by cases r <;> decide

theorem find_reg_some {o : Nat} {r : WordReg} (h : wordRegs.find? (fun r => regOffset r == o) = some r) :
    regOffset r = o := by simpa using List.find?_some h

theorem find_reg (r : WordReg) : wordRegs.find? (fun q => regOffset q == regOffset r) = some r := by
  cases r <;> rfl

theorem find_reg_none {o : Nat} (h : ∀ r, regOffset r ≠ o) : wordRegs.find? (fun r => regOffset r == o) = none := by
  simp [List.find?_eq_none, h]

theorem widthBytes_pos (w : Width) : 1 ≤ widthBytes w := by cases w <;> decide

theorem regionAt_some {p : Params} {o n : Nat} {r : ByteRegion} (h : regionAt p o n = some r) :
    regionBase r ≤ o ∧ o + n ≤ regionBase r + regionSize p r := by
  have := List.find?_some h
  simpa using this

/-- No byte lies in two regions. -/
theorem region_unique {p : Params} {o : Nat} {r q : ByteRegion}
    (hr : regionBase r ≤ o ∧ o < regionBase r + regionSize p r)
    (hq : regionBase q ≤ o ∧ o < regionBase q + regionSize p q) : r = q := by
  cases r <;> cases q <;> first | rfl | (simp only [regionBase, regionSize] at hr hq; omega)

theorem regionAt_of_in {p : Params} {o n : Nat} {r : ByteRegion} (hn : 1 ≤ n) (h1 : regionBase r ≤ o)
    (h2 : o + n ≤ regionBase r + regionSize p r) : regionAt p o n = some r := by
  have hs : (regionAt p o n).isSome := by
    rw [regionAt, List.find?_isSome]
    exact ⟨r, by cases r <;> decide, by simp [h1, h2]⟩
  obtain ⟨q, hq⟩ := Option.isSome_iff_exists.mp hs
  have := regionAt_some hq
  rw [hq, region_unique (p := p) (o := o) (r := q) (q := r) ⟨this.1, by omega⟩ ⟨h1, by omega⟩]

/-- No word register lies in a byte region. -/
theorem reg_not_in_region {p : Params} {o : Nat} {r : ByteRegion} (h1 : regionBase r ≤ o)
    (h2 : o < regionBase r + regionSize p r) (q : WordReg) : regOffset q ≠ o := by
  intro h
  cases r <;> cases q <;> simp only [regionBase, regionSize, regOffset] at h h1 h2 <;> omega

theorem targetOf_reg {p : Params} {w : Width} {o : Nat} {r : WordReg} (h : targetOf p w o = .reg r) :
    w = .w32 ∧ o = regOffset r := by
  unfold targetOf at h
  split at h
  · rename_i q hq
    simp only [Target.reg.injEq] at h
    subst h
    exact ⟨rfl, (find_reg_some hq).symm⟩
  · exact absurd h (by simp)
  · split at h
    · split at h <;> exact absurd h (by simp)
    · exact absurd h (by simp)

theorem targetOf_bytes {p : Params} {w : Width} {o : Nat} {r : ByteRegion} (h : targetOf p w o = .bytes r) :
    o % widthBytes w = 0 ∧ regionBase r ≤ o ∧ o + widthBytes w ≤ regionBase r + regionSize p r := by
  unfold targetOf at h
  split at h
  · exact absurd h (by simp)
  · exact absurd h (by simp)
  · split at h
    · rename_i hal
      split at h
      · rename_i q hq
        simp only [Target.bytes.injEq] at h
        subst h
        exact ⟨hal, regionAt_some hq⟩
      · exact absurd h (by simp)
    · exact absurd h (by simp)

theorem targetOf_regOffset (p : Params) (r : WordReg) : targetOf p .w32 (regOffset r) = .reg r := by
  unfold targetOf
  rw [find_reg]

theorem targetOf_region {p : Params} {w : Width} {o : Nat} {r : ByteRegion} (hal : o % widthBytes w = 0)
    (h1 : regionBase r ≤ o) (h2 : o + widthBytes w ≤ regionBase r + regionSize p r) :
    targetOf p w o = .bytes r := by
  have hp := widthBytes_pos w
  unfold targetOf
  rw [find_reg_none (reg_not_in_region (p := p) h1 (by omega)), if_pos hal, regionAt_of_in hp h1 h2]

theorem offsetOf_base (p : Params) {o : Nat} (h : o < windowSize) : offsetOf p (p.base + o) = some o := by
  unfold offsetOf
  rw [if_pos (by omega)]
  simp

theorem offsetOf_some {p : Params} {addr o : Nat} (h : offsetOf p addr = some o) :
    addr = p.base + o ∧ o < windowSize := by
  unfold offsetOf at h
  split at h
  · simp only [Option.some.injEq] at h; omega
  · exact absurd h (by simp)

/-- Everything a host access can do. -/
inductive PortEffect (s : State) (a : Access) : State → Prop where
  /-- an answer and nothing else -/
  | answered (r : Reply) : PortEffect s a (reply r s)
  /-- refused while busy (R115) -/
  | refused (r : Reply) (hb : s.busy = true) (hr : s.inReset = false) : PortEffect s a (reply r (raiseErr .busyAccess s))
  /-- a word register is written while idle -/
  | regWritten (r : WordReg) (v : Word) (hb : s.busy = false) (hr : s.inReset = false)
      (ha : a = .write .w32 (s.params.base + regOffset r) v) : PortEffect s a (reply .writeOk (regWrite s r v))
  /-- bytes of a region are written while idle -/
  | bytesWritten (r : ByteRegion) (w : Width) (o : Nat) (v : Word) (hb : s.busy = false) (hr : s.inReset = false)
      (ha : a = .write w (s.params.base + o) v) (h1 : regionBase r ≤ o)
      (h2 : o + widthBytes w ≤ regionBase r + regionSize s.params r) :
      PortEffect s a (reply .writeOk (regionWrite s r w o v))

theorem portAccess_effect (s : State) (a : Access) : PortEffect s a (portAccess s a) := by
  unfold portAccess
  split
  · exact .answered _
  · rename_i hr
    have hr : s.inReset = false := by simpa using hr
    split
    · exact .answered _
    · rename_i o ho
      obtain ⟨haddr, _⟩ := offsetOf_some ho
      split
      · rename_i hb
        unfold busyAccess
        split
        · exact .answered _
        · exact .refused _ hb hr
      · rename_i hb
        have hb : s.busy = false := by simpa using hb
        cases a with
        | read w addr => unfold idleAccess; simp only; split <;> exact .answered _
        | write w addr v =>
          simp only [accessAddr] at haddr
          unfold idleAccess
          simp only
          split
          · rename_i r ht
            obtain ⟨hw, hof⟩ := targetOf_reg ht
            exact .regWritten r v hb hr (by rw [hw, haddr, hof])
          · rename_i r ht
            obtain ⟨_, h1, h2⟩ := targetOf_bytes ht
            exact .bytesWritten r w o v hb hr (by rw [haddr]) h1 h2
          · exact .answered _

theorem lanesOf_length (w : Width) (v : Word) : (lanesOf w v).length = widthBytes w := by cases w <;> rfl

/-- A host write to a byte region writes inside the region, and the tables not at all. -/
theorem regionWrite_writes {s : State} {r : ByteRegion} {w : Width} {o : Nat} {v : Word} (h1 : regionBase r ≤ o)
    (h2 : o + widthBytes w ≤ regionBase r + regionSize s.params r) :
    Memory.Writes (fun x _ => (regionBase r ≤ x ∧ x < regionBase r + regionSize s.params r) ∧ ¬ (0x0E0 ≤ x ∧ x < 0x100))
      s.ram (regionWrite s r w o v).ram := by
  unfold regionWrite
  split
  · rename_i hw
    refine writeBytes_writes fun i hi => ?_
    rw [lanesOf_length] at hi
    refine ⟨by omega, fun ht => ?_⟩
    cases r <;> simp [regionWritable] at hw <;> simp only [regionBase, regionSize] at h1 h2 <;> omega
  · exact .refl

end Sys2Proof.Machine
end

