-- ==== Sys2Proof/Laws/Step.lean ====
section
/-! SUPPORT. Everything one step can do, said once (spec/40_command_engine.md R112, R117, spec/70_reset_and_hazards.md
R260): every whole-machine claim is a case analysis over `step_cases`. -/

namespace Sys2Proof.Machine

/-- The state a step acts on once its turn is off the agenda. -/
def afterTurn (s : State) : State := { s with agenda := s.agenda.tail }

/-- The engine step: exec of the decoded word, or ILLEGAL_CMD. -/
inductive EngineEffect (s : State) : State → Prop where
  | command (i : Instr) {u t : State} (hd : decodeWord s.lastCmd = .command i) (he : Effect i s u)
      (hx : exec i s = .next t)
      (ht : t = finish u ∨ ∃ c ∈ causesOf i, t = finish (raiseErr c u)) : EngineEffect s t
  | illegal (why : Illegal) (hd : decodeWord s.lastCmd = .illegal why) :
      EngineEffect s (finish (raiseErr .illegalCmd s))

theorem runCommand_next {s t : State} (h : runCommand s = .next t) : EngineEffect s t := by
  unfold runCommand at h
  split at h
  · rename_i i hd
    obtain ⟨u, he, ht⟩ := exec_next h
    exact .command i hd he h ht
  · rename_i why hd
    simp only [execIllegal, complete, Host.Outcome.next.injEq] at h
    exact h ▸ .illegal why hd

theorem runCommand_fault {s : State} {f : Fault} (h : runCommand s = .fault f) : unread s.params s.ram f := by
  unfold runCommand at h
  split at h
  · exact exec_fault h
  · simp [execIllegal, complete] at h

theorem runCommand_not_refused (s : State) (r : Refusal) : runCommand s ≠ .refused r := by
  unfold runCommand
  split
  · exact exec_not_refused _ _ _
  · simp [execIllegal, complete]

/-- Everything a step can do, from `s` with its turn taken off the agenda. -/
inductive StepEffect (s : State) : State → Prop where
  /-- nothing but the turn itself -/
  | idle : StepEffect s (afterTurn s)
  | engine {t : State} (hb : s.busy = true) (hr : s.inReset = false) (he : EngineEffect (afterTurn s) t) :
      StepEffect s t
  | host {t : State} (a : Access) (rest : List Turn) (ha : s.agenda = .host a :: rest)
      (he : PortEffect (afterTurn s) a t) : StepEffect s t
  | assertReset (rest : List Turn) (ha : s.agenda = .assertReset :: rest) :
      StepEffect s (Sys2Proof.Machine.assertReset (afterTurn s))
  | releaseReset (rest : List Turn) (ha : s.agenda = .releaseReset :: rest) :
      StepEffect s (Sys2Proof.Machine.releaseReset (afterTurn s))

theorem engineTurn_cases {s : State} :
    (engineTurn s = .next s) ∨ (s.busy = true ∧ s.inReset = false ∧ engineTurn s = runCommand s) := by
  unfold engineTurn engineEnabled
  split
  · rename_i h
    simp only [Bool.and_eq_true, Bool.not_eq_true'] at h
    exact .inr ⟨h.1, h.2, rfl⟩
  · exact .inl rfl

theorem step_eq (s : State) :
    step s = match s.agenda with
      | [] => engineTurn (afterTurn s)
      | t :: _ => takeTurn t (afterTurn s) := by
  obtain ⟨⟩ := s
  rename_i agenda _
  cases agenda <;> rfl

theorem step_cases {s t : State} (h : step s = .next t) : StepEffect s t := by
  have engine : engineTurn (afterTurn s) = .next t → StepEffect s t := by
    intro h
    rcases engineTurn_cases (s := afterTurn s) with he | ⟨hb, hr, he⟩
    · rw [he] at h
      simp only [Host.Outcome.next.injEq] at h
      exact h ▸ .idle
    · rw [he] at h
      exact .engine hb hr (runCommand_next h)
  rw [step_eq] at h
  split at h
  · exact engine h
  · rename_i turn rest ha
    cases turn with
    | host a =>
      simp only [takeTurn, Host.Outcome.next.injEq] at h
      exact .host a rest ha (h ▸ portAccess_effect _ a)
    | engine => exact engine h
    | assertReset =>
      simp only [takeTurn, Host.Outcome.next.injEq] at h
      exact h ▸ .assertReset rest ha
    | releaseReset =>
      simp only [takeTurn, Host.Outcome.next.injEq] at h
      exact h ▸ .releaseReset rest ha

theorem step_fault {s : State} {f : Fault} (h : step s = .fault f) : s.busy = true ∧ unread s.params s.ram f := by
  have engine : engineTurn (afterTurn s) = .fault f → s.busy = true ∧ unread s.params s.ram f := by
    intro h
    rcases engineTurn_cases (s := afterTurn s) with he | ⟨hb, _, he⟩
    · rw [he] at h; exact absurd h (by simp)
    · rw [he] at h
      have hf := runCommand_fault h
      exact ⟨hb, hf⟩
  rw [step_eq] at h
  split at h
  · exact engine h
  · rename_i turn rest ha
    cases turn with
    | host a => exact absurd h (by simp [takeTurn])
    | engine => exact engine h
    | assertReset => exact absurd h (by simp [takeTurn])
    | releaseReset => exact absurd h (by simp [takeTurn])

theorem step_not_refused (s : State) (r : Refusal) : step s ≠ .refused r := by
  have engine : engineTurn (afterTurn s) ≠ .refused r := by
    rcases engineTurn_cases (s := afterTurn s) with he | ⟨_, _, he⟩ <;> rw [he]
    · simp
    · exact runCommand_not_refused _ _
  rw [step_eq]
  split
  · exact engine
  · rename_i turn rest _
    cases turn with
    | host a => simp [takeTurn]
    | engine => exact engine
    | assertReset => simp [takeTurn]
    | releaseReset => simp [takeTurn]

/-- Asserting reset: nothing while it is asserted already, else the reset registers, or those with the free values of an
abandoned command. -/
theorem assertReset_cases (s : State) :
    (s.inReset = true ∧ assertReset s = s) ∨
    (s.inReset = false ∧ (assertReset s = resetRegisters s ∨
      (s.busy = true ∧ ∃ i, decodeWord s.lastCmd = .command i ∧ assertReset s = abandonCommand i (resetRegisters s)))) := by
  unfold assertReset
  split
  · rename_i h; exact .inl ⟨h, rfl⟩
  · rename_i h
    refine .inr ⟨by simpa using h, ?_⟩
    split
    · rename_i hb
      split
      · rename_i i hd; exact .inr ⟨hb, i, hd, rfl⟩
      · exact .inl rfl
    · exact .inl rfl

/-- What an abandoned command leaves alone, whichever it is. -/
theorem abandonCommand_keeps (i : Instr) (s : State) :
    (abandonCommand i s).params = s.params ∧ (abandonCommand i s).busy = s.busy ∧ (abandonCommand i s).done = s.done ∧
    (abandonCommand i s).err = s.err ∧ (abandonCommand i s).ram = s.ram ∧ (abandonCommand i s).inReset = s.inReset ∧
    (abandonCommand i s).agenda = s.agenda ∧ (abandonCommand i s).replies = s.replies := by
  cases i <;> exact ⟨rfl, rfl, rfl, rfl, rfl, rfl, rfl, rfl⟩

theorem assertReset_reset {s : State} (h : s.inReset = false) :
    (assertReset s).params = s.params ∧ (assertReset s).busy = false ∧ (assertReset s).done = false ∧
    (assertReset s).err = 0#9 ∧ (assertReset s).ram = [] ∧ (assertReset s).inReset = true ∧
    (assertReset s).agenda = s.agenda ∧ (assertReset s).replies = s.replies := by
  rcases assertReset_cases s with ⟨h', _⟩ | ⟨_, he | ⟨_, i, _, he⟩⟩
  · rw [h] at h'; exact absurd h' (by simp)
  · rw [he]; exact ⟨rfl, rfl, rfl, rfl, rfl, rfl, rfl, rfl⟩
  · rw [he]; exact abandonCommand_keeps i (resetRegisters s)

end Sys2Proof.Machine
end

