-- ==== Sys2Proof/Tests/Slice0.lean ====
section
/-! SUPPORT. The model's own tests. Expected values are the words of spec/30_encoding.md R93 and the vectors of
spec/95_test_vectors.md (the section is named on each), worked out there from the rules, not by this model. -/

namespace Sys2Proof.Tests
open Sys2Proof.Machine
open Sys2Proof.Spec

/- One theorem at a time: kernel evaluations that wait for one another each hold a thread. -/
set_option Elab.async false

/-- The state an outcome holds; the reset state for a fault (a test then fails on the field it looks at). -/
def after (o : Host.Outcome State Fault Refusal) : State :=
  match o with
  | .next s => s
  | .fault _ => State.reset
  | .refused _ => State.reset

/-- Whether an outcome is a next state. -/
def goesOn (o : Host.Outcome State Fault Refusal) : Bool :=
  match o with
  | .next _ => true
  | .fault _ => false
  | .refused _ => false

/-- The fault of an outcome. -/
def faultOf (o : Host.Outcome State Fault Refusal) : Option Fault :=
  match o with
  | .next _ => none
  | .fault f => some f
  | .refused _ => none

/-- The bytes at window offset `o`, in order. -/
def bytesAt (s : State) (o n : Nat) : List (Option Byte) := (List.range n).map (fun i => s.ram.read (o + i))

/-- Reset with BUF bytes from offset `a`, and the operand registers. -/
def withBuf (a : Nat) (bytes : List Byte) (addr len : Word) : State :=
  { State.reset with ram := writeBytes [] (bufAt a) bytes, opAddr := addr, opLen := len }

/-- Reset, then seeded with `v`. -/
def seeded (v : Word) : State := after (exec .prngSeed { State.reset with opVal := v })

/-! ### Encoding: words written out bit by bit from 30_encoding.md R90, R93 -/

theorem test_decode_prng_seed :
    decodeWord 0b00000000_00000000_00000000_00000001#32 = .command .prngSeed := by decide
theorem test_decode_prng_next :
    decodeWord 0b00000000_00000000_00000000_00000010#32 = .command .prngNext := by decide
theorem test_decode_prng_next_decrypt :
    decodeWord 0b00000000_00000000_00000000_00000011#32 = .command .prngNextDecrypt := by decide
theorem test_decode_mr0k_check :
    decodeWord 0b00000000_00000000_00000000_00010000#32 = .command .mr0kCheck := by decide
theorem test_decode_mr0k_decrypt :
    decodeWord 0b00000000_00000000_00000000_00010001#32 = .command .mr0kDecrypt := by decide
theorem test_decode_ucn_key_hex :
    decodeWord 0b00000000_00000000_00000000_00100000#32 = .command .ucnKeyHex := by decide
theorem test_decode_ucn_header :
    decodeWord 0b00000000_00000000_00000000_00100001#32 = .command .ucnHeader := by decide
theorem test_decode_ucn_block :
    decodeWord 0b00000000_00000000_00000000_00100010#32 = .command .ucnBlock := by decide

/-- 40_command_engine.md R117: "word 0x00000101 (RSVD != 0, OPCODE a legal 0x01) is illegal". -/
theorem test_decode_reserved_bits : decodeWord 0x00000101#32 = .illegal .reservedBits := by decide
/-- 30_encoding.md R94: OPCODE 0x00 and 0x04 to 0x0F are illegal. -/
theorem test_decode_unknown_opcode :
    decodeWord 0x00000000#32 = .illegal .unknownOpcode ∧ decodeWord 0x00000004#32 = .illegal .unknownOpcode := by
  decide

theorem test_decode_table_word :
    decodeTableWord 32 0x22 = some .ucnBlock ∧ decodeTableWord 32 0x101 = none := by decide

/-! ### WellFormed: an ill-formed word for each check -/

theorem test_wf_refuses_reserved_bits : WellFormed.rsvdZero 0x00000101#32 = false := by decide
theorem test_wf_refuses_unknown_opcode : WellFormed.opcodeKnown 0x00000012#32 = false := by decide
theorem test_wf_refuses_word :
    WellFormed.word 0x80000001#32 = false ∧ WellFormed.word 0x000000FF#32 = false := by decide

/-! ### PRNG: 95_test_vectors.md section 2 -/

theorem test_seed_one :
    (seeded 1#32).prng
      = { x := 0x00000001#32, y := 0x6C078966#32, z := 0x714ACB3F#32, w := 0xDBFFE6DC#32 } := by decide
theorem test_seed_all_ones :
    (seeded 0xFFFFFFFF#32).prng
      = { x := 0xFFFFFFFF#32, y := 0x93F8769C#32, z := 0x66C4478D#32, w := 0x0695AFA2#32 } := by decide
theorem test_next_first_output :
    (after (exec .prngNext (seeded 0x12345678#32))).result0 = 0x436D7552#32 := by decide
/-- Section 2.2, the corner: unseeded. -/
theorem test_next_unseeded :
    (after (exec .prngNext State.reset)).err = 0b000000010#9
      ∧ (after (exec .prngNext State.reset)).result0 = 0#32 := by decide
/-- Section 2.3, row 4. -/
theorem test_next_decrypt_bytes :
    bytesAt (after (exec .prngNextDecrypt { seeded 0x12345678#32 with opAddr := 0x10#32, opLen := 16#32 })) (bufAt 0x10) 16
      = [0x31#8, 0xA9#8, 0x9E#8, 0x31#8, 0x07#8, 0x79#8, 0x37#8, 0xB2#8,
         0x07#8, 0x37#8, 0x31#8, 0x32#8, 0xB2#8, 0xA9#8, 0xA9#8, 0x31#8].map some := by decide
theorem test_next_decrypt_key :
    let s := after (exec .prngNextDecrypt { seeded 0x12345678#32 with opAddr := 0x10#32, opLen := 16#32 })
    s.result0 = 0xA9313207#32 ∧ s.result1 = 0x9E3779B2#32 ∧ s.prng.w = 0xA7D0CE22#32 := by decide

/-! ### Mr0k: 95_test_vectors.md section 3 -/

theorem test_check_magic :
    (after (exec .mr0kCheck (withBuf 0 [0x6D#8, 0x72#8, 0x30#8, 0x6B#8] 0#32 4#32))).result0 = 1#32 := by decide
theorem test_check_case :
    (after (exec .mr0kCheck { withBuf 0 [0x6D#8, 0x72#8, 0x30#8, 0x4B#8] 0#32 4#32 with result0 := 7#32 })).result0
      = 0#32 := by decide

/-- Section 3.2. -/
theorem test_block_len :
    [0x94, 275, 276, 404, 8339, 8340, 8724].map mr0kBlockLen = [0, 0, 16, 32, 1008, 1024, 1024] := by decide

/-- Section 3.3, the buffer of M1. -/
def m1Buf (len : Nat) : List Byte :=
  [0x6D#8, 0x72#8, 0x30#8, 0x6B#8] ++ (List.range (len - 4)).map (fun i => BitVec.ofNat 8 (7 * (i + 4) + 3))

/-- Section 3.3, M1: IV 01..10, SBOX[r*256+v] = v ^ 0x11 r (the 16 entries step 4 looks up), BlockKey AA BB CC DD. -/
def m1 : State :=
  let key1 := (m1Buf 20).drop 4
  let sbox := (key1.zipIdx.map fun (b, i) =>
    (0x400 + (i % 4) * 256 + b.toNat, b ^^^ BitVec.ofNat 8 (0x11 * (i % 4))))
  let ram1 := writeBytes [] 0x080 ((List.range 16).map (fun i => BitVec.ofNat 8 (i + 1)))
  let ram2 := writeBytes ram1 0x0A0 [0xAA#8, 0xBB#8, 0xCC#8, 0xDD#8]
  let ram3 := sbox.foldl (fun m e => m.write e.1 e.2) ram2
  { State.reset with
    ram := ram3 ++ (m1Buf 404).zipIdx.map fun (b, i) => (bufAt i, b)
    opAddr := 0#32
    opLen := 404#32
    profile := { ivLen := 16#5, sboxEn := true, ekLen := 0#8, pkLen := 0#5, bkLen := 4#5 } }

theorem test_decrypt_folded_key :
    bytesAt (after (exec .mr0kDecrypt m1)) (bufAt 0x84) 4 = [0x80#8, 0x91#8, 0xA2#8, 0xB3#8].map some := by
  decide +kernel
theorem test_decrypt_block :
    bytesAt (after (exec .mr0kDecrypt m1)) (bufAt 0x94) 40
      = [0xBA#8, 0x0A#8, 0x7C#8, 0x4D#8, 0x3A#8, 0x4B#8, 0x3C#8, 0x4D#8,
         0xF2#8, 0x52#8, 0x34#8, 0x35#8, 0x72#8, 0x13#8, 0x74#8, 0x75#8,
         0xCA#8, 0x9A#8, 0xEC#8, 0xFD#8, 0x8A#8, 0xDB#8, 0xAC#8, 0xBD#8,
         0x02#8, 0xA2#8, 0xA4#8, 0xA5#8, 0xC2#8, 0xA3#8, 0xE4#8, 0xE5#8,
         0xEF#8, 0xF6#8, 0xFD#8, 0x04#8, 0x0B#8, 0x12#8, 0x19#8, 0x20#8].map some := by
  decide +kernel

/-! ### UnityCN: 95_test_vectors.md section 4 -/

/-- Section 4.2, header H1. -/
def h1 : List Byte :=
  List.replicate 4 0#8
    ++ [0x37#8, 0x1F#8, 0x09#8, 0xC5#8, 0xE2#8, 0x8B#8, 0x6D#8, 0x4A#8,
        0x12#8, 0x34#8, 0x56#8, 0x78#8, 0x9A#8, 0xBC#8, 0xDE#8, 0xF0#8]
    ++ List.replicate 16 0#8 ++ [0#8]
    ++ [0x23#8, 0x24#8, 0x75#8, 0x6E#8, 0x69#8, 0x74#8, 0x79#8, 0x33#8,
        0x64#8, 0x63#8, 0x68#8, 0x69#8, 0x6E#8, 0x61#8, 0x21#8, 0x40#8]
    ++ List.replicate 16 0#8 ++ [0#8]

/-- Section 4.1, the tables. -/
def indexTbl : List Byte :=
  [3#8, 7#8, 1#8, 0xF#8, 0#8, 9#8, 0xC#8, 5#8, 0xE#8, 2#8, 8#8, 0xB#8, 6#8, 0xD#8, 4#8, 0xA#8]
def subTbl : List Byte :=
  [1#8, 5#8, 9#8, 0xD#8, 2#8, 6#8, 0xA#8, 0xE#8, 3#8, 7#8, 0xB#8, 0xF#8, 4#8, 8#8, 0xC#8, 0#8]

theorem test_header_index_table :
    bytesAt (after (exec .ucnHeader (withBuf 0 h1 0#32 0#32))) 0x0E0 16 = indexTbl.map some := by decide +kernel
theorem test_header_sub_table :
    bytesAt (after (exec .ucnHeader (withBuf 0 h1 0#32 0#32))) 0x0F0 16 = subTbl.map some := by decide +kernel
/-- Section 4.2: signature byte 0 changed to 0x24. -/
theorem test_header_bad_signature :
    let s := after (exec .ucnHeader { withBuf 0 (h1.set 37 0x24#8) 0#32 0#32 with tablesValid := true })
    s.err = 0b001000000#9 ∧ s.tablesValid = false := by decide +kernel

/-- Section 4.4: the text of 32 characters, then lower-case 'g' as the last one. -/
def hexText (last : Byte) : List Byte :=
  ((List.range 10).flatMap fun i => [0x30#8, BitVec.ofNat 8 (0x30 + i)])
    ++ [0x30#8, 0x61#8, 0x30#8, 0x42#8, 0x30#8, 0x63#8, 0x30#8, 0x44#8, 0x30#8, 0x65#8, 0x30#8, last]

theorem test_key_hex_loads :
    let s := after (exec .ucnKeyHex (withBuf 0x200 (hexText 0x66#8) 0x200#32 32#32))
    bytesAt s 0x0C0 16 = (List.range 16).map (fun i => some (BitVec.ofNat 8 i)) ∧ s.ctrl.akeyEn = true := by
  decide +kernel
theorem test_key_hex_bad_digit :
    let s := after (exec .ucnKeyHex (withBuf 0x200 (hexText 0x67#8) 0x200#32 32#32))
    s.err = 0b010000000#9 ∧ s.ctrl.akeyEn = false := by decide +kernel

/-- A state ready for UCN_BLOCK: the tables of section 4.1. -/
def blockState (a : Nat) (bytes : List Byte) (len idx : Word) : State :=
  { State.reset with
    ram := writeBytes (writeBytes (writeBytes [] 0x0E0 indexTbl) 0x0F0 subTbl) (bufAt a) bytes
    opAddr := BitVec.ofNat 32 a
    opLen := len
    ucnIndex := idx
    tablesValid := true }

/-- Section 4.5, worked. -/
theorem test_subst_worked :
    subst (blockState 0 [] 0#32 0#32).ram 0x37#8 0#32 = Except.ok 0x5B#8
      ∧ subst (blockState 0 [] 0#32 0#32).ram 0xFF#8 320#32 = Except.ok 0xCC#8 := ⟨rfl, rfl⟩

/-- Section 4.6, U3. -/
theorem test_block_u3 :
    let s := after (exec .ucnBlock (blockState 0 [0xB5#8, 0x71#8, 0x89#8, 0x99#8, 0x77#8, 0x80#8, 0x99#8] 7#32 0#32))
    bytesAt s (bufAt 0) 7 = [0x1F#8, 0x71#8, 0x04#8, 0x00#8, 0xFF#8, 0x05#8, 0x00#8].map some
      ∧ s.result0 = 7#32 ∧ s.ucnIndex = 6#32 ∧ s.result1 = 2#32 := by decide +kernel
/-- Section 4.6, U5: the walk reaches BUF's end. -/
theorem test_block_u5 :
    let s := after (exec .ucnBlock (blockState 65531 [0xDF#8, 0x61#8, 0x62#8, 0x63#8, 0x87#8] 5#32 0#32))
    bytesAt s (bufAt 65531) 5 = [0x30#8, 0x61#8, 0x62#8, 0x63#8, 0x07#8].map some
      ∧ s.err = 0b000010000#9 ∧ s.result0 = 5#32 ∧ s.ucnIndex = 2#32 ∧ s.result1 = 0#32 := by decide +kernel
/-- Section 4.6, U2: a continuation byte, 17 literals. -/
theorem test_block_u2 :
    let s := after (exec .ucnBlock (blockState 0
      ([0x5B#8, 0x84#8] ++ (List.range 17).map (fun i => BitVec.ofNat 8 (0x41 + i)) ++ [0x97#8, 0xCC#8, 0x38#8, 0x5A#8])
      23#32 0#32))
    bytesAt s (bufAt 0) 2 = [0xF1#8, 0x02#8].map some
      ∧ bytesAt s (bufAt 19) 4 = [0x03#8, 0x00#8, 0x10#8, 0x5A#8].map some
      ∧ s.result0 = 23#32 ∧ s.ucnIndex = 5#32 ∧ s.result1 = 2#32 := by decide +kernel

/-! ### Engine and port: 95_test_vectors.md section 5 -/

/-- Reset with one host access to come. -/
def withAccess (a : Access) (s : State) : State := { s with agenda := [.host a] }

theorem test_illegal_word :
    let s := after (step (State.reset.withFetchWord 32 0xFF))
    s.err = 1#9 ∧ statusWord s = 0x12#32 := by decide
theorem test_first_after_reset :
    [0x01, 0x02, 0x03, 0x10, 0x11, 0x20, 0x22].all (fun w => goesOn (step (State.reset.withFetchWord 32 w))) = true := by
  decide +kernel
/-- 10_state.md R61: the header's first field byte was never written. -/
theorem test_header_unwritten :
    faultOf (step (State.reset.withFetchWord 32 0x21)) = some (.unwrittenByte 0x10004) := by decide +kernel
theorem test_busy_write_refused :
    let s := after (step (withAccess (.write .w32 0x014 0#32) { State.reset with busy := true, opAddr := 7#32 }))
    s.replies = [.writeSlverr] ∧ s.err = 0b100000000#9 ∧ s.opAddr = 7#32 := by decide +kernel
theorem test_busy_status_answered :
    (after (step (withAccess (.read .w32 0x008) { State.reset with busy := true }))).replies = [.readOk 1#32] := by
  decide +kernel
theorem test_narrow_register_write :
    (after (step (withAccess (.write .w8 0x004 1#32) State.reset))).replies = [.writeSlverr] := by decide +kernel
theorem test_reserved_read :
    (after (step (withAccess (.read .w32 0x028) State.reset))).replies = [.readSlverr 0#32] := by decide +kernel
theorem test_misaligned_buf_write :
    let s := after (step (withAccess (.write .w32 0x10002 0xFFFFFFFF#32) State.reset))
    s.replies = [.writeSlverr] ∧ s.ram = [] := by decide +kernel
theorem test_little_endian_lanes :
    (after (step (withAccess (.write .w32 0x10000 0x6B30726D#32) State.reset))).ram.read 0x10000 = some 0x6D#8 := by
  decide +kernel
theorem test_err_w1c :
    (after (step (withAccess (.write .w32 0x00C 0x010#32) { State.reset with err := 0x012#9 }))).err = 0x002#9 := by
  decide +kernel
theorem test_issue :
    let s := after (step (withAccess (.write .w32 0x010 0x101#32) { State.reset with done := true }))
    s.busy = true ∧ s.done = false ∧ s.lastCmd = 0x101#32 := by decide +kernel

/-! ## Witnesses: for every statement with hypotheses, a concrete state and operands that meet them, one for each clause,
at boundary values where a clause has a range. -/

/-- A command word is running. -/
def running (v : Word) (s : State) : State := { s with lastCmd := v, busy := true }

/-- Operand registers. -/
def operands (a n : Word) (s : State) : State := { s with opAddr := a, opLen := n }

/-- One turn to come. -/
def withTurn (t : Turn) (s : State) : State := { s with agenda := [t] }

/-- `n` bytes of one value. -/
def fill (m : Memory) (o n : Nat) (b : Byte) : Memory := writeBytes m o (List.replicate n b)

theorem byteOf_replicate {n i : Nat} {b : Byte} (h : i < n) : byteOf (List.replicate n b) i = b := by
  simp [byteOf, List.getD, h]

theorem fill_read (m : Memory) (o n x : Nat) (b : Byte) :
    (fill m o n b).read x = if o ≤ x ∧ x < o + n then some b else m.read x := by
  unfold fill
  rw [writeBytes_read, List.length_replicate]
  split
  · rw [byteOf_replicate (by omega)]
  · rfl

/-! ### The step -/

theorem witness_StepRunsDecodedCommand :
    let s := running 0x22#32 State.reset
    s.busy = true ∧ s.inReset = false ∧ decodeWord s.lastCmd = .command .ucnBlock ∧ s.agenda = []
      ∧ (withTurn .engine s).agenda = [.engine] := ⟨rfl, rfl, by decide, rfl, rfl⟩
theorem witness_IllegalWordRaisesIllegalCmd :
    [0x00#32, 0x04#32, 0x12#32, 0x23#32, 0x101#32, 0xFFFFFFFF#32].all (fun v =>
      let s := withTurn .engine (running v State.reset)
      decide (s.lastCmd ∉ [0x01#32, 0x02#32, 0x03#32, 0x10#32, 0x11#32, 0x20#32, 0x21#32, 0x22#32]
        ∧ s.busy = true ∧ s.inReset = false ∧ s.agenda = [.engine])) = true := by decide +kernel
theorem witness_IdleBlockWaits :
    State.reset.busy = false ∧ State.reset.agenda = [] ∧ (withTurn .engine State.reset).agenda = [.engine] :=
  ⟨rfl, rfl, rfl⟩
theorem witness_PlacedWordRunsNext : decodeTableWord 32 0x22 = some .ucnBlock ∧ 0x22 < 2 ^ 32 := by decide
/-- The fault is at BUF[4], a byte of the BUF row. -/
theorem witness_StepFaultsOnlyOnUnwrittenBytes :
    faultOf (step (running 0x21#32 State.reset)) = some (.unwrittenByte 0x10004)
      ∧ inRegions State.reset.params 0x10004 := ⟨by decide +kernel, .buf, by decide, by decide⟩

/-! ### Reset -/

theorem witness_ResetOfIdleBlock :
    let s := withTurn .assertReset (operands 5#32 6#32 State.reset)
    s.inReset = false ∧ s.busy = false ∧ s.agenda = [.assertReset] := ⟨rfl, rfl, rfl⟩
theorem witness_ResetAbandonsCommand :
    let s := withTurn .assertReset (running 0x01#32 State.reset)
    s.inReset = false ∧ s.busy = true ∧ decodeWord s.lastCmd = .command .prngSeed ∧ s.agenda = [.assertReset] :=
  ⟨rfl, rfl, by decide, rfl⟩
theorem witness_ResetAbandonsCommand_illegal :
    let s := withTurn .assertReset (running 0x101#32 State.reset)
    s.inReset = false ∧ s.busy = true ∧ decodeWord s.lastCmd = .illegal .reservedBits ∧ s.agenda = [.assertReset] :=
  ⟨rfl, rfl, by decide, rfl⟩
theorem witness_NothingMovesInReset :
    ∀ t ∈ [Turn.host (.read .w32 0), .engine, .assertReset, .releaseReset],
      (withTurn t { State.reset with inReset := true }).inReset = true
        ∧ (withTurn t { State.reset with inReset := true }).agenda = [t] := by decide

/-! ### The port -/

theorem witness_CommandWriteIssues :
    idleWith (withAccess (.write .w32 0x010 0xFFFFFFFF#32) State.reset) (.write .w32 0x010 0xFFFFFFFF#32) [] :=
  ⟨rfl, rfl, rfl⟩
/-- ID, STATUS, ERR; a narrow read of ID; a write to the last offset of the window. -/
theorem witness_BusyBlockRefusesAccesses :
    ∀ a ∈ [Access.read .w32 0x000, .read .w32 0x008, .read .w32 0x00C, .read .w8 0x000,
        .write .w8 (0x10000 + 2 ^ 23 - 1) 0#32],
      let s := withAccess a (running 0x01#32 State.reset)
      s.inReset = false ∧ s.busy = true ∧ s.agenda = [.host a] ∧
        ∃ o < 0x10000 + 2 ^ 23, accessAddr a = s.params.base + o := by
  intro a ha
  refine ⟨rfl, rfl, rfl, accessAddr a, ?_, (Nat.zero_add _).symm⟩
  revert a
  decide +kernel
theorem witness_AccessOutsideWindowIgnored :
    (let s := withAccess (.read .w32 15) { State.reset with params := { Params.default with base := 16 } }
     s.agenda = [.host (.read .w32 15)] ∧ accessAddr (.read .w32 15) < s.params.base) ∧
    (let s := withAccess (.read .w32 (0x10000 + 2 ^ 23)) State.reset
     s.params.base + (0x10000 + 2 ^ 23) ≤ accessAddr (.read .w32 (0x10000 + 2 ^ 23))) := by decide +kernel
/-- Legal: the last EXPKEY byte, the last BUF byte, a word register. -/
theorem witness_IllegalAccessesGetSlverr_legal :
    legalAt Params.default .w8 0x8EF ∧ legalAt Params.default .w8 0x1FFFF ∧ legalAt Params.default .w32 0x0D0 :=
  ⟨.inr ⟨by decide, .expKey, by decide, by decide⟩, .inr ⟨by decide, .buf, by decide, by decide +kernel⟩,
    .inl ⟨rfl, .ucnIndex, rfl⟩⟩
/-- Illegal: a reserved offset, the offset past EXPKEY, a misaligned BUF word, a narrow register access. -/
theorem witness_IllegalAccessesGetSlverr_illegal :
    ¬ legalAt Params.default .w32 0x028 ∧ ¬ legalAt Params.default .w8 0x8F0
      ∧ ¬ legalAt Params.default .w32 0x10002 ∧ ¬ legalAt Params.default .w8 0x004 := by
  refine ⟨?_, ?_, ?_, ?_⟩ <;>
  · rintro (⟨hw, r, hr⟩ | ⟨hal, r, h1, h2⟩)
    · revert hr hw; cases r <;> decide
    · revert hal h1 h2; cases r <;> decide
theorem witness_IllegalAccessesGetSlverr_idle (w : Width) (o : Nat) (v : Word) :
    idleWith (withAccess (.read w o) State.reset) (.read w (State.reset.params.base + o)) [] ∧
    idleWith (withAccess (.write w o v) State.reset) (.write w (State.reset.params.base + o) v) [] := by
  rw [show State.reset.params.base + o = o from Nat.zero_add o]
  exact ⟨⟨rfl, rfl, rfl⟩, ⟨rfl, rfl, rfl⟩⟩
/-- An idle state about to read the register, for every register. -/
theorem witness_RegisterReads (r : WordReg) :
    idleWith (withAccess (.read .w32 (regRow r)) State.reset) (.read .w32 (State.reset.params.base + regRow r)) [] :=
  (witness_IllegalAccessesGetSlverr_idle .w32 (regRow r) 0#32).1
theorem witness_RegisterWritesStore :
    rwMask .ekLen = some 0xFF#32 ∧
    idleWith (withAccess (.write .w32 (regRow .ekLen) 0x1FF#32) State.reset)
      (.write .w32 (State.reset.params.base + regRow .ekLen) 0x1FF#32) [] := ⟨rfl, rfl, rfl, rfl⟩
/-- A read-only register; the last word and the last byte of the tables; STATUS. -/
theorem witness_ReadOnlyWritesIgnored :
    WordReg.prngSeed ∈ roRegs
      ∧ idleWith (withAccess (.write .w32 (regRow .prngSeed) 1#32) State.reset)
          (.write .w32 (State.reset.params.base + regRow .prngSeed) 1#32) []
      ∧ (0x0E0 ≤ 0x0FC ∧ 0x0FC < 0x100 ∧ 0x0FC % bytesOf .w32 = 0)
      ∧ (0x0E0 ≤ 0x0FF ∧ 0x0FF < 0x100 ∧ 0x0FF % bytesOf .w8 = 0)
      ∧ idleWith (withAccess (.write .w32 0x008 2#32) State.reset)
          (.write .w32 (State.reset.params.base + 0x008) 2#32) [] :=
  ⟨by decide, ⟨rfl, rfl, rfl⟩, by decide, by decide, ⟨rfl, rfl, rfl⟩⟩
theorem witness_ErrWriteClearsBits :
    idleWith (withAccess (.write .w32 0x00C 0x1FF#32) { State.reset with err := 0x1FF#9 })
      (.write .w32 (State.reset.params.base + 0x00C) 0x1FF#32) [] := ⟨rfl, rfl, rfl⟩
theorem witness_ReadsAreIdempotent :
    idleWith { State.reset with agenda := [.host (.read .w8 0x10000), .host (.read .w8 0x10000)] } (.read .w8 0x10000)
      [.host (.read .w8 0x10000)] := ⟨rfl, rfl, rfl⟩
/-- The last EXPKEY byte and the last BUF word. -/
theorem witness_ByteRegionWrites :
    (regionBase .expKey ≤ 0x8EF ∧ 0x8EF + bytesOf .w8 ≤ regionBase .expKey + regionSize Params.default .expKey
      ∧ 0x8EF % bytesOf .w8 = 0) ∧
    (regionBase .buf ≤ 0x1FFFC ∧ 0x1FFFC + bytesOf .w32 ≤ regionBase .buf + regionSize Params.default .buf
      ∧ 0x1FFFC % bytesOf .w32 = 0) ∧
    idleWith (withAccess (.write .w32 0x1FFFC 1#32) State.reset)
      (.write .w32 (State.reset.params.base + 0x1FFFC) 1#32) [] := by
  refine ⟨by decide +kernel, by decide +kernel, ⟨rfl, rfl, rfl⟩⟩
/-- A read-only region can be read: the last word of UCN_SUB_TBL, with its last byte written. -/
theorem witness_ByteRegionReads :
    (regionBase .subTbl ≤ 0x0FC ∧ 0x0FC + bytesOf .w32 ≤ regionBase .subTbl + regionSize Params.default .subTbl
      ∧ 0x0FC % bytesOf .w32 = 0) ∧
    (let s := withAccess (.read .w32 0x0FC) { State.reset with ram := [(0x0FF, 0x0A#8)] }
     idleWith s (.read .w32 (s.params.base + 0x0FC)) [] ∧ s.ram.read (0x0FC + 3) = some 0x0A#8) :=
  ⟨by decide, ⟨rfl, rfl, rfl⟩, rfl⟩

/-! ### All commands -/

/-- Every command gives a next state somewhere (CommandsCompleteWithOneError, CommandRegisterFrame,
CommandMemoryFrame). -/
theorem witness_every_command_completes :
    goesOn (exec .prngSeed State.reset) = true ∧ goesOn (exec .prngNext (seeded 1#32)) = true
      ∧ goesOn (exec .prngNextDecrypt (operands 0#32 2#32 (seeded 1#32))) = true
      ∧ goesOn (exec .mr0kCheck State.reset) = true ∧ goesOn (exec .mr0kDecrypt m1) = true
      ∧ goesOn (exec .ucnKeyHex (withBuf 0x200 (hexText 0x66#8) 0x200#32 32#32)) = true
      ∧ goesOn (exec .ucnHeader (withBuf 0 h1 0#32 0#32)) = true
      ∧ goesOn (exec .ucnBlock (blockState 0 [0x37#8] 1#32 0#32)) = true := by decide +kernel

/-! ### PRNG -/

theorem witness_PrngNextResult : (seeded 1#32).seeded = true ∧ State.reset.seeded = false := by decide
/-- The region ends exactly at BUF's end, or one byte past it. -/
theorem witness_NextDecrypt :
    (let s := operands 0xFFF0#32 0x10#32 (seeded 1#32)
     s.seeded = true ∧ s.opAddr.toNat + s.opLen.toNat ≤ s.params.bufSize) ∧
    (let s := operands 0xFFF0#32 0x11#32 (seeded 1#32)
     s.seeded = true ∧ s.params.bufSize < s.opAddr.toNat + s.opLen.toNat) ∧ State.reset.seeded = false := by
  decide +kernel
theorem witness_PrngStepIsBijection : prngNonzero { x := 0#32, y := 0#32, z := 0#32, w := 1#32 } := by
  rintro ⟨_, _, _, h⟩
  exact absurd h (by decide)
theorem witness_DistinctSeedsDiffer :
    let s := { State.reset with opVal := 0#32 }
    let t := { State.reset with opVal := 1#32 }
    s.opVal ≠ t.opVal ∧ (∃ s', exec .prngSeed s = .next s') ∧ ∃ t', exec .prngSeed t = .next t' :=
  ⟨by decide, ⟨_, rfl⟩, ⟨_, rfl⟩⟩

/-- One seed, two states that differ elsewhere. -/
theorem witness_DistinctSeedsDiffer_equal :
    let s := { State.reset with opVal := 5#32 }
    let t := { seeded 7#32 with opVal := 5#32, result0 := 9#32 }
    s.opVal = t.opVal ∧ s.prng ≠ t.prng ∧ (∃ s', exec .prngSeed s = .next s') ∧ ∃ t', exec .prngSeed t = .next t' :=
  ⟨rfl, by decide, ⟨_, rfl⟩, ⟨_, rfl⟩⟩

/-! ### Mr0k -/

/-- A region one past BUF's end; length 3; length 4 with the magic. -/
theorem witness_Mr0kCheckResult :
    (let s := operands 0xFFFF#32 2#32 State.reset
     s.params.bufSize < s.opAddr.toNat + s.opLen.toNat) ∧
    (let s := operands 0xFFFD#32 3#32 State.reset
     s.opAddr.toNat + s.opLen.toNat ≤ s.params.bufSize ∧ s.opLen.toNat < 4) ∧
    (let s := withBuf 0xFFFC [0x6D#8, 0x72#8, 0x30#8, 0x6B#8] 0xFFFC#32 4#32
     s.opAddr.toNat + s.opLen.toNat ≤ s.params.bufSize ∧ 4 ≤ s.opLen.toNat ∧
       s.ram.read (bufAt s.opAddr.toNat) = some 0x6D#8 ∧ s.ram.read (bufAt (s.opAddr.toNat + 1)) = some 0x72#8 ∧
       s.ram.read (bufAt (s.opAddr.toNat + 2)) = some 0x30#8 ∧ s.ram.read (bufAt (s.opAddr.toNat + 3)) = some 0x6B#8) := by
  decide +kernel

/-- A profile by its four lengths. -/
def profileOf (iv : BitVec 5) (sb : Bool) (ek : BitVec 8) (pk bk : BitVec 5) (s : State) : State :=
  { s with profile := { ivLen := iv, sboxEn := sb, ekLen := ek, pkLen := pk, bkLen := bk } }

/-- One past each store; every store full; the region; 0x93 bytes; 3091 bytes with a PostKey. -/
theorem witness_Mr0kDecryptErrors :
    (∀ s ∈ [profileOf 17#5 false 0#8 0#5 0#5 State.reset, profileOf 0#5 false 241#8 0#5 0#5 State.reset,
        profileOf 0#5 false 0#8 17#5 0#5 State.reset, profileOf 0#5 false 0#8 0#5 17#5 State.reset],
      profileLegal s.profile = false) ∧
    (let s := profileOf 16#5 true 240#8 16#5 16#5 State.reset
     profileLegal s.profile = true ∧
       (operands 0xFFFF#32 2#32 s).params.bufSize <
         (operands 0xFFFF#32 2#32 s).opAddr.toNat + (operands 0xFFFF#32 2#32 s).opLen.toNat ∧
       (operands 0#32 0x93#32 s).opLen.toNat < 0x94 ∧
       (s.profile.pkLen.toNat ≠ 0 ∧ (operands 0#32 3091#32 s).opLen.toNat < 3092)) := by decide +kernel

/-- The shortest length R156 speaks of, and the ends of its ranges. -/
theorem witness_Mr0kBlockLenBounds : ∀ len ∈ [0x94, 0x113, 276, 8339, 8340], 0x94 ≤ len := by decide

/-- Every stage present, the smallest buffer that has them all. -/
def fullMr0k : State :=
  { profileOf 16#5 true 240#8 16#5 16#5 (operands 0#32 3092#32 State.reset) with
    ram := fill (fill (fill (fill [] 0x080 48 0x11#8) 0x400 1024 0x22#8) 0x800 240 0x33#8) (bufAt 0) 3092 0x44#8 }

/-- What it reads. -/
def fullIn : Mr0kIn where
  c := fun _ => 0x44#8
  iv := fun _ => 0x11#8
  sb := fun _ => 0x22#8
  pk := fun _ => 0x11#8
  bk := fun _ => 0x11#8
  ek := List.replicate 240 0x33#8

theorem witness_Mr0kDecryptResult :
    legalProfile fullMr0k.profile ∧ fullMr0k.opAddr.toNat + fullMr0k.opLen.toNat ≤ fullMr0k.params.bufSize ∧
    0x94 ≤ fullMr0k.opLen.toNat ∧ (fullMr0k.profile.pkLen.toNat ≠ 0 → 3092 ≤ fullMr0k.opLen.toNat) ∧
    HoldsMr0k fullMr0k fullIn := by
  have hr : ∀ x, fullMr0k.ram.read x = if 0x10000 ≤ x ∧ x < 0x10000 + 3092 then some 0x44#8
      else if 0x800 ≤ x ∧ x < 0x800 + 240 then some 0x33#8 else if 0x400 ≤ x ∧ x < 0x400 + 1024 then some 0x22#8
      else if 0x080 ≤ x ∧ x < 0x080 + 48 then some 0x11#8 else none := by
    intro x
    simp only [fullMr0k, fill_read, Memory.read]
    rfl
  refine ⟨⟨by decide, by decide, by decide, by decide⟩, by decide +kernel, by decide, fun _ => by decide, ?_⟩
  constructor
  · intro i hi
    have hi : i < 3092 := hi
    rw [hr, if_pos (by simp only [fullMr0k, profileOf, operands, bufCell]; simp; omega)]
    rfl
  · intro i hi
    have hi : i < 16 := hi
    rw [hr, if_neg (by omega), if_neg (by omega), if_neg (by omega), if_pos (by omega)]
    rfl
  · intro _ j hj
    rw [hr, if_neg (by omega), if_neg (by omega), if_pos (by omega)]
    rfl
  · exact List.length_replicate
  · intro i hi
    have hi : i < 240 := hi
    rw [hr, if_neg (by omega), if_pos (by omega)]
    exact congrArg some (byteOf_replicate hi).symm
  · intro i hi
    have hi : i < 16 := hi
    rw [hr, if_neg (by omega), if_neg (by omega), if_neg (by omega), if_pos (by omega)]
    rfl
  · intro i hi
    have hi : i < 16 := hi
    rw [hr, if_neg (by omega), if_neg (by omega), if_neg (by omega), if_pos (by omega)]
    rfl

/-! ### UnityCN -/

theorem witness_UcnKeyHexLoads :
    let s := withBuf 0xFFE0 (hexText 0x66#8) 0xFFE0#32 32#32
    s.opLen.toNat = 32 ∧ s.opAddr.toNat + s.opLen.toNat ≤ s.params.bufSize ∧
    ∀ i < 32, s.ram.read (bufAt (s.opAddr.toNat + i)) = some (byteOf (hexText 0x66#8) i) ∧
      hexDigit (byteOf (hexText 0x66#8) i) = some ((hexDigit (byteOf (hexText 0x66#8) i)).getD 0) := by decide +kernel
/-- A region past BUF's end; 31 and 33 characters; a bad last digit. -/
theorem witness_UcnKeyHexErrors :
    (let s := operands 0xFFE1#32 32#32 State.reset
     s.params.bufSize < s.opAddr.toNat + s.opLen.toNat) ∧
    ([31#32, 33#32].all fun n =>
      let s := operands 0#32 n State.reset
      decide (s.opLen.toNat ≠ 32 ∧ s.opAddr.toNat + s.opLen.toNat ≤ s.params.bufSize)) = true ∧
    (let s := withBuf 0x200 (hexText 0x67#8) 0x200#32 32#32
     s.opLen.toNat = 32 ∧
       (∀ i < 32, s.ram.read (bufAt (s.opAddr.toNat + i)) = some (byteOf (hexText 0x67#8) i)) ∧
       ∃ i < 32, hexDigit (byteOf (hexText 0x67#8) i) = none) := by decide +kernel

/-- The four fields of a header in BUF; the active key is not used. -/
theorem holdsHeader_of {s : State} {h : Nat → Byte} (hk : s.ctrl.akeyEn = false)
    (hf : ∀ i < 65, s.ram.read (bufAt (s.opAddr.toNat + (4 + i))) = some (h (4 + i))) :
    HoldsHeader s h fun _ => 0#8 where
  info := fun i hi => hf i (by omega)
  sig := fun i hi => by
    have := hf (33 + i) (by omega)
    rwa [show 4 + (33 + i) = 37 + i by omega] at this
  akey := fun h => absurd h (by rw [hk]; decide)

/-- H1 at the last place it fits. -/
theorem witness_UcnHeaderLoadsTables :
    let s := withBuf 0xFFBA h1 0xFFBA#32 0#32
    s.opAddr.toNat + 70 ≤ s.params.bufSize ∧ HoldsHeader s (byteOf h1) (fun _ => 0#8) ∧
      ∀ i < 16, headerSig s (byteOf h1) (fun _ => 0#8) i = sigByte i :=
  ⟨by decide +kernel, holdsHeader_of rfl (by decide +kernel), by decide +kernel⟩
theorem witness_UcnHeaderErrors :
    (operands 0xFFBB#32 0#32 State.reset).params.bufSize < (operands 0xFFBB#32 0#32 State.reset).opAddr.toNat + 70 ∧
    (let bad := h1.set 37 0x24#8
     let s := withBuf 0 bad 0#32 0#32
     s.opAddr.toNat + 70 ≤ s.params.bufSize ∧ HoldsHeader s (byteOf bad) (fun _ => 0#8) ∧
       ∃ i < 16, headerSig s (byteOf bad) (fun _ => 0#8) i ≠ sigByte i) :=
  ⟨by decide +kernel, by decide +kernel, holdsHeader_of rfl (by decide +kernel), 0, by decide, by decide +kernel⟩

/-- Header bytes made for the active key 33..33 and the header keys 22..22: the signature under that keystream, its first
byte changed by `flip`. -/
def keyedByte (flip : Byte) (i : Nat) : Byte :=
  if 37 ≤ i ∧ i < 53 then
    sigByte (i - 37) ^^^ (if i = 37 then flip else 0#8) ^^^
      (Config.aesEncEcb (Vector.ofFn fun _ : Fin 16 => 0x33#8) (Vector.ofFn fun _ : Fin 16 => 0x22#8)).toList.getD
        (i - 37) 0#8
  else 0x22#8

/-- A state with such a header at BUF's start and AKEY_EN 1. -/
def keyed (flip : Byte) : State :=
  { State.reset with
    ctrl := { akeyEn := true, doneIe := false, errIe := false }
    ram := writeBytes (fill [] 0x0C0 16 0x33#8) (bufAt 0) ((List.range 70).map (keyedByte flip)) }

theorem keyed_holds (flip : Byte) : HoldsHeader (keyed flip) (keyedByte flip) fun _ => 0x33#8 := by
  have hb : ∀ i < 70, (keyed flip).ram.read (0x10000 + (0 + i)) = some (keyedByte flip i) := by
    intro i hi
    simp only [keyed, writeBytes_read, List.length_map, List.length_range, bufAt, regionBase]
    rw [if_pos (by omega), show 0x10000 + (0 + i) - (0x10000 + 0) = i by omega, byteOf_map_range hi]
  refine ⟨fun i hi => hb (4 + i) (by omega), fun i hi => hb (37 + i) (by omega), fun _ i hi => ?_⟩
  simp only [keyed, writeBytes_read, List.length_map, List.length_range, bufAt, regionBase, fill_read]
  rw [if_neg (by omega), if_pos (by omega)]

theorem keyed_sig (flip : Byte) {i : Nat} (hi : i < 16) :
    headerSig (keyed flip) (keyedByte flip) (fun _ => 0x33#8) i = sigByte i ^^^ (if i = 0 then flip else 0#8) := by
  have hk : (fun j : Fin 16 => keyedByte flip (53 + j.val)) = fun _ => 0x22#8 := by
    funext j
    exact if_neg (by omega)
  have h37 : (37 + i = 37) = (i = 0) := by simp
  simp only [headerSig, decryptKeyByte, hk]
  rw [if_pos (show (keyed flip).ctrl.akeyEn = true from rfl), keyedByte, if_pos (by omega),
    show 37 + i - 37 = i by omega, BitVec.xor_assoc, BitVec.xor_self, BitVec.xor_zero]
  simp only [h37]

/-- The same two with AKEY_EN 1. -/
theorem witness_UcnHeaderLoadsTables_keyed :
    (keyed 0#8).ctrl.akeyEn = true ∧ (keyed 0#8).opAddr.toNat + 70 ≤ (keyed 0#8).params.bufSize ∧
      HoldsHeader (keyed 0#8) (keyedByte 0#8) (fun _ => 0x33#8) ∧
      ∀ i < 16, headerSig (keyed 0#8) (keyedByte 0#8) (fun _ => 0x33#8) i = sigByte i :=
  ⟨rfl, by decide, keyed_holds _, fun i hi => by rw [keyed_sig _ hi]; split <;> simp⟩
theorem witness_UcnHeaderErrors_keyed :
    (keyed 1#8).ctrl.akeyEn = true ∧ (keyed 1#8).opAddr.toNat + 70 ≤ (keyed 1#8).params.bufSize ∧
      HoldsHeader (keyed 1#8) (keyedByte 1#8) (fun _ => 0x33#8) ∧
      ∃ i < 16, headerSig (keyed 1#8) (keyedByte 1#8) (fun _ => 0x33#8) i ≠ sigByte i :=
  ⟨rfl, by decide, keyed_holds _, 0, by decide, by rw [keyed_sig _ (by decide)]; decide⟩

/-- The tables of section 4.1 as numbers. -/
theorem tables_hold {m : Memory}
    (hi : ∀ j < 16, m.read (0x0E0 + j) = some (BitVec.ofNat 8 (byteOf indexTbl j).toNat))
    (hs : ∀ j < 16, m.read (0x0F0 + j) = some (BitVec.ofNat 8 (byteOf subTbl j).toNat)) :
    HoldsTables m (fun j => (byteOf indexTbl j).toNat) (fun j => (byteOf subTbl j).toNat) where
  index := fun j hj => ⟨by revert j; decide, hi j hj⟩
  subst := fun j hj => ⟨by revert j; decide, hs j hj⟩
theorem witness_SubstFormula :
    HoldsTables (blockState 0 [] 0#32 0#32).ram (fun j => (byteOf indexTbl j).toNat)
      (fun j => (byteOf subTbl j).toNat) := tables_hold (by decide +kernel) (by decide +kernel)

/-- Section 4.6, U1: two tokens, the first with a second part. -/
def u1 : State := blockState 0x100 [0xD6#8, 0x61#8, 0x62#8, 0x63#8, 0x83#8, 0x99#8, 0xAC#8, 0x78#8, 0x79#8] 9#32 0#32

/-- The walk of U1 before its first token, between its tokens, and at its end (U1's results: bytes, index 4, offset 9,
tokens 2). -/
def u1Walk0 : Walk := { ram := u1.ram, idx := 0#32, off := 0, tokens := 0 }
def u1Walk1 : Walk :=
  { ram := ((u1.ram.write (bufAt 0x100) 0x32#8).write (bufAt 0x104) 0x01#8).write (bufAt 0x105) 0x00#8
    idx := 3#32
    off := 6
    tokens := 1 }
def u1Walk2 : Walk :=
  { ram := u1Walk1.ram.write (bufAt 0x106) 0x20#8, idx := 4#32, off := 9, tokens := 2 }

/-- X, from what it reads and writes. -/
theorem xAt_of {size a : Nat} {w : Walk} {v p : Byte} (h1 : a + w.off < size)
    (h2 : w.ram.read (bufAt (a + w.off)) = some v) (h3 : Machine.subst w.ram v w.idx = .ok p) :
    XAt size a w p
      { ram := w.ram.write (bufAt (a + w.off)) p, idx := w.idx + 1#32, off := w.off + 1, tokens := w.tokens } :=
  ⟨h1, v, h2, h3, rfl⟩
theorem u1_first : OneToken 0x10000 0x100 9 u1Walk0 u1Walk1 :=
  ⟨by decide, 0x32#8, 3, _, _, _, xAt_of (v := 0xD6#8) (by decide) rfl rfl, .inl ⟨by decide, rfl, rfl⟩,
    .inr ⟨by decide, 0x01#8, 0x00#8, _, _, xAt_of (v := 0x83#8) (by decide) rfl rfl,
      xAt_of (v := 0x99#8) (by decide) rfl rfl, .inl ⟨by decide, rfl⟩⟩, rfl⟩
theorem u1_second : OneToken 0x10000 0x100 9 u1Walk1 u1Walk2 :=
  ⟨by decide, 0x20#8, 2, _, _, _, xAt_of (v := 0xAC#8) (by decide) rfl rfl, .inl ⟨by decide, rfl, rfl⟩,
    .inl ⟨by decide, rfl⟩, rfl⟩
/-- Both tokens decoded. -/
theorem witness_UcnBlockFollowsWalk :
    blockReady u1 ∧ BlockTokens u1 u1Walk2 ∧ u1.opLen.toNat ≤ u1Walk2.off :=
  ⟨⟨rfl, by decide +kernel⟩, .more u1_first (.more u1_second .none), by decide⟩
/-- U1's first and last literal, at offsets 1 and 3. -/
theorem witness_UcnBlockOffsetFits :
    blockReady u1 ∧ BlockTokens u1 u1Walk2 ∧ u1.opLen.toNat ≤ u1Walk2.off ∧
      SkippedLiteral u1 u1Walk2 1 ∧ SkippedLiteral u1 u1Walk2 3 := by
  have h : ∀ o, 1 ≤ o → o < 4 → SkippedLiteral u1 u1Walk2 o := fun o h1 h2 =>
    ⟨0x32#8, 3, u1Walk0, _, _, _, .none, by decide, xAt_of (v := 0xD6#8) (by decide) rfl rfl,
      .inl ⟨by decide, rfl, rfl⟩,
      .inr ⟨by decide, 0x01#8, 0x00#8, _, _, xAt_of (v := 0x83#8) (by decide) rfl rfl,
        xAt_of (v := 0x99#8) (by decide) rfl rfl, .inl ⟨by decide, rfl⟩⟩, .more u1_second .none, h1, h2⟩
  exact ⟨⟨rfl, by decide +kernel⟩, .more u1_first (.more u1_second .none), by decide, h 1 (by decide) (by decide),
    h 3 (by decide) (by decide)⟩
theorem witness_UcnBlockSplitsAtTokenBoundary :
    blockReady u1 ∧ BlockTokens u1 u1Walk1 ∧
      Tokens u1.params.bufSize u1.opAddr.toNat u1.opLen.toNat u1Walk1 u1Walk2 ∧
      u1.opLen.toNat ≤ u1Walk2.off ∧ u1Walk1.off < u1.opLen.toNat :=
  ⟨⟨rfl, by decide +kernel⟩, .more u1_first .none, .more u1_second .none, by decide, by decide⟩

/-- Section 4.6, U5. -/
def u5 : State := blockState 65531 [0xDF#8, 0x61#8, 0x62#8, 0x63#8, 0x87#8] 5#32 0#32

/-- The walk of U5 where it stops: offset 5 (BUF's end), index 2, no token complete. -/
theorem witness_UcnBlockWalkFault :
    blockReady u5 ∧ BlockHitsEnd u5
      { ram := (u5.ram.write (bufAt 65531) 0x30#8).write (bufAt 65535) 0x07#8, idx := 2#32, off := 5, tokens := 0 } :=
  ⟨⟨rfl, by decide +kernel⟩, _, .none, by decide, .inr ⟨0x30#8, _,
    xAt_of (v := 0xDF#8) (by decide +kernel) rfl rfl, .inr ⟨3, _, .inl ⟨by decide, rfl, rfl⟩, by decide,
      .inr ⟨0x07#8, _, xAt_of (v := 0x87#8) (by decide +kernel) rfl rfl, .inl ⟨by decide +kernel, rfl⟩⟩⟩⟩⟩
theorem witness_UcnBlockTerminates :
    blockReady u5 ∧ tablesWritten u5.ram ∧
      bufWritten u5.ram u5.opAddr.toNat (u5.params.bufSize - u5.opAddr.toNat) := by
  refine ⟨⟨rfl, by decide +kernel⟩, ?_, by unfold bufWritten; decide +kernel⟩
  have h : ∀ o < 0x100, 0x0E0 ≤ o → (u5.ram.read o).isSome := by decide +kernel
  exact fun o ho => h o ho.2 ho.1
/-- Size 0; a one-byte block whose token 0x5B jumps past its end. -/
theorem witness_UcnBlockCornerCases :
    (blockReady (blockState 0 [] 0#32 7#32) ∧ (blockState 0 [] 0#32 7#32).opLen = 0#32) ∧
    (let s := blockState 0 [0x37#8] 1#32 0#32
     blockReady s ∧ 0 < s.opLen.toNat ∧ s.ram.read (bufAt s.opAddr.toNat) = some 0x37#8 ∧
       Machine.subst s.ram 0x37#8 s.ucnIndex = .ok 0x5B#8 ∧ (0x5B#8 : Byte).toNat / 16 ≠ 15 ∧
       s.opLen.toNat ≤ 1 + (0x5B#8 : Byte).toNat / 16) :=
  ⟨⟨⟨rfl, by decide +kernel⟩, rfl⟩, ⟨rfl, by decide +kernel⟩, by decide, rfl, rfl, by decide, by decide⟩
theorem witness_UcnBlockErrors :
    State.reset.tablesValid = false ∧
    (let s := blockState 0xFFFF [] 2#32 0#32
     s.tablesValid = true ∧ s.params.bufSize < s.opAddr.toNat + s.opLen.toNat) := by decide +kernel

/-! ### Whole-machine rules -/

theorem witness_InterruptLine :
    (let s := { State.reset with ctrl := { akeyEn := false, doneIe := true, errIe := false } }
     s.ctrl.doneIe = true ∧ goesOn (exec .prngSeed s) = true) ∧
    idleWith (withAccess (.write .w32 0x008 2#32) State.reset) (.write .w32 (State.reset.params.base + 0x008) 2#32) []
      ∧ (2#32).getLsbD 1 = true := ⟨⟨rfl, rfl⟩, ⟨rfl, rfl, rfl⟩, by decide⟩
/-- A state that meets both invariants and runs a command (StepKeepsStateInv, StepKeepsUnitInv, ParametersAreFixed). -/
theorem witness_StepKeepsInv :
    let s := running 0x01#32 State.reset
    StateInv s ∧ UnitInv s ∧ goesOn (step s) = true ∧ ¬ (s.busy = true ∧ ∃ rest, s.agenda = .assertReset :: rest) := by
  refine ⟨⟨List.Pairwise.nil, ?_, ?_, fun _ => rfl, fun h => ?_⟩, ⟨fun h => ?_, fun h => ?_⟩, rfl, ?_⟩
  · intro c hc; simp [running, State.reset] at hc
  · intro o b _ hb; simp [running, State.reset, Memory.read] at hb
  · simp [running, State.reset] at h
  · simp [running, State.reset] at h
  · simp [running, State.reset] at h
  · simp [running, State.reset]
theorem witness_ErrBitsAreSticky :
    let s := withAccess (.write .w32 0x00C 0x100#32) { State.reset with err := 0x1FF#9 }
    s.err.getLsbD 8 = true ∧ goesOn (step s) = true ∧ (after (step s)).err.getLsbD 8 = false := by decide +kernel
theorem witness_SeededChangesOnly :
    let s := running 0x01#32 State.reset
    goesOn (step s) = true ∧ (after (step s)).seeded ≠ s.seeded := by decide +kernel
theorem witness_PrngWordsChangeOnly :
    let s := running 0x01#32 { State.reset with opVal := 1#32 }
    goesOn (step s) = true ∧ (after (step s)).prng ≠ s.prng ∧ (after (step s)).prngSeed ≠ s.prngSeed
      ∧ s.agenda = [] := by decide +kernel
theorem witness_TablesChangeOnly :
    let s := running 0x21#32 (withBuf 0 h1 0#32 0#32)
    goesOn (step s) = true ∧ (after (step s)).ram.read 0x0FF ≠ s.ram.read 0x0FF := by decide +kernel
theorem witness_RunningCommandUnaffectedByHost :
    let s := running 0x01#32 State.reset
    s.busy = true ∧ goesOn (exec .prngSeed s) = true
      ∧ ([Access.write .w32 0x01C 5#32, .read .w32 0x008].foldl portAccess s).replies = [.readOk 0x11#32, .writeSlverr] := by
  decide +kernel

end Sys2Proof.Tests
end

section
/-! Parameters (spec/00_scope.md R6, R7, R10, R11): each kind of effect a step can have leaves them, so every step
does. -/

namespace Sys2Proof.Machine

@[simp] theorem regWrite_params (s : State) (r : WordReg) (v : Word) : (regWrite s r v).params = s.params := by
  cases r <;> rfl

@[simp] theorem regionWrite_params (s : State) (r : ByteRegion) (w : Width) (o : Nat) (v : Word) :
    (regionWrite s r w o v).params = s.params := by
  unfold regionWrite
  split <;> rfl

@[simp] theorem afterTurn_params (s : State) : (afterTurn s).params = s.params := rfl

@[simp] theorem assertReset_params (s : State) : (assertReset s).params = s.params := by
  cases hr : s.inReset with
  | false =>
    obtain ⟨hp, -⟩ := assertReset_reset hr
    exact hp
  | true => simp [assertReset, hr]

theorem PortEffect.params {s t : State} {a : Access} (h : PortEffect s a t) : t.params = s.params := by
  cases h with
  | answered r => exact reply_params s r
  | refused r => simp
  | regWritten r v => simp
  | bytesWritten r w o v => simp

theorem EngineEffect.params {s t : State} (h : EngineEffect s t) : t.params = s.params := by
  cases h with
  | command i _ he _ ht =>
    rcases ht with rfl | ⟨c, -, rfl⟩
    · simpa using he.params
    · simpa using he.params
  | illegal why => simp

theorem StepEffect.params {s t : State} (h : StepEffect s t) : t.params = s.params := by
  cases h with
  | idle => exact afterTurn_params s
  | engine _ _ he => exact he.params
  | host a rest _ he => exact he.params
  | assertReset => exact assertReset_params (afterTurn s)
  | releaseReset => exact releaseReset_params (afterTurn s)

/-- Settles O59, by cases on the effect of the step. -/
theorem parametersAreFixed : Obligations.ParametersAreFixed := by
  intro s t h
  exact (step_cases h).params

end Sys2Proof.Machine
end

section
/-! What a host write leaves alone, field by field (spec/10_state.md R20): the rules the proofs below use instead of
unfolding the write. -/

namespace Sys2Proof.Machine

/-! ### A host write to a word register -/

section
variable (s : State) (r : WordReg) (v : Word)

@[simp] theorem regWrite_seeded : (regWrite s r v).seeded = s.seeded := by cases r <;> rfl
@[simp] theorem regWrite_prng : (regWrite s r v).prng = s.prng := by cases r <;> rfl
@[simp] theorem regWrite_prngSeed : (regWrite s r v).prngSeed = s.prngSeed := by cases r <;> rfl
@[simp] theorem regWrite_ram : (regWrite s r v).ram = s.ram := by cases r <;> rfl
@[simp] theorem regWrite_inReset : (regWrite s r v).inReset = s.inReset := by cases r <;> rfl
@[simp] theorem regWrite_resets : (regWrite s r v).resets = s.resets := by cases r <;> rfl
@[simp] theorem regWrite_agenda : (regWrite s r v).agenda = s.agenda := by cases r <;> rfl
@[simp] theorem regWrite_replies : (regWrite s r v).replies = s.replies := by cases r <;> rfl

end

theorem regWrite_err_of_ne {r : WordReg} (hr : r ≠ .err) (s : State) (v : Word) : (regWrite s r v).err = s.err := by
  cases r
  case err => exact absurd rfl hr
  all_goals rfl

/-- The only write that starts a command is the one to COMMAND, and it clears DONE
(spec/40_command_engine.md R111). -/
theorem regWrite_busy_not_done {s : State} (hb : s.busy = false) (r : WordReg) (v : Word)
    (h : (regWrite s r v).busy = true) : (regWrite s r v).done = false := by
  cases r
  case command => rfl
  all_goals exact absurd (hb.symm.trans h) Bool.false_ne_true

/-! ### A host write to a byte region -/

/-- A write to a byte region changes the memory at most. -/
theorem regionWrite_eq (s : State) (r : ByteRegion) (w : Width) (o : Nat) (v : Word) :
    regionWrite s r w o v = { s with ram := (regionWrite s r w o v).ram } := by
  unfold regionWrite
  split <;> rfl

section
variable (s : State) (r : ByteRegion) (w : Width) (o : Nat) (v : Word)

@[simp] theorem regionWrite_busy : (regionWrite s r w o v).busy = s.busy := by rw [regionWrite_eq]
@[simp] theorem regionWrite_seeded : (regionWrite s r w o v).seeded = s.seeded := by rw [regionWrite_eq]
@[simp] theorem regionWrite_err : (regionWrite s r w o v).err = s.err := by rw [regionWrite_eq]
@[simp] theorem regionWrite_prng : (regionWrite s r w o v).prng = s.prng := by rw [regionWrite_eq]
@[simp] theorem regionWrite_prngSeed : (regionWrite s r w o v).prngSeed = s.prngSeed := by rw [regionWrite_eq]
@[simp] theorem regionWrite_inReset : (regionWrite s r w o v).inReset = s.inReset := by rw [regionWrite_eq]

end

end Sys2Proof.Machine
end

section
/-! The state invariant (spec/10_state.md R20, R48, R49, spec/40_command_engine.md R111, R113,
spec/70_reset_and_hazards.md R260): every step writes only sound bytes, and no step leaves a command running with DONE
set or with reset asserted. -/

namespace Sys2Proof.Machine

/-- A byte that the invariant lets a write store: inside a byte region, and a nibble in the UnityCN tables. -/
def soundWrite (p : Params) (o : Nat) (v : Byte) : Prop := inRegions p o ∧ (isTableOffset o → v.toNat < 16)

theorem stores.sound {i : Instr} {s : State} {o : Nat} {v : Byte} (h : stores i s o v) : soundWrite s.params o v := h.2

theorem regionWrite_sound {s : State} {r : ByteRegion} {w : Width} {o : Nat} {v : Word} (h1 : regionBase r ≤ o)
    (h2 : o + widthBytes w ≤ regionBase r + regionSize s.params r) :
    Memory.Writes (soundWrite s.params) s.ram (regionWrite s r w o v).ram :=
  (regionWrite_writes h1 h2).mono fun _ _ ⟨hin, htable⟩ => ⟨inRegions_of r hin.1 hin.2, fun ht => absurd ht htable⟩

/-- The invariant passes to a state reached by sound writes, when the two facts about its flags hold there. -/
theorem StateInv.of_writes {s t : State} (h : StateInv s) (hp : t.params = s.params)
    (hw : Memory.Writes (soundWrite s.params) s.ram t.ram) (hdone : t.busy = true → t.done = false)
    (hreset : t.inReset = true → t.busy = false) : StateInv t where
  ram_wf := hw.wf h.ram_wf
  ram_in_regions c hc := by
    rw [hp]
    exact (hw.mem_cases hc).elim (h.ram_in_regions c) fun hs => hs.1
  table_nibbles o b ho hb := (hw.read_cases hb).elim (h.table_nibbles o b ho) fun hs => hs.2 ho
  busy_not_done := hdone
  reset_not_busy := hreset

theorem StateInv.of_unwritten {s : State} (hram : s.ram = []) (hb : s.busy = false) : StateInv s where
  ram_wf := by rw [hram]; exact .nil
  ram_in_regions c hc := by rw [hram] at hc; cases hc
  table_nibbles o b _ hr := by rw [hram] at hr; cases hr
  busy_not_done hb' := absurd (hb.symm.trans hb') Bool.false_ne_true
  reset_not_busy _ := hb

theorem StateInv.afterTurn {s : State} (h : StateInv s) : StateInv (afterTurn s) :=
  h.of_writes rfl .refl h.busy_not_done h.reset_not_busy

theorem PortEffect.stateInv {s t : State} {a : Access} (h : StateInv s) (he : PortEffect s a t) : StateInv t := by
  have hparams := he.params
  cases he with
  | answered r => exact h.of_writes hparams .refl h.busy_not_done h.reset_not_busy
  | refused r => exact h.of_writes hparams .refl h.busy_not_done h.reset_not_busy
  | regWritten r v hb hr =>
    refine h.of_writes hparams ?_ (regWrite_busy_not_done hb r v) fun h' => ?_
    · rw [reply_ram, regWrite_ram]; exact .refl
    · simp [hr] at h'
  | bytesWritten r w o v hb hr _ h1 h2 =>
    refine h.of_writes hparams (regionWrite_sound h1 h2) (fun h' => ?_) fun _ => ?_
    · simp [hb] at h'
    · simp [hb]

theorem EngineEffect.stateInv {s t : State} (h : StateInv s) (he : EngineEffect s t) : StateInv t := by
  have hparams := he.params
  cases he with
  | command i _ hu _ ht =>
    have hw := hu.ram.mono fun _ _ => stores.sound
    rcases ht with rfl | ⟨c, -, rfl⟩ <;> exact h.of_writes hparams hw nofun fun _ => rfl
  | illegal why => exact h.of_writes hparams .refl nofun fun _ => rfl

theorem StateInv.assertReset {s : State} (h : StateInv s) : StateInv (assertReset s) := by
  rcases assertReset_cases s with ⟨-, he⟩ | ⟨hr, -⟩
  · rw [he]; exact h
  · obtain ⟨-, hb, -, -, hram, -⟩ := assertReset_reset hr
    exact .of_unwritten hram hb

theorem StateInv.releaseReset {s : State} (h : StateInv s) : StateInv (releaseReset s) :=
  h.of_writes rfl .refl h.busy_not_done nofun

/-- Settles O52, by cases on the effect of the step. -/
theorem stepKeepsStateInv : Obligations.StepKeepsStateInv := by
  intro s t h hstep
  cases step_cases hstep with
  | idle => exact h.afterTurn
  | engine _ _ he => exact he.stateInv h.afterTurn
  | host a rest _ he => exact he.stateInv h.afterTurn
  | assertReset => exact h.afterTurn.assertReset
  | releaseReset => exact h.afterTurn.releaseReset

/-- Settles O8: what a step can fault on is what the engine step can. -/
theorem stepFaultsOnlyOnUnwrittenBytes : Obligations.StepFaultsOnlyOnUnwrittenBytes := by
  refine fun s => ⟨step_not_refused s, fun f hf => ?_⟩
  obtain ⟨hb, o, ho, hin, hread⟩ := step_fault hf
  exact ⟨o, ho, hin, hread, hb⟩

end Sys2Proof.Machine
end

section
/-! The word registers as the host reads and writes them (spec/10_state.md R20 to R39, R47, R52): bit layouts, the mask
of stored bits, and the step that makes one access to an idle block. -/

namespace Sys2Proof.Machine
open Sys2Proof.Spec

/-! ### Bits of a word -/

theorem bitAt_getLsbD {k : Nat} (hk : k < 32) (b : Bool) (n : Nat) : (bitAt b k).getLsbD n = (n == k && b) := by
  cases b with
  | false => simp [bitAt]
  | true => simp [bitAt, hk, beq_eq_decide, eq_comm (a := k)]

/-- A mask of the low `k` bits keeps what a `k`-bit field stores. -/
theorem and_lowMask {k : Nat} (hk : k ≤ 32) (v : Word) :
    v &&& BitVec.ofNat 32 (2 ^ k - 1) = (v.setWidth k).setWidth 32 := by
  have hpow : 2 ^ k ≤ 2 ^ 32 := Nat.pow_le_pow_right (by omega) hk
  have hpos : 0 < 2 ^ k := Nat.two_pow_pos k
  have hmod := Nat.mod_lt v.toNat hpos
  apply BitVec.eq_of_toNat_eq
  rw [BitVec.toNat_and, BitVec.toNat_ofNat, Nat.mod_eq_of_lt (by omega), Nat.and_two_pow_sub_one_eq_mod,
    BitVec.toNat_setWidth, BitVec.toNat_setWidth]
  exact (Nat.mod_eq_of_lt (hmod.trans_le hpow)).symm

theorem and_lowMask_getLsbD {k : Nat} (hk : k ≤ 32) (v : Word) (n : Nat) :
    (v &&& BitVec.ofNat 32 (2 ^ k - 1)).getLsbD n = (decide (n < k) && v.getLsbD n) := by
  rw [and_lowMask hk, BitVec.getLsbD_setWidth, BitVec.getLsbD_setWidth]
  by_cases hn : n < k
  · simp [hn, hn.trans_le hk]
  · simp [hn]

/-! ### Reading -/

theorem ctrlWord_getLsbD (c : Ctrl) (n : Nat) :
    (ctrlWord c).getLsbD n = ((n == 0 && c.akeyEn) || (n == 1 && c.doneIe) || (n == 2 && c.errIe)) := by
  simp only [ctrlWord, BitVec.getLsbD_or, bitAt_getLsbD (show 0 < 32 by decide), bitAt_getLsbD (show 1 < 32 by decide),
    bitAt_getLsbD (show 2 < 32 by decide)]

theorem statusWord_getLsbD (s : State) (n : Nat) :
    (statusWord s).getLsbD n =
      ((n == 0 && s.busy) || (n == 1 && s.done) || (n == 2 && s.seeded) || (n == 3 && s.tablesValid) ||
        (n == 4 && s.err != 0#9)) := by
  simp only [statusWord, errAny, BitVec.getLsbD_or, bitAt_getLsbD (show 0 < 32 by decide),
    bitAt_getLsbD (show 1 < 32 by decide), bitAt_getLsbD (show 2 < 32 by decide),
    bitAt_getLsbD (show 3 < 32 by decide), bitAt_getLsbD (show 4 < 32 by decide)]

theorem errWord_getLsbD (s : State) (n : Nat) : (errWord s).getLsbD n = (decide (n < 9) && s.err.getLsbD n) := by
  rw [errWord, BitVec.getLsbD_setWidth]
  by_cases hn : n < 9
  · simp [hn, hn.trans (show 9 < 32 by decide)]
  · simp [hn, BitVec.getLsbD_of_ge s.err n (by omega)]

theorem bitAt_zero_eq_ofNat (b : Bool) : bitAt b 0 = BitVec.ofNat 32 b.toNat := by cases b <;> rfl

theorem ctrlWord_eq_sum (c : Ctrl) :
    ctrlWord c = BitVec.ofNat 32 (c.akeyEn.toNat + 2 * c.doneIe.toNat + 4 * c.errIe.toNat) := by
  obtain ⟨akeyEn, doneIe, errIe⟩ := c
  revert akeyEn doneIe errIe
  decide

/-- The five bits of STATUS add up: they stand at distinct places. -/
theorem statusBits_eq_sum : ∀ b0 b1 b2 b3 b4 : Bool,
    bitAt b0 0 ||| bitAt b1 1 ||| bitAt b2 2 ||| bitAt b3 3 ||| bitAt b4 4 =
      BitVec.ofNat 32 (b0.toNat + 2 * b1.toNat + 4 * b2.toNat + 8 * b3.toNat + 16 * b4.toNat) := by
  decide

theorem regRead_eq_regValue (s : State) (r : WordReg) : regRead s r = regValue s r := by
  cases r
  case ctrl => exact ctrlWord_eq_sum s.ctrl
  case status => exact statusBits_eq_sum s.busy s.done s.seeded s.tablesValid (errAny s)
  case err => exact (BitVec.ofNat_toNat 32 s.err).symm
  case ivLen => exact (BitVec.ofNat_toNat 32 s.profile.ivLen).symm
  case sboxEn => exact bitAt_zero_eq_ofNat s.profile.sboxEn
  case ekLen => exact (BitVec.ofNat_toNat 32 s.profile.ekLen).symm
  case pkLen => exact (BitVec.ofNat_toNat 32 s.profile.pkLen).symm
  case bkLen => exact (BitVec.ofNat_toNat 32 s.profile.bkLen).symm
  all_goals rfl

/-- No register holds the replies. -/
theorem regRead_reply (s : State) (x : Reply) (r : WordReg) : regRead (reply x s) r = regRead s r := by
  cases r <;> rfl

/-- No register holds the agenda. -/
theorem regRead_agenda (s : State) (rest : List Turn) (r : WordReg) :
    regRead { s with agenda := rest } r = regRead s r := by
  cases r <;> rfl

/-! ### Writing -/

theorem ctrlWord_ctrlOf (v : Word) : ctrlWord (ctrlOf v) = v &&& 0x7#32 := by
  refine BitVec.eq_of_getLsbD_eq fun n _ => ?_
  rw [ctrlWord_getLsbD, show (0x7#32 : Word) = BitVec.ofNat 32 (2 ^ 3 - 1) from rfl, and_lowMask_getLsbD (by decide)]
  match n with
  | 0 => simp [ctrlOf]
  | 1 => simp [ctrlOf]
  | 2 => simp [ctrlOf]
  | n + 3 => simp [ctrlOf]

theorem bitAt_getLsbD_zero (v : Word) : bitAt (v.getLsbD 0) 0 = v &&& 0x1#32 := by
  refine BitVec.eq_of_getLsbD_eq fun n _ => ?_
  rw [bitAt_getLsbD (by decide), show (0x1#32 : Word) = BitVec.ofNat 32 (2 ^ 1 - 1) from rfl,
    and_lowMask_getLsbD (by decide)]
  match n with
  | 0 => simp
  | n + 1 => simp

theorem and_allOnes32 (v : Word) : v &&& 0xFFFFFFFF#32 = v := BitVec.and_allOnes

/-- A write to an RW register stores the bits of its mask. -/
theorem regRead_regWrite_self {r : WordReg} {m : Word} (hm : rwMask r = some m) (s : State) (v : Word) :
    regRead (regWrite s r v) r = v &&& m := by
  cases r <;> cases hm
  case ctrl => exact ctrlWord_ctrlOf v
  case ivLen => exact (and_lowMask (k := 5) (by decide) v).symm
  case sboxEn => exact bitAt_getLsbD_zero v
  case ekLen => exact (and_lowMask (k := 8) (by decide) v).symm
  case pkLen => exact (and_lowMask (k := 5) (by decide) v).symm
  case bkLen => exact (and_lowMask (k := 5) (by decide) v).symm
  all_goals exact (and_allOnes32 v).symm

/-- A write to an RW register is read back in no other register. -/
theorem regRead_regWrite_of_ne {r q : WordReg} {m : Word} (hm : rwMask r = some m) (hq : q ≠ r) (s : State) (v : Word) :
    regRead (regWrite s r v) q = regRead s q := by
  cases r <;> cases hm <;> cases q <;> first | rfl | exact absurd rfl hq

/-! ### The step of an access to an idle block -/

theorem regRow_eq (r : WordReg) : regRow r = regOffset r := by cases r <;> rfl

theorem regOffset_lt_windowSize (r : WordReg) : regOffset r < windowSize := by cases r <;> decide

/-- An access at a word register's offset of an idle block is the port's idle access to that offset. -/
theorem step_idle_access {s : State} {a : Access} {rest : List Turn} {r : WordReg} (h : idleWith s a rest)
    (ha : accessAddr a = s.params.base + regRow r) :
    step s = .next (idleAccess { s with agenda := rest } (regOffset r) a) := by
  obtain ⟨hr, hb, hag⟩ := h
  have hoff : offsetOf s.params (accessAddr a) = some (regOffset r) := by
    rw [ha, regRow_eq, offsetOf_base _ (regOffset_lt_windowSize r)]
  simp only [step, hag, takeTurn, portAccess, hr, hb, hoff, Bool.false_eq_true, if_false]

theorem step_idle_regRead {s : State} {r : WordReg} {rest : List Turn}
    (h : idleWith s (.read .w32 (s.params.base + regRow r)) rest) :
    step s = .next (reply (.readOk (regRead s r)) { s with agenda := rest }) := by
  rw [step_idle_access h rfl, ← regRead_agenda s rest]
  simp only [idleAccess, targetOf_regOffset]

theorem step_idle_regWrite {s : State} {r : WordReg} {v : Word} {rest : List Turn}
    (h : idleWith s (.write .w32 (s.params.base + regRow r) v) rest) :
    step s = .next (reply .writeOk (regWrite { s with agenda := rest } r v)) := by
  rw [step_idle_access h rfl]
  simp only [idleAccess, targetOf_regOffset]

/-- Settles O17, register by register. -/
theorem registerReads : Obligations.RegisterReads := by
  refine fun s r => ⟨regRead_eq_regValue s r, fun rest h => ?_⟩
  rw [step_idle_regRead h, regRead_eq_regValue]
  rfl

/-- Settles O18, from the place of each bit. -/
theorem statusWordLayout : Obligations.StatusWordLayout := fun s n =>
  ⟨rfl, rfl, ctrlWord_getLsbD s.ctrl n, statusWord_getLsbD s n, errWord_getLsbD s n⟩

/-- Settles O19: the state after the write is `regWrite`'s, read back in the register written and in every other. -/
theorem registerWritesStore : Obligations.RegisterWritesStore := by
  intro s r m v rest hm h
  refine ⟨_, step_idle_regWrite h, ?_, fun q hq => ?_, ?_⟩
  · rw [regRead_reply, regRead_regWrite_self hm]
  · rw [regRead_reply, regRead_regWrite_of_ne hm hq, regRead_agenda]
  · simp

/-- R26 on the nine stored bits is R26 on the 32-bit word. -/
theorem errAfterWrite_setWidth (e : BitVec 9) (v : Word) :
    (errAfterWrite e v).setWidth 32 = e.setWidth 32 &&& ~~~(v &&& 0x1FF#32) := by
  refine BitVec.eq_of_getLsbD_eq fun n hn => ?_
  rw [show (0x1FF#32 : Word) = BitVec.ofNat 32 (2 ^ 9 - 1) from rfl, BitVec.getLsbD_and, BitVec.getLsbD_not,
    and_lowMask_getLsbD (by decide)]
  by_cases h9 : n < 9
  · simp [errAfterWrite, hn, h9]
  · simp [h9, BitVec.getLsbD_of_ge _ n (Nat.le_of_not_lt h9)]

/-- Settles O21: the write to ERR is `errAfterWrite`. -/
theorem errWriteClearsBits : Obligations.ErrWriteClearsBits := fun s v _ h =>
  ⟨errAfterWrite s.err v, step_idle_regWrite (r := .err) h, errAfterWrite_setWidth s.err v⟩

end Sys2Proof.Machine
end

section
/-! Who changes ERR, SEEDED, the PRNG words and the UnityCN tables (spec/10_state.md R25, R26, R32 to R34, R48, R49): the
host reaches none but ERR, so what is left of a step is reset or the running command. -/

namespace Sys2Proof.Machine

/-! ### ERR -/

/-- Raising an error clears no bit. -/
theorem errWith_keeps {e : BitVec 9} {n : Nat} (h : e.getLsbD n = true) (c : Cause) :
    (errWith e c).getLsbD n = true := by
  rw [errWith, BitVec.getLsbD_or, h, Bool.true_or]

theorem EngineEffect.err_keeps {s t : State} (he : EngineEffect s t) {n : Nat} (h : s.err.getLsbD n = true) :
    t.err.getLsbD n = true := by
  cases he with
  | command i _ hu _ ht =>
    rw [← hu.err] at h
    rcases ht with rfl | ⟨c, -, rfl⟩
    · exact h
    · exact errWith_keeps h c
  | illegal why => exact errWith_keeps h .illegalCmd

/-- A bit that a write to ERR clears is 1 in the value written (R26). -/
theorem errAfterWrite_cleared {e : BitVec 9} {v : Word} {n : Nat} (h : e.getLsbD n = true)
    (hc : (errAfterWrite e v).getLsbD n = false) : v.getLsbD n = true := by
  have hn : n < 9 := BitVec.lt_of_getLsbD h
  simpa [errAfterWrite, h, hn] using hc

/-- An access that clears an ERR bit is a write of 1 to it while idle. -/
theorem PortEffect.err_cleared {s t : State} {a : Access} (he : PortEffect s a t) {n : Nat}
    (h : s.err.getLsbD n = true) (hc : t.err.getLsbD n = false) :
    s.busy = false ∧ ∃ v, a = .write .w32 (s.params.base + 0x00C) v ∧ v.getLsbD n = true := by
  cases he with
  | answered r => exact absurd (h.symm.trans hc) (by decide)
  | refused r => exact absurd ((errWith_keeps h _).symm.trans hc) (by decide)
  | regWritten r v hb _ ha =>
    rw [reply_err] at hc
    by_cases hr : r = .err
    · subst hr
      exact ⟨hb, v, ha, errAfterWrite_cleared h hc⟩
    · rw [regWrite_err_of_ne hr, h] at hc
      cases hc
  | bytesWritten r w o v =>
    rw [reply_err, regionWrite_err, h] at hc
    cases hc

/-- Settles O55, by cases on the effect of the step. -/
theorem errBitsAreSticky : Obligations.ErrBitsAreSticky := by
  intro s t n hstep h hc
  cases step_cases hstep with
  | idle => exact absurd (h.symm.trans hc) (by decide)
  | engine _ _ he => exact absurd ((he.err_keeps h).symm.trans hc) (by decide)
  | host a rest ha he =>
    obtain ⟨hb, v, rfl, hv⟩ := he.err_cleared h hc
    exact .inr ⟨hb, rest, v, ha, hv⟩
  | assertReset rest ha => exact .inl ⟨rest, ha⟩
  | releaseReset => exact absurd (h.symm.trans hc) (by decide)

/-! ### What the host cannot write -/

/-- `t` has the generator's registers and the UnityCN tables of `s`. -/
structure UnitsKept (s t : State) : Prop where
  seeded : t.seeded = s.seeded
  prng : t.prng = s.prng
  prngSeed : t.prngSeed = s.prngSeed
  tables : ∀ o, isTableOffset o → t.ram.read o = s.ram.read o

theorem PortEffect.unitsKept {s t : State} {a : Access} (he : PortEffect s a t) : UnitsKept s t := by
  cases he with
  | answered r => exact ⟨rfl, rfl, rfl, fun _ _ => rfl⟩
  | refused r => exact ⟨rfl, rfl, rfl, fun _ _ => rfl⟩
  | regWritten r v => constructor <;> simp
  | bytesWritten r w o v _ _ _ h1 h2 =>
    exact ⟨by simp, by simp, by simp, fun x hx => (regionWrite_writes h1 h2).frame fun _ ⟨_, hn⟩ => hn hx⟩

/-! ### What a command can change of it -/

/-- `t` differs from `s` at most in what the command `i` may change of the generator and the UnityCN tables. -/
structure UnitsFramed (i : Instr) (s t : State) : Prop where
  seed : i ≠ .prngSeed → t.prngSeed = s.prngSeed ∧ t.seeded = s.seeded
  prng : i ∉ [.prngSeed, .prngNext, .prngNextDecrypt] → t.prng = s.prng
  tables : i ≠ .ucnHeader → ∀ o, isTableOffset o → t.ram.read o = s.ram.read o

/-- UCN_HEADER alone may store to the tables. -/
theorem storeSpan_not_table {i : Instr} (hi : i ≠ .ucnHeader) {s : State} {o : Nat} (h : storeSpan i s o) :
    ¬ isTableOffset o := by
  cases i with
  | prngSeed => exact h.elim
  | prngNext => exact h.elim
  | prngNextDecrypt => exact bufAt_not_table h.1
  | mr0kCheck => exact h.elim
  | mr0kDecrypt =>
    rcases h with ⟨hbuf, -⟩ | ⟨-, hbuf, -⟩ <;> exact bufAt_not_table hbuf
  | ucnKeyHex =>
    simp only [storeSpan, isTableOffset] at h ⊢
    omega
  | ucnHeader => exact absurd rfl hi
  | ucnBlock => exact bufAt_not_table h.1

theorem Effect.unitsFramed {i : Instr} {s u : State} (h : Effect i s u) : UnitsFramed i s u where
  seed := h.seed
  prng := h.prng
  tables hi _ ho := h.ram.frame fun _ hs => storeSpan_not_table hi hs.1 ho

/-- The engine step keeps them all, or changes what the decoded command may. -/
theorem EngineEffect.units {s t : State} (h : EngineEffect s t) :
    UnitsKept s t ∨ ∃ i, decodeWord s.lastCmd = .command i ∧ exec i s = .next t ∧ UnitsFramed i s t := by
  cases h with
  | command i hd hu hx ht =>
    obtain ⟨hseed, hprng, htables⟩ := hu.unitsFramed
    refine .inr ⟨i, hd, hx, ?_⟩
    rcases ht with rfl | ⟨c, -, rfl⟩ <;> exact ⟨hseed, hprng, htables⟩
  | illegal why => exact .inl ⟨rfl, rfl, rfl, fun _ _ => rfl⟩

/-- A step asserts reset, keeps them all, or is a running command's and changes what that command may. -/
theorem step_units {s t : State} (h : step s = .next t) :
    (∃ rest, s.agenda = .assertReset :: rest) ∨ UnitsKept s t ∨
      (s.busy = true ∧ ∃ i, decodeWord s.lastCmd = .command i ∧ exec i (afterTurn s) = .next t ∧
        UnitsFramed i s t) := by
  cases step_cases h with
  | idle => exact .inr (.inl ⟨rfl, rfl, rfl, fun _ _ => rfl⟩)
  | engine hb _ he =>
    rcases he.units with ⟨hseeded, hprng, hseed, htables⟩ | ⟨i, hd, hx, hseed, hprng, htables⟩
    · exact .inr (.inl ⟨hseeded, hprng, hseed, htables⟩)
    · exact .inr (.inr ⟨hb, i, hd, hx, hseed, hprng, htables⟩)
  | host a rest _ he =>
    obtain ⟨hseeded, hprng, hseed, htables⟩ := he.unitsKept
    exact .inr (.inl ⟨hseeded, hprng, hseed, htables⟩)
  | assertReset rest ha => exact .inl ⟨rest, ha⟩
  | releaseReset => exact .inr (.inl ⟨rfl, rfl, rfl, fun _ _ => rfl⟩)

/-! ### Who changes what -/

theorem exec_prngSeed_seeded {s t : State} (h : exec .prngSeed s = .next t) : t.seeded = true := by
  rw [exec_eq] at h
  rcases complete_next_iff.mp h with ⟨u, hu, rfl⟩ | ⟨c, u, hu, -⟩ <;> cases hu
  rfl

/-- Settles O56: of the commands only PRNG_SEED changes SEEDED, and it sets it. -/
theorem seededChangesOnly : Obligations.SeededChangesOnly := by
  intro s t h hne
  rcases step_units h with hreset | hkept | ⟨hb, i, hd, hx, hframe⟩
  · exact .inl hreset
  · exact absurd hkept.seeded hne
  · have hi : i = .prngSeed := by_contra fun hi => hne (hframe.seed hi).2
    subst hi
    exact .inr ⟨hb, hd, exec_prngSeed_seeded hx⟩

/-- Settles O57, from what each command may change of the generator. -/
theorem prngWordsChangeOnly : Obligations.PrngWordsChangeOnly := by
  intro s t h hreset
  rcases step_units h with hreset' | hkept | ⟨hb, i, hd, -, hframe⟩
  · exact absurd hreset' hreset
  · exact ⟨fun hne => absurd hkept.prng hne, fun hne => absurd hkept.prngSeed hne⟩
  · refine ⟨fun hne => ⟨hb, i, by_contra fun hi => hne (hframe.prng hi), hd⟩, fun hne => ⟨hb, ?_⟩⟩
    have hi : i = .prngSeed := by_contra fun hi => hne (hframe.seed hi).1
    exact hi ▸ hd

/-- Settles O58: no other command's span reaches a table. -/
theorem tablesChangeOnly : Obligations.TablesChangeOnly := by
  intro s t o h ho hne
  rcases step_units h with hreset | hkept | ⟨hb, i, hd, -, hframe⟩
  · exact .inl hreset
  · exact absurd (hkept.tables o ho) hne
  · have hi : i = .ucnHeader := by_contra fun hi => hne (hframe.tables hi o ho)
    exact .inr ⟨hb, hi ▸ hd⟩

end Sys2Proof.Machine
end

section
/-! Host accesses to an idle block (spec/20_memory.md R70 to R79, R89): the step of an access is named by what the access
reaches; which offsets are legal, and what each byte lane moves, is said once. -/

namespace Sys2Proof.Machine
open Sys2Proof.Spec

/-! ### The step of one access -/

/-- The answer to a read of a target at offset `o` of an idle block (R72, R74). -/
def readReply (s : State) (w : Width) (o : Nat) (g : Target) : Reply :=
  match g with
  | .reg r => .readOk (regRead s r)
  | .bytes _ => .readOk (lanesRead s w o)
  | .none => .readSlverr 0#32

/-- The state after a write of `v` to a target at offset `o` of an idle block (R72, R74, R76). -/
def writeTarget (s : State) (w : Width) (o : Nat) (v : Word) (g : Target) : State :=
  match g with
  | .reg r => reply .writeOk (regWrite s r v)
  | .bytes r => reply .writeOk (regionWrite s r w o v)
  | .none => reply .writeSlverr s

theorem idleAccess_read (s : State) (w : Width) (o addr : Nat) :
    idleAccess s o (.read w addr) = reply (readReply s w o (targetOf s.params w o)) s := by
  simp only [idleAccess]
  cases targetOf s.params w o <;> rfl

theorem idleAccess_write (s : State) (w : Width) (o addr : Nat) (v : Word) :
    idleAccess s o (.write w addr v) = writeTarget s w o v (targetOf s.params w o) := by
  simp only [idleAccess]
  cases targetOf s.params w o <;> rfl

theorem step_host {s : State} {a : Access} {rest : List Turn} (h : s.agenda = .host a :: rest) :
    step s = .next (portAccess { s with agenda := rest } a) := by
  simp only [step, h, takeTurn]

theorem step_idle_at {s : State} {a : Access} {o : Nat} {rest : List Turn} (h : idleWith s a rest)
    (ha : accessAddr a = s.params.base + o) (ho : o < windowSize) :
    step s = .next (idleAccess { s with agenda := rest } o a) := by
  obtain ⟨hr, hb, hag⟩ := h
  simp only [step_host hag, portAccess, hr, hb, ha, offsetOf_base _ ho, Bool.false_eq_true, if_false]

theorem step_idle_read {s : State} {w : Width} {o : Nat} {rest : List Turn}
    (h : idleWith s (.read w (s.params.base + o)) rest) (ho : o < windowSize) :
    step s = .next (reply (readReply s w o (targetOf s.params w o)) { s with agenda := rest }) := by
  rw [step_idle_at h rfl ho, idleAccess_read]
  cases targetOf s.params w o with
  | reg r => simp only [readReply, regRead_agenda]
  | bytes r => rfl
  | none => rfl

theorem step_idle_write {s : State} {w : Width} {o : Nat} {v : Word} {rest : List Turn}
    (h : idleWith s (.write w (s.params.base + o) v) rest) (ho : o < windowSize) :
    step s = .next (writeTarget { s with agenda := rest } w o v (targetOf s.params w o)) := by
  rw [step_idle_at h rfl ho, idleAccess_write]

/-! ### Outside the window -/

theorem offsetOf_eq_none_iff {p : Params} {addr : Nat} :
    offsetOf p addr = none ↔ addr < p.base ∨ p.base + windowSize ≤ addr := by
  rw [offsetOf]
  split
  · simp only [reduceCtorEq, false_iff]
    omega
  · simp only [true_iff]
    omega

theorem step_outside {s : State} {a : Access} {rest : List Turn} (h : s.agenda = .host a :: rest)
    (ho : offsetOf s.params (accessAddr a) = none) :
    step s = .next (reply .noAnswer { s with agenda := rest }) := by
  rw [step_host h]
  simp only [portAccess, ho, ite_self]

/-- Settles O15: in reset and out of it, the port answers no address that has no offset. -/
theorem accessOutsideWindowIgnored : Obligations.AccessOutsideWindowIgnored := fun _ _ _ h ho =>
  step_outside h (offsetOf_eq_none_iff.mpr ho)

/-! ### Legal accesses -/

theorem bytesOf_eq (w : Width) : bytesOf w = widthBytes w := by cases w <;> rfl

theorem targetOf_row {p : Params} {w : Width} {o : Nat} {r : ByteRegion} (hal : o % bytesOf w = 0)
    (h1 : rowBase r ≤ o) (h2 : o + bytesOf w ≤ rowBase r + rowSize p r) : targetOf p w o = .bytes r := by
  rw [bytesOf_eq] at hal h2
  rw [rowBase_eq] at h1 h2
  rw [rowSize_eq] at h2
  exact targetOf_region hal h1 h2

/-- An access reaches a register or a region exactly when R73 makes it legal. -/
theorem legalAt_iff {p : Params} {w : Width} {o : Nat} :
    legalAt p w o ↔ (∃ r, targetOf p w o = .reg r) ∨ ∃ r, targetOf p w o = .bytes r := by
  constructor
  · rintro (⟨rfl, r, rfl⟩ | ⟨hal, r, h1, h2⟩)
    · exact .inl ⟨r, by rw [regRow_eq, targetOf_regOffset]⟩
    · exact .inr ⟨r, targetOf_row hal h1 h2⟩
  · rintro (⟨r, hr⟩ | ⟨r, hr⟩)
    · obtain ⟨hw, ho⟩ := targetOf_reg hr
      exact .inl ⟨hw, r, by rw [regRow_eq, ho]⟩
    · obtain ⟨hal, h1, h2⟩ := targetOf_bytes hr
      exact .inr ⟨by rw [bytesOf_eq, hal], r, by rw [rowBase_eq]; exact h1,
        by rw [rowBase_eq, rowSize_eq, bytesOf_eq]; exact h2⟩

theorem targetOf_of_not_legalAt {p : Params} {w : Width} {o : Nat} (h : ¬ legalAt p w o) :
    targetOf p w o = .none := by
  rw [legalAt_iff] at h
  cases hg : targetOf p w o with
  | reg r => exact absurd (.inl ⟨r, hg⟩) h
  | bytes r => exact absurd (.inr ⟨r, hg⟩) h
  | none => rfl

@[simp] theorem regionWrite_agenda (s : State) (r : ByteRegion) (w : Width) (o : Nat) (v : Word) :
    (regionWrite s r w o v).agenda = s.agenda := by rw [regionWrite_eq]

@[simp] theorem regionWrite_replies (s : State) (r : ByteRegion) (w : Width) (o : Nat) (v : Word) :
    (regionWrite s r w o v).replies = s.replies := by rw [regionWrite_eq]

/-- Settles O16: a legal access reaches a register or a region, any other reaches nothing. -/
theorem illegalAccessesGetSlverr : Obligations.IllegalAccessesGetSlverr := by
  refine fun s w o v rest ho => ⟨fun h => ?_, fun h => ?_⟩
  · rw [step_idle_read h ho]
    refine ⟨fun hill => by rw [targetOf_of_not_legalAt hill]; rfl, fun hleg => ?_⟩
    rcases legalAt_iff.mp hleg with ⟨r, hg⟩ | ⟨r, hg⟩
    · exact ⟨regRead s r, by rw [hg]; rfl⟩
    · exact ⟨lanesRead s w o, by rw [hg]; rfl⟩
  · rw [step_idle_write h ho]
    refine ⟨fun hill => by rw [targetOf_of_not_legalAt hill]; rfl, fun hleg => ⟨_, rfl, ?_⟩⟩
    rcases legalAt_iff.mp hleg with ⟨r, hg⟩ | ⟨r, hg⟩ <;> simp [hg, writeTarget]

/-! ### Two reads in a row -/

/-- No answer depends on the agenda or on the answers given before. -/
theorem readReply_reply (s : State) (w : Width) (o : Nat) (g : Target) (d : Reply) (rest : List Turn) :
    readReply (reply d { s with agenda := rest }) w o g = readReply s w o g := by
  cases g with
  | reg r => simp only [readReply, regRead_reply, regRead_agenda]
  | bytes r => rfl
  | none => rfl

/-- Settles O22: inside the window both reads get the same `readReply`, outside it neither is answered. -/
theorem readsAreIdempotent : Obligations.ReadsAreIdempotent := by
  intro s w addr rest h
  obtain ⟨hr, hb, hag⟩ := h
  cases ho : offsetOf s.params addr with
  | none =>
    exact ⟨_, .noAnswer, step_outside hag ho, step_outside (s := reply _ _) rfl ho⟩
  | some o =>
    obtain ⟨rfl, hlt⟩ := offsetOf_some ho
    have hsecond := step_idle_read (s := reply (readReply s w o (targetOf s.params w o))
      { s with agenda := .host (.read w (s.params.base + o)) :: rest }) ⟨hr, hb, rfl⟩ hlt
    rw [readReply_reply] at hsecond
    exact ⟨_, _, step_idle_read ⟨hr, hb, hag⟩ hlt, hsecond⟩

/-! ### Writes that change nothing -/

theorem regWrite_of_ro {r : WordReg} (hr : r ∈ roRegs) (s : State) (v : Word) : regWrite s r v = s := by
  simp only [roRegs, List.mem_cons, List.not_mem_nil, or_false] at hr
  rcases hr with rfl | rfl | rfl | rfl | rfl | rfl | rfl | rfl <;> rfl

theorem regionWrite_of_ro {r : ByteRegion} (hr : regionWritable r = false) (s : State) (w : Width) (o : Nat)
    (v : Word) : regionWrite s r w o v = s := by
  rw [regionWrite, hr]
  rfl

/-- An aligned access never crosses from one table into the other, or out of them. -/
theorem targetOf_table {o : Nat} (h : isTableOffset o) {w : Width} (hal : o % bytesOf w = 0) (p : Params) :
    ∃ r, regionWritable r = false ∧ targetOf p w o = .bytes r := by
  obtain ⟨h1, h2⟩ := h
  have hend : o + bytesOf w ≤ 0x0F0 ∨ (0x0F0 ≤ o ∧ o + bytesOf w ≤ 0x100) := by
    cases w <;> simp only [bytesOf] at hal ⊢ <;> omega
  rcases hend with hlow | ⟨hbase, hhigh⟩
  · exact ⟨.indexTbl, rfl, targetOf_row hal h1 hlow⟩
  · exact ⟨.subTbl, rfl, targetOf_row hal hbase hhigh⟩

theorem isTableOffset_lt_windowSize {o : Nat} (h : isTableOffset o) : o < windowSize := by
  obtain ⟨-, h2⟩ := h
  simp only [windowSize]
  omega

/-- Settles O20: a read-only register or table is written without effect, STATUS by `doneAfterWrite`. -/
theorem readOnlyWritesIgnored : Obligations.ReadOnlyWritesIgnored := by
  refine fun s v rest => ⟨fun r hr h => ?_, fun w o h1 h2 hal h => ?_, fun h => step_idle_regWrite (r := .status) h⟩
  · rw [step_idle_regWrite h, regWrite_of_ro hr]
    rfl
  · obtain ⟨r, hro, hg⟩ := targetOf_table ⟨h1, h2⟩ hal s.params
    rw [step_idle_write h (isTableOffset_lt_windowSize ⟨h1, h2⟩), hg, writeTarget, regionWrite_of_ro hro]
    rfl

/-! ### Byte lanes of a write -/

/-- The largest BUF ends where the window does (R7, R70). -/
theorem bufSize_le (p : Params) : p.bufSize ≤ 2 ^ 23 := Nat.pow_le_pow_right (by decide) (by omega)

theorem row_lt_windowSize {p : Params} {w : Width} {r : ByteRegion} {o : Nat}
    (h : o + bytesOf w ≤ rowBase r + rowSize p r) : o < windowSize := by
  have hbuf := bufSize_le p
  have hw : 0 < bytesOf w := by cases w <;> decide
  cases r <;> simp only [rowBase, rowSize, windowSize] at h ⊢ <;> omega

theorem regionWritable_of_ne {r : ByteRegion} (hi : r ≠ .indexTbl) (hs : r ≠ .subTbl) : regionWritable r = true := by
  cases r
  case indexTbl => exact absurd rfl hi
  case subTbl => exact absurd rfl hs
  all_goals rfl

theorem lanesOf_get {w : Width} {k : Nat} (hk : k < bytesOf w) (v : Word) :
    byteOf (lanesOf w v) k = leByte v.toNat k := by
  rw [leByte, ← extract_byte]
  cases w <;> simp only [bytesOf] at hk <;> interval_cases k <;> rfl

/-- Settles O23: the bytes stored are those of `lanesOf`, and `writeBytes` reaches no other. -/
theorem byteRegionWrites : Obligations.ByteRegionWrites := by
  intro s w r o v rest hi hs h1 h2 hal h
  have hlen : (lanesOf w v).length = bytesOf w := by rw [lanesOf_length, bytesOf_eq]
  refine ⟨writeBytes s.ram o (lanesOf w v), ?_, fun k hk => ?_, fun x hx => ?_⟩
  · rw [step_idle_write h (row_lt_windowSize h2), targetOf_row hal h1 h2, writeTarget, regionWrite,
      if_pos (regionWritable_of_ne hi hs)]
    rfl
  · rw [writeBytes_read, hlen, if_pos (by omega), Nat.add_sub_cancel_left, lanesOf_get hk]
  · rw [writeBytes_read, hlen, if_neg hx]

/-! ### Byte lanes of a read -/

/-- The bytes a read moves, lowest offset first, as numbers. -/
def lanesAt (s : State) (w : Width) (o : Nat) : List Nat :=
  (List.range (bytesOf w)).map fun k => (hostByte s (o + k)).toNat

theorem lanesAt_length (s : State) (w : Width) (o : Nat) : (lanesAt s w o).length = bytesOf w := by simp [lanesAt]

theorem lanesAt_lt {s : State} {w : Width} {o x : Nat} (hx : x ∈ lanesAt s w o) : x < 256 := by
  obtain ⟨k, -, rfl⟩ := List.mem_map.mp hx
  exact (hostByte s (o + k)).isLt

theorem toNat_append_byte {n : Nat} (a : BitVec n) (b : Byte) : (a ++ b).toNat = a.toNat * 256 + b.toNat := by
  rw [BitVec.toNat_append, append_byte b.isLt]

/-- The value of a read is the little-endian number of its bytes (R72). -/
theorem lanesRead_toNat (s : State) (w : Width) (o : Nat) :
    (lanesRead s w o).toNat = Nat.ofDigits 256 (lanesAt s w o) := by
  cases w <;>
    simp only [lanesRead, lanesAt, bytesOf, List.range_succ, List.range_zero, List.nil_append, List.cons_append,
      List.map_cons, List.map_nil, Nat.ofDigits_cons, Nat.ofDigits_nil, BitVec.toNat_setWidth, toNat_append_byte,
      Nat.add_zero] <;>
    omega

/-- Byte `k` of a number is its digit `k` in base 256. -/
theorem leByte_ofDigits {l : List Nat} (hl : ∀ x ∈ l, x < 256) {k : Nat} (hk : k < l.length) :
    leByte (Nat.ofDigits 256 l) k = BitVec.ofNat 8 l[k] := by
  rw [leByte, pow_mul, show 2 ^ 8 = 256 from rfl, Nat.ofDigits_div_pow_eq_ofDigits_drop k (by decide) l hl,
    List.drop_eq_getElem_cons hk, Nat.ofDigits_cons]
  exact BitVec.eq_of_toNat_eq (Nat.add_mul_mod_self_left _ _ _)

theorem lanesRead_lt (s : State) (w : Width) (o : Nat) : (lanesRead s w o).toNat < 2 ^ (8 * bytesOf w) := by
  rw [lanesRead_toNat, pow_mul, ← lanesAt_length s w o]
  exact Nat.ofDigits_lt_base_pow_length (by decide) fun _ => lanesAt_lt

/-- Lane `k` of a read is the byte the host reads at `o + k`. -/
theorem leByte_lanesRead {w : Width} {k : Nat} (hk : k < bytesOf w) (s : State) (o : Nat) :
    leByte (lanesRead s w o).toNat k = hostByte s (o + k) := by
  rw [lanesRead_toNat, leByte_ofDigits (fun _ => lanesAt_lt) (by rwa [lanesAt_length])]
  simp [lanesAt]

theorem hostByte_of_written {s : State} {o : Nat} {b : Byte} (h : s.ram.read o = some b) : hostByte s o = b := by
  rw [hostByte, h]

/-- Settles O24: the value is `lanesRead`'s, lane by lane. -/
theorem byteRegionReads : Obligations.ByteRegionReads := by
  intro s w r o rest h1 h2 hal h
  refine ⟨lanesRead s w o, ?_, lanesRead_lt s w o, fun k hk b hread => ?_⟩
  · rw [step_idle_read h (row_lt_windowSize h2), targetOf_row hal h1 h2]
    rfl
  · rw [leByte_lanesRead hk, hostByte_of_written hread]

end Sys2Proof.Machine
end

section
/-! The decoder and the encoder (spec/30_encoding.md R90 to R94, R99): a word decodes to a command exactly when it is,
as a number, that command's opcode; so it is the word `encode` gives. -/

namespace Sys2Proof.Machine
open Sys2Proof.Spec

/-! ### The two fields of a word (R90) -/

theorem opcodeField_toNat (v : Word) : (opcodeField v).toNat = v.toNat % 2 ^ 8 := by
  rw [opcodeField, BitVec.extractLsb'_toNat, Nat.shiftRight_zero]

theorem rsvdField_eq_zero_iff (v : Word) : rsvdField v = 0#24 ↔ v.toNat / 2 ^ 8 = 0 := by
  have hlt : v.toNat / 2 ^ 8 < 2 ^ 24 := Nat.div_lt_of_lt_mul v.isLt
  rw [← BitVec.toNat_inj, rsvdField, BitVec.extractLsb'_toNat, Nat.shiftRight_eq_div_pow, Nat.mod_eq_of_lt hlt,
    BitVec.toNat_zero]

/-! ### The rows of R93 -/

theorem opcode_lt (i : Instr) : opcode i < 2 ^ 8 := by cases i <;> decide

theorem encode_toNat (i : Instr) : (encode i).toNat = opcode i := by cases i <;> rfl

/-- Every row of the decoder's table has its command's opcode. -/
theorem opcodeRows_toNat {o : Byte} {i : Instr} (h : (o, i) ∈ opcodeRows) : o.toNat = opcode i := by
  have hrows : ∀ row ∈ opcodeRows, row.1.toNat = opcode row.2 := by decide
  exact hrows _ h

theorem opcodeRows_lookup_opcode (i : Instr) : opcodeRows.lookup (BitVec.ofNat 8 (opcode i)) = some i := by
  cases i <;> rfl

theorem opcodeRows_lookup_iff (o : Byte) (i : Instr) : opcodeRows.lookup o = some i ↔ o.toNat = opcode i := by
  constructor
  · intro h
    obtain ⟨before, after, hrows, -⟩ := List.lookup_eq_some_iff.mp h
    exact opcodeRows_toNat (by simp [hrows])
  · intro h
    rw [← opcodeRows_lookup_opcode i, ← h, BitVec.ofNat_toNat, BitVec.setWidth_eq]

/-! ### Decoding (R91, R99) -/

theorem decodeWord_eq_command_iff (v : Word) (i : Instr) :
    decodeWord v = .command i ↔ v.toNat / 2 ^ 8 = 0 ∧ v.toNat % 2 ^ 8 = opcode i := by
  rw [← rsvdField_eq_zero_iff, ← opcodeField_toNat, ← opcodeRows_lookup_iff, decodeWord]
  by_cases hr : rsvdField v = 0#24
  · cases hl : opcodeRows.lookup (opcodeField v) <;> simp [hr]
  · simp [hr]

/-- The decoder is total: it names a command or a reason. -/
theorem decodeWord_illegal_iff (v : Word) :
    (∃ why, decodeWord v = .illegal why) ↔ ∀ i, decodeWord v ≠ .command i := by
  cases decodeWord v <;> simp

theorem decodeWord_eq_command_iff_encode (v : Word) (i : Instr) : decodeWord v = .command i ↔ encode i = v := by
  have hlt := opcode_lt i
  rw [decodeWord_eq_command_iff, ← BitVec.toNat_inj, encode_toNat]
  omega

theorem decodeWord_encode (i : Instr) : decodeWord (encode i) = .command i :=
  (decodeWord_eq_command_iff_encode _ i).mpr rfl

/-- A whole 32-bit word, numbered as the opcode table numbers it, is the word itself. -/
theorem decodeTableWord_toNat (v : Word) (i : Instr) :
    decodeTableWord 32 v.toNat = some i ↔ decodeWord v = .command i := by
  rw [decodeTableWord, if_pos (le_refl 32), Nat.mod_eq_of_lt v.isLt, BitVec.ofNat_toNat, BitVec.setWidth_eq]
  cases decodeWord v <;> simp

/-- Settles O3: a command's word is the one word that decodes to it. -/
theorem decodeEncodeRoundTrip : Obligations.DecodeEncodeRoundTrip :=
  ⟨fun i => ⟨decodeWord_encode i, (decodeTableWord_toNat _ i).mpr (decodeWord_encode i)⟩,
    fun v i => (decodeWord_eq_command_iff_encode v i).mp⟩

/-- Settles O2, from the two fields of the word. -/
theorem decodeAcceptsExactlyLegalWords : Obligations.DecodeAcceptsExactlyLegalWords := by
  refine fun v => ⟨decodeWord_eq_command_iff v, ?_⟩
  simp only [decodeWord_illegal_iff, ne_eq, decodeWord_eq_command_iff, not_and]
  exact imp_forall_iff.symm.trans imp_iff_not_or

/-- Settles O1: the eight words are those `encode` gives, the last two are computed. -/
theorem specWordsDecode : Obligations.SpecWordsDecode :=
  ⟨decodeWord_encode .prngSeed, decodeWord_encode .prngNext, decodeWord_encode .prngNextDecrypt,
    decodeWord_encode .mr0kCheck, decodeWord_encode .mr0kDecrypt, decodeWord_encode .ucnKeyHex,
    decodeWord_encode .ucnHeader, decodeWord_encode .ucnBlock, by decide, by decide⟩

/-! ### Running an illegal word (R94, spec/40_command_engine.md R112, R117) -/

/-- The engine's turn of a running block performs the command of LAST_CMD. -/
theorem step_engine {s : State} {rest : List Turn} (hb : s.busy = true) (hr : s.inReset = false)
    (ha : s.agenda = .engine :: rest) : step s = runCommand { s with agenda := rest } := by
  simp [step, ha, takeTurn, engineTurn, engineEnabled, hb, hr]

theorem runCommand_of_illegal {s : State} {why : Illegal} (h : decodeWord s.lastCmd = .illegal why) :
    runCommand s = .next (failed 0 s) := by
  rw [runCommand, h]
  rfl

theorem decodeWord_illegal_of_notMem {v : Word}
    (h : v ∉ [0x01#32, 0x02#32, 0x03#32, 0x10#32, 0x11#32, 0x20#32, 0x21#32, 0x22#32]) :
    ∃ why, decodeWord v = .illegal why := by
  refine (decodeWord_illegal_iff v).mpr fun i hi => h ?_
  rw [← (decodeWord_eq_command_iff_encode v i).mp hi]
  cases i <;> decide

/-- Settles O5: such a word is no command's, so its run raises ILLEGAL_CMD. -/
theorem illegalWordRaisesIllegalCmd : Obligations.IllegalWordRaisesIllegalCmd := by
  intro s rest hb hr hword ha
  obtain ⟨why, hd⟩ := decodeWord_illegal_of_notMem hword
  rw [step_engine hb hr ha, runCommand_of_illegal (s := { s with agenda := rest }) hd]

end Sys2Proof.Machine
end

section
/-! What a command ends in (spec/40_command_engine.md R113, R118, R121, spec/30_encoding.md R93,
spec/60_exceptions.md R231): completion of the effect `opOf_effect` states, with at most one ERR bit more; the model's
causes and spans are the numbers of the rules. -/

namespace Sys2Proof.Machine
open Sys2Proof.Spec

/-! ### The model's causes and spans as numbers -/

theorem errWith_eq_shift (e : BitVec 9) (c : Cause) : errWith e c = e ||| 1#9 <<< errBit c := rfl

theorem causeBits_eq (i : Instr) : causeBits i = (causesOf i).map errBit := by cases i <;> rfl

theorem errBit_mem_causeBits {i : Instr} {c : Cause} (hc : c ∈ causesOf i) : errBit c ∈ causeBits i :=
  causeBits_eq i ▸ List.mem_map_of_mem hc

theorem mr0kBlockLen_eq_blockLen (len : Nat) : mr0kBlockLen len = blockLen len := by
  rw [mr0kBlockLen, Nat.shiftRight_eq_div_pow]
  rfl

theorem storeSpan_iff_mayStore {i : Instr} {s : State} {o : Nat} : storeSpan i s o ↔ mayStore i s o := by
  cases i
  case mr0kDecrypt =>
    rw [storeSpan, mr0kBlockLen_eq_blockLen]
    rfl
  all_goals rfl

/-! ### Every command -/

/-- A command that gives a next state completes an effect of it, with ERR as it was or one of its own causes raised. -/
theorem exec_next_completes {i : Instr} {s t : State} (h : exec i s = .next t) :
    ∃ u e, Effect i s u ∧ t = finish { u with err := e } ∧ (e = s.err ∨ ∃ c ∈ causesOf i, e = errWith s.err c) := by
  obtain ⟨u, hu, rfl | ⟨c, hc, rfl⟩⟩ := exec_next h
  · exact ⟨u, u.err, hu, rfl, .inl hu.err⟩
  · exact ⟨u, errWith u.err c, hu, rfl, .inr ⟨c, hc, by rw [hu.err]⟩⟩

/-- Settles O25: completion clears BUSY and sets DONE, and a raise sets the bit of its cause. -/
theorem commandsCompleteWithOneError : Obligations.CommandsCompleteWithOneError := by
  intro i s t h
  obtain ⟨u, e, -, rfl, he | ⟨c, hc, he⟩⟩ := exec_next_completes h
  · exact ⟨rfl, rfl, .inl he⟩
  · exact ⟨rfl, rfl, .inr ⟨errBit c, errBit_mem_causeBits hc, he⟩⟩

/-- Settles O26: completion touches BUSY, DONE and ERR alone, so the frame is the effect's. -/
theorem commandRegisterFrame : Obligations.CommandRegisterFrame := by
  intro i s t h
  obtain ⟨u, e, hu, rfl, -⟩ := exec_next_completes h
  exact ⟨⟨hu.params, hu.lastCmd, hu.opAddr, hu.opLen, hu.opVal, hu.profile, hu.doneIe, hu.errIe, hu.inReset,
    hu.resets, hu.agenda, hu.replies⟩, hu.prng, hu.seed, hu.result0, hu.result1, hu.akeyEn, hu.tablesValid,
    hu.ucnIndex⟩

/-- Settles O27: every byte the effect writes lies in the command's span. -/
theorem commandMemoryFrame : Obligations.CommandMemoryFrame := by
  intro i s t h o ho
  obtain ⟨u, e, hu, rfl, -⟩ := exec_next_completes h
  exact hu.ram.frame fun _ hs => ho (storeSpan_iff_mayStore.mp hs.1)

end Sys2Proof.Machine
end

section
/-! The issue of a command and the step that runs it (spec/40_command_engine.md R111, R112, notes/assumptions 6
and 7). -/

namespace Sys2Proof.Machine
open Sys2Proof.Spec

/-- Settles O13: the write at COMMAND's offset is `issue`. -/
theorem commandWriteIssues : Obligations.CommandWriteIssues := fun _ _ _ h =>
  step_idle_regWrite (r := .command) h

/-- With no turn left the engine of a running block still performs the command of LAST_CMD (R119). -/
theorem step_engine_nil {s : State} (hb : s.busy = true) (hr : s.inReset = false) (ha : s.agenda = []) :
    step s = runCommand s := by
  simp [step, ha, engineTurn, engineEnabled, hb, hr]

theorem runCommand_of_command {s : State} {i : Instr} (h : decodeWord s.lastCmd = .command i) :
    runCommand s = exec i s := by
  rw [runCommand, h]

/-- Settles O4: in both turns the engine runs the decoded word. -/
theorem stepRunsDecodedCommand : Obligations.StepRunsDecodedCommand := by
  refine fun s i hb hr hd => ⟨fun ha => ?_, fun rest ha => ?_⟩
  · rw [step_engine_nil hb hr ha, runCommand_of_command hd]
  · rw [step_engine hb hr ha, runCommand_of_command (s := { s with agenda := rest }) hd]

/-- The step after a placing runs the placed word. -/
theorem step_placeCommand (v : Word) (s : State) :
    step (placeCommand v s) = runCommand { issue v s with inReset := false } :=
  step_engine (rest := s.agenda) rfl rfl rfl

theorem withFetchWord_eq {w : Nat} (hw : w < 2 ^ 32) (s : State) :
    s.withFetchWord 32 w = placeCommand (BitVec.ofNat 32 w) s := by
  rw [State.withFetchWord, Nat.mod_eq_of_lt hw]

/-- Settles O7: the placed word is LAST_CMD of the state whose engine turn comes next, and it decodes to the command. -/
theorem placedWordRunsNext : Obligations.PlacedWordRunsNext := by
  intro s w i hd hw
  have hdecode : decodeWord (BitVec.ofNat 32 w) = .command i := by
    rw [← decodeTableWord_toNat, BitVec.toNat_ofNat, Nat.mod_eq_of_lt hw]
    exact hd
  rw [withFetchWord_eq hw, step_placeCommand]
  exact runCommand_of_command hdecode

end Sys2Proof.Machine
end

section
/-! Host accesses to a busy block (spec/40_command_engine.md R114 to R116): which reads are answered, what every other
access does, and that the running command does not notice. -/

namespace Sys2Proof.Machine
open Sys2Proof.Spec

/-! ### One access (R115) -/

theorem step_busy_at {s : State} {a : Access} {o : Nat} {rest : List Turn} (hr : s.inReset = false)
    (hb : s.busy = true) (hag : s.agenda = .host a :: rest) (ha : accessAddr a = s.params.base + o)
    (ho : o < windowSize) : step s = .next (busyAccess { s with agenda := rest } o a) := by
  simp only [step_host hag, portAccess, hr, hb, ha, offsetOf_base _ ho, Bool.false_eq_true, if_false, if_true]

/-- Only a 32-bit read at the offset of ID, STATUS or ERR has an answer. -/
theorem busyReadable_some {o : Nat} {a : Access} {r : WordReg} (h : busyReadable o a = some r) :
    a = .read .w32 (accessAddr a) ∧ o = regRow r ∧ r ∈ [.id, .status, .err] := by
  unfold busyReadable at h
  split at h
  · split_ifs at h with h1 h2 h3 <;> cases h
    · exact ⟨rfl, h1, by decide⟩
    · exact ⟨rfl, h2, by decide⟩
    · exact ⟨rfl, h3, by decide⟩
  all_goals cases h

theorem busyReadable_regRow {r : WordReg} (hr : r ∈ [.id, .status, .err]) (addr : Nat) :
    busyReadable (regRow r) (.read .w32 addr) = some r := by
  simp only [List.mem_cons, List.not_mem_nil, or_false] at hr
  rcases hr with rfl | rfl | rfl <;> rfl

/-- The step of a read a busy block answers. -/
theorem step_busy_read {s : State} {r : WordReg} {rest : List Turn} (hr : s.inReset = false) (hb : s.busy = true)
    (hag : s.agenda = .host (.read .w32 (s.params.base + regRow r)) :: rest) (hreg : r ∈ [.id, .status, .err]) :
    step s = .next (reply (.readOk (regRead s r)) { s with agenda := rest }) := by
  rw [step_busy_at hr hb hag rfl (regRow_eq r ▸ regOffset_lt_windowSize r), busyAccess, busyReadable_regRow hreg]
  simp only [regRead_agenda]

/-- The step of an access a busy block refuses. -/
theorem step_busy_refused {s : State} {a : Access} {o : Nat} {rest : List Turn} (hr : s.inReset = false)
    (hb : s.busy = true) (hag : s.agenda = .host a :: rest) (ha : accessAddr a = s.params.base + o)
    (ho : o < windowSize) (hnone : busyReadable o a = none) :
    step s = .next (reply (slverrFor a) (raiseErr .busyAccess { s with agenda := rest })) := by
  rw [step_busy_at hr hb hag ha ho, busyAccess, hnone]

theorem slverr_eq (a : Access) : slverr a = slverrFor a := by cases a <;> rfl

/-- Settles O14: whatever `busyReadable` answers is one of the three reads, so every other access is refused. -/
theorem busyBlockRefusesAccesses : Obligations.BusyBlockRefusesAccesses := by
  intro s a o rest hr hb hag ha ho
  refine ⟨?_, ?_, ?_, fun hother => ?_⟩
  · rintro rfl
    exact step_busy_read (r := .id) hr hb hag (by decide)
  · rintro rfl
    exact step_busy_read (r := .status) hr hb hag (by decide)
  · rintro rfl
    exact step_busy_read (r := .err) hr hb hag (by decide)
  · have hnone : busyReadable o a = none := by
      refine Option.eq_none_iff_forall_ne_some.mpr fun r hsome => hother ?_
      obtain ⟨hread, rfl, hreg⟩ := busyReadable_some hsome
      rw [hread, ha]
      exact List.mem_map_of_mem (f := fun q => Access.read .w32 (s.params.base + regRow q)) hreg
    rw [step_busy_refused hr hb hag ha ho hnone, slverr_eq]
    rfl

/-! ### Any number of accesses (R114, R116) -/

/-- What host accesses may have done to a busy block: `t` differs from `s` in the replies at most, and in ERR by
BUSY_ACCESS at most. -/
structure SameUpToReports (s t : State) : Prop where
  eq : t = withErrReplies t.err t.replies s
  err : t.err = s.err ∨ t.err = s.err ||| 1#9 <<< 8

theorem SameUpToReports.refl (s : State) : SameUpToReports s s := ⟨rfl, .inl rfl⟩

theorem SameUpToReports.busy {s t : State} (h : SameUpToReports s t) : t.busy = s.busy := by rw [h.eq]; rfl

theorem SameUpToReports.trans {s t u : State} (h : SameUpToReports s t) (h' : SameUpToReports t u) :
    SameUpToReports s u where
  eq := by
    have htu := h'.eq
    rw [h.eq] at htu
    exact htu
  err := by
    rcases h'.err with he' | he' <;> rw [he']
    · exact h.err
    · right
      rcases h.err with he | he <;> simp [he, BitVec.or_assoc]

/-- A busy block takes no write, so an access to it only reports. -/
theorem PortEffect.sameUpToReports {s t : State} {a : Access} (hb : s.busy = true) (he : PortEffect s a t) :
    SameUpToReports s t := by
  cases he with
  | answered r => exact ⟨rfl, .inl rfl⟩
  | refused r => exact ⟨rfl, .inr rfl⟩
  | regWritten r v hidle => exact absurd (hidle.symm.trans hb) Bool.false_ne_true
  | bytesWritten r w o v hidle => exact absurd (hidle.symm.trans hb) Bool.false_ne_true

theorem portAccesses_sameUpToReports {s : State} (hb : s.busy = true) (accesses : List Access) :
    SameUpToReports s (accesses.foldl portAccess s) := by
  induction accesses generalizing s with
  | nil => exact .refl s
  | cons a rest ih =>
    have h := (portAccess_effect s a).sameUpToReports hb
    exact h.trans (ih (h.busy.trans hb))

/-! ### The command that runs meanwhile -/

/-- A cause is raised on top of whatever ERR holds. -/
theorem errWith_or {e e' : BitVec 9} (h : e ||| e' = e') (c : Cause) : errWith e c ||| e' = errWith e' c := by
  rw [errWith, BitVec.or_assoc, BitVec.or_comm (BitVec.twoPow 9 _), ← BitVec.or_assoc, h, errWith]

/-- A command started on an ERR with more bits set ends as it would have, with those bits set too. -/
theorem exec_withErrReplies {i : Instr} {s t : State} {e : BitVec 9} (he : s.err ||| e = e) (r : List Reply)
    (h : exec i s = .next t) :
    exec i (withErrReplies e r s) = .next { t with err := t.err ||| e, replies := r } := by
  have heff := opOf_effect i s
  rw [exec_eq] at h ⊢
  rw [opOf_withErrReplies]
  rcases complete_next_iff.mp h with ⟨u, hu, rfl⟩ | ⟨c, u, hu, rfl⟩
  · rw [hu] at heff ⊢
    have herr : (finish u).err ||| e = e := by rw [finish_err, heff.err, he]
    rw [herr]
    rfl
  · rw [hu] at heff ⊢
    have herr : (finish (raiseErr c u)).err ||| e = errWith e c := by
      rw [finish_err, raiseErr_err, heff.1.err, errWith_or he]
    rw [herr]
    rfl

theorem exec_withErrReplies_fault {i : Instr} {s : State} {f : Fault} (h : exec i s = .fault f) (e : BitVec 9)
    (r : List Reply) : exec i (withErrReplies e r s) = .fault f := by
  rw [exec_eq, complete_fault_iff] at h ⊢
  rw [opOf_withErrReplies, h]
  rfl

theorem SameUpToReports.err_absorbs {s t : State} (h : SameUpToReports s t) : s.err ||| t.err = t.err := by
  rcases h.err with he | he <;> rw [he]
  · exact BitVec.or_self
  · rw [← BitVec.or_assoc, BitVec.or_self]

theorem SameUpToReports.exec_next {i : Instr} {s s' t : State} (h : SameUpToReports s s') (hx : exec i s = .next t) :
    exec i s' = .next { t with err := t.err ||| s'.err, replies := s'.replies } := by
  rw [h.eq]
  exact exec_withErrReplies h.err_absorbs s'.replies hx

theorem SameUpToReports.exec_fault {i : Instr} {s s' : State} {f : Fault} (h : SameUpToReports s s')
    (hx : exec i s = .fault f) : exec i s' = .fault f := by
  rw [h.eq]
  exact exec_withErrReplies_fault hx s'.err s'.replies

/-- Settles O60: the accesses change ERR and the replies alone, and no command reads those. -/
theorem runningCommandUnaffectedByHost : Obligations.RunningCommandUnaffectedByHost := by
  intro i s accesses hb
  have h := portAccesses_sameUpToReports hb accesses
  exact ⟨h.eq, h.err, fun _ hx => h.exec_next hx, fun _ hx => h.exec_fault hx⟩

end Sys2Proof.Machine
end

section
/-! The PRNG unit (spec/41_prng.md R131 to R138): the model's words and bytes are the rules' numbers, each PRNG command's
completion is said once, and the laws of the generator rest on the step being injective. -/

namespace Sys2Proof.Machine
open Sys2Proof.Spec

/-! ### The rules' formulas on numbers (R131, R132, R135) -/

theorem seedStep_ofNat (n : Nat) : Config.mul * BitVec.ofNat 32 n + 1#32 = BitVec.ofNat 32 (seedMul n) := by
  apply BitVec.eq_of_toNat_eq
  simp only [Config.mul, seedMul, BitVec.toNat_add, BitVec.toNat_mul, BitVec.toNat_ofNat]
  omega

theorem seedState_eq_seedMul (v : Word) : seedState v =
    { x := v
      y := BitVec.ofNat 32 (seedMul v.toNat)
      z := BitVec.ofNat 32 (seedMul (seedMul v.toNat))
      w := BitVec.ofNat 32 (seedMul (seedMul (seedMul v.toNat))) } := by
  have hy : Config.mul * v + 1#32 = BitVec.ofNat 32 (seedMul v.toNat) := by
    rw [← seedStep_ofNat, BitVec.ofNat_toNat, BitVec.setWidth_eq]
  simp only [seedState, hy, seedStep_ofNat]

theorem prngOut_toNat (p : Prng) : (prngOut p).toNat = nextOut p := by
  simp only [prngOut, nextOut, BitVec.toNat_xor, BitVec.toNat_ushiftRight, BitVec.toNat_shiftLeft,
    Nat.xor_mod_two_pow, Nat.mod_eq_of_lt p.x.isLt]

theorem prngOut_eq_ofNat (p : Prng) : prngOut p = BitVec.ofNat 32 (nextOut p) := by
  rw [← prngOut_toNat, BitVec.ofNat_toNat, BitVec.setWidth_eq]

theorem prngStep_eq_next : prngStep = next :=
  funext fun p => by rw [prngStep, next, prngOut_eq_ofNat]

theorem nextDecryptKey_toNat (n seed : Word) : (nextDecryptKey n seed).toNat = decryptKeyNat n.toNat seed.toNat := by
  simp only [nextDecryptKey, decryptKeyNat, Config.gold, BitVec.toNat_sub, BitVec.toNat_mul, BitVec.toNat_setWidth,
    BitVec.toNat_ofNat]
  have hn : n.toNat % 2 ^ 64 = n.toNat := Nat.mod_eq_of_lt (by omega)
  have hs : seed.toNat % 2 ^ 64 = seed.toNat := Nat.mod_eq_of_lt (by omega)
  rw [hn, hs]
  omega

theorem leBytes8_byteOf (v : DWord) {j : Nat} (h : j < 8) : byteOf (leBytes8 v) j = leByte v.toNat j :=
  leBytes8_get v h

theorem extract_word (v : DWord) (k : Nat) : v.extractLsb' k 32 = BitVec.ofNat 32 (v.toNat / 2 ^ k) := by
  rw [BitVec.extractLsb', Nat.shiftRight_eq_div_pow]

/-! ### What each PRNG command completes with (R133, R134, R136) -/

theorem exec_prngSeed (s : State) : exec .prngSeed s =
    .next (finish { s with prng := seedState s.opVal, prngSeed := s.opVal, seeded := true }) := rfl

theorem exec_prngNext_of_seeded {s : State} (h : s.seeded = true) : exec .prngNext s =
    .next (finish { s with prng := prngStep s.prng, result0 := prngOut s.prng }) := by
  rw [exec_eq, opOf, opPrngNext, if_pos h]
  rfl

theorem exec_prngNext_of_unseeded {s : State} (h : s.seeded = false) :
    exec .prngNext s = .next (finish (raiseErr .unseeded s)) := by
  rw [exec_eq, opOf, opPrngNext, if_neg (by simp [h])]
  rfl

theorem exec_prngNextDecrypt_of_unseeded {s : State} (h : s.seeded = false) :
    exec .prngNextDecrypt s = .next (finish (raiseErr .unseeded s)) := by
  rw [exec_eq, opOf, opPrngNextDecrypt, if_pos (by simp [h])]
  rfl

theorem exec_prngNextDecrypt_of_not_fits {s : State} (h : s.seeded = true)
    (hfit : ¬ operandAddr s + operandLen s ≤ s.params.bufSize) :
    exec .prngNextDecrypt s = .next (finish (raiseErr .bounds s)) := by
  rw [exec_eq, opOf, opPrngNextDecrypt, if_neg (by simp [h]), if_pos (by simp [fitsBuf, hfit])]
  rfl

/-- The memory PRNG_NEXT_DECRYPT leaves: `OP_LEN` bytes of the key from BUF[OP_ADDR] on. -/
def decryptedRam (s : State) : Memory :=
  (decryptFill (leBytes8 (nextDecryptKey s.opLen s.prngSeed)) (bufAt (operandAddr s)) (operandLen s) s.prng s.ram).2

theorem exec_prngNextDecrypt_of_fits {s : State} (h : s.seeded = true)
    (hfit : operandAddr s + operandLen s ≤ s.params.bufSize) :
    exec .prngNextDecrypt s = .next (finish { s with
      prng := prngStep^[operandLen s] s.prng
      ram := decryptedRam s
      result0 := (nextDecryptKey s.opLen s.prngSeed).extractLsb' 0 32
      result1 := (nextDecryptKey s.opLen s.prngSeed).extractLsb' 32 32 }) := by
  rw [exec_eq, opOf, opPrngNextDecrypt, if_neg (by simp [h]), if_neg (by simp [fitsBuf, hfit])]
  simp only [(decryptFill_spec _ _ _ _ _).1]
  rfl

theorem decryptedRam_read (s : State) (o : Nat) : (decryptedRam s).read o =
    if bufAt (operandAddr s) ≤ o ∧ o < bufAt (operandAddr s) + operandLen s then
      some (leByte (nextDecryptKey s.opLen s.prngSeed).toNat
        ((prngOut (prngStep^[o - bufAt (operandAddr s)] s.prng)).toNat % 8))
    else s.ram.read o := by
  rw [decryptedRam, (decryptFill_spec _ _ _ _ _).2.1, leBytes8_byteOf _ (Nat.mod_lt _ (by omega))]

/-- Settles O28: the seeding function of R131, product by product. -/
theorem prngSeedResult : Obligations.PrngSeedResult := by
  intro s
  rw [exec_prngSeed, seedState_eq_seedMul]
  rfl

/-- Settles O29: one step of the model is one step of R132. -/
theorem prngNextResult : Obligations.PrngNextResult := by
  refine fun s => ⟨fun h => ?_, exec_prngNext_of_unseeded⟩
  rw [exec_prngNext_of_seeded h, prngStep_eq_next, prngOut_eq_ofNat]
  rfl

/-- Settles O30: the two checks of R136 in their order. -/
theorem nextDecryptErrors : Obligations.NextDecryptErrors := fun _ =>
  ⟨exec_prngNextDecrypt_of_unseeded, fun h hsize => exec_prngNextDecrypt_of_not_fits h (Nat.not_le_of_lt hsize)⟩

/-- Settles O31: the output loop of R136 and the key of R135. -/
theorem nextDecryptResult : Obligations.NextDecryptResult := by
  intro s h hfit key
  have hkey : (nextDecryptKey s.opLen s.prngSeed).toNat = key := nextDecryptKey_toNat s.opLen s.prngSeed
  have hcell (j : Nat) : bufCell (s.opAddr.toNat + j) = bufAt (operandAddr s) + j := (Nat.add_assoc ..).symm
  refine ⟨decryptedRam s, ?_, fun j hj => ?_, fun o ho => ?_⟩
  · rw [exec_prngNextDecrypt_of_fits h hfit, extract_word, extract_word, hkey, prngStep_eq_next, pow_zero, Nat.div_one]
    rfl
  · rw [hcell, decryptedRam_read, if_pos ⟨Nat.le_add_right _ _, Nat.add_lt_add_left hj _⟩, Nat.add_sub_cancel_left,
      hkey, prngOut_toNat, prngStep_eq_next]
  · rw [hcell] at ho
    exact (decryptedRam_read s o).trans (if_neg ho)

/-! ### Laws of the generator (R137) -/

/-- The all-zero state. -/
def prngZero : Prng := { x := 0#32, y := 0#32, z := 0#32, w := 0#32 }

theorem prngNonzero_iff {p : Prng} : prngNonzero p ↔ p ≠ prngZero := by
  cases p
  simp [prngNonzero, prngZero]

theorem prngStep_injective : Function.Injective prngStep := by
  intro ⟨x, y, z, w⟩ ⟨x', y', z', w'⟩ h
  simp only [prngStep, Prng.mk.injEq] at h
  obtain ⟨rfl, rfl, rfl, hout⟩ := h
  have ht : x ^^^ x <<< 11 = x' ^^^ x' <<< 11 :=
    xorShiftRight_injective (k := 8) (by omega) (by simpa [prngOut, BitVec.xor_assoc] using hout)
  rw [xorShiftLeft_injective (by omega) ht]

/-- The four words as one tuple. -/
def Prng.words (p : Prng) : Word × Word × Word × Word := (p.x, p.y, p.z, p.w)

theorem Prng.words_injective : Function.Injective Prng.words := by
  rintro ⟨x, y, z, w⟩ ⟨x', y', z', w'⟩ h
  simpa [Prng.words] using h

theorem finite_prng : Finite Prng := Finite.of_injective Prng.words Prng.words_injective

theorem prngStep_bijective : Function.Bijective prngStep :=
  have := finite_prng
  prngStep_injective.bijective_of_finite

theorem prngStep_nonzero {p : Prng} (h : prngNonzero p) : prngNonzero (prngStep p) :=
  prngNonzero_iff.mpr fun hz => prngNonzero_iff.mp h (prngStep_injective (hz.trans prngStep_zero.symm))

theorem prngStep_iterate_nonzero {p : Prng} (h : prngNonzero p) (n : Nat) : prngNonzero (prngStep^[n] p) :=
  Function.Iterate.rec prngNonzero h (fun _ hp => prngStep_nonzero hp) n

theorem seedState_nonzero (v : Word) : prngNonzero (seedState v) := by
  rintro ⟨rfl, hy, -⟩
  exact absurd hy (by decide)

/-- Settles O32: the step is an injective map of a finite set that fixes zero. -/
theorem prngStepIsBijection : Obligations.PrngStepIsBijection :=
  ⟨prngStep_bijective, prngStep_zero, fun _ => prngStep_nonzero,
    fun v n => prngStep_iterate_nonzero (seedState_nonzero v) n⟩

/-! ### Sequences of PRNG_NEXT (R138) -/

/-- The results of `n` PRNG_NEXT commands are the outputs of the generator's orbit. -/
theorem outputs_of_seeded {s : State} (h : s.seeded = true) (n : Nat) :
    outputs n s = (List.iterate prngStep s.prng n).map prngOut := by
  induction n generalizing s with
  | zero => rfl
  | succ n ih =>
    simp only [outputs, exec_prngNext_of_seeded h, finish_result0]
    rw [ih (s := finish { s with prng := prngStep s.prng, result0 := prngOut s.prng }) h]
    rfl

/-- Four outputs are the state after four steps. -/
theorem prngStep_iterate_four {p q : Prng}
    (h : (List.iterate prngStep p 4).map prngOut = (List.iterate prngStep q 4).map prngOut) :
    prngStep^[4] p = prngStep^[4] q := by
  simp only [List.iterate, List.map_cons, List.map_nil, List.cons.injEq, and_true] at h
  obtain ⟨h1, h2, h3, h4⟩ := h
  exact Prng.words_injective (Prod.ext h1 (Prod.ext h2 (Prod.ext h3 h4)))

theorem outputs_of_prngSeed {s s' : State} (h : exec .prngSeed s = .next s') (n : Nat) :
    outputs n s' = (List.iterate prngStep (seedState s.opVal) n).map prngOut := by
  rw [exec_prngSeed] at h
  cases h
  exact outputs_of_seeded rfl n

/-- Settles O33: four outputs give the state after four steps, and that the seed. -/
theorem distinctSeedsDiffer : Obligations.DistinctSeedsDiffer := by
  intro s t s' t' hs ht
  refine ⟨fun n => ?_, fun heq n => ?_, fun hne heq => hne ?_⟩
  · rw [outputs_of_prngSeed hs, List.length_map, List.length_iterate]
  · rw [outputs_of_prngSeed hs, outputs_of_prngSeed ht, heq]
  · rw [outputs_of_prngSeed hs, outputs_of_prngSeed ht] at heq
    exact congrArg Prng.x (prngStep_injective.iterate 4 (prngStep_iterate_four heq))

end Sys2Proof.Machine
end

section
/-! The invariant of the PRNG and UnityCN units (spec/41_prng.md R137, spec/10_state.md R50): what a command leaves of the
generator and of the tables, then every kind of step. -/

namespace Sys2Proof.Machine

@[simp] theorem regWrite_tablesValid (s : State) (r : WordReg) (v : Word) :
    (regWrite s r v).tablesValid = s.tablesValid := by cases r <;> rfl

@[simp] theorem regionWrite_tablesValid (s : State) (r : ByteRegion) (w : Width) (o : Nat) (v : Word) :
    (regionWrite s r w o v).tablesValid = s.tablesValid := by rw [regionWrite_eq]

/-- The invariant passes to a state that has the generator and the flags, and has lost no byte of the tables. -/
theorem UnitInv.of_kept {s t : State} (h : UnitInv s) (hseeded : t.seeded = s.seeded) (hprng : t.prng = s.prng)
    (hvalid : t.tablesValid = s.tablesValid) (hram : tablesWritten s.ram → tablesWritten t.ram) : UnitInv t where
  seeded_nonzero ht := by
    rw [hprng]
    exact h.seeded_nonzero (hseeded ▸ ht)
  valid_tables ht := hram (h.valid_tables (hvalid ▸ ht))

theorem UnitInv.afterTurn {s : State} (h : UnitInv s) : UnitInv (afterTurn s) := h.of_kept rfl rfl rfl id

theorem PortEffect.unitInv {s t : State} {a : Access} (h : UnitInv s) (he : PortEffect s a t) : UnitInv t := by
  obtain ⟨hseeded, hprng, -, htables⟩ := he.unitsKept
  have hvalid : t.tablesValid = s.tablesValid := by cases he <;> simp
  refine h.of_kept hseeded hprng hvalid fun hw o ho => ?_
  rw [htables o ho]
  exact hw o ho

/-- Every command but PRNG_SEED moves a seeded generator by some number of steps. -/
theorem exec_prng_iterate {i : Instr} {s t : State} (hs : s.seeded = true) (hi : i ≠ .prngSeed)
    (h : exec i s = .next t) : ∃ n, t.prng = prngStep^[n] s.prng := by
  cases i with
  | prngSeed => exact absurd rfl hi
  | prngNext =>
    rw [exec_prngNext_of_seeded hs] at h
    cases h
    exact ⟨1, rfl⟩
  | prngNextDecrypt =>
    by_cases hfit : operandAddr s + operandLen s ≤ s.params.bufSize
    · rw [exec_prngNextDecrypt_of_fits hs hfit] at h
      cases h
      exact ⟨operandLen s, rfl⟩
    · rw [exec_prngNextDecrypt_of_not_fits hs hfit] at h
      cases h
      exact ⟨0, rfl⟩
  | mr0kCheck | mr0kDecrypt | ucnKeyHex | ucnHeader | ucnBlock =>
    obtain ⟨u, e, hu, rfl, -⟩ := exec_next_completes h
    exact ⟨0, hu.prng (by decide)⟩

theorem exec_seeded_nonzero {i : Instr} {s t : State} (h : UnitInv s) (hx : exec i s = .next t)
    (ht : t.seeded = true) : prngNonzero t.prng := by
  by_cases hi : i = .prngSeed
  · subst hi
    rw [exec_prngSeed] at hx
    cases hx
    exact seedState_nonzero s.opVal
  · obtain ⟨u, e, hu, rfl, -⟩ := exec_next_completes hx
    obtain ⟨-, hseeded⟩ := hu.seed hi
    have hs : s.seeded = true := hseeded.symm.trans ht
    obtain ⟨n, hn⟩ := exec_prng_iterate hs hi hx
    rw [hn]
    exact prngStep_iterate_nonzero (h.seeded_nonzero hs) n

theorem exec_valid_tables {i : Instr} {s t : State} (h : UnitInv s) (hx : exec i s = .next t)
    (ht : t.tablesValid = true) : tablesWritten t.ram := by
  by_cases hi : i = .ucnHeader
  · subst hi
    rw [exec_eq, opOf] at hx
    have hend := opUcnHeader_tables s
    rcases complete_next_iff.mp hx with ⟨u, hu, rfl⟩ | ⟨c, u, hu, rfl⟩ <;> rw [hu] at hend
    · exact hend
    · exact absurd (hend.symm.trans ht) (by decide)
  · obtain ⟨u, e, hu, rfl, -⟩ := exec_next_completes hx
    exact fun o ho => hu.ram.keeps_written (h.valid_tables ((hu.tablesValid hi).symm.trans ht) o ho)

theorem EngineEffect.unitInv {s t : State} (h : UnitInv s) (he : EngineEffect s t) : UnitInv t := by
  cases he with
  | command i _ _ hx _ => exact ⟨exec_seeded_nonzero h hx, exec_valid_tables h hx⟩
  | illegal why => exact h.of_kept rfl rfl rfl id

theorem UnitInv.assertReset {s : State} (h : UnitInv s) (hb : s.busy ≠ true) : UnitInv (assertReset s) := by
  rcases assertReset_cases s with ⟨-, he⟩ | ⟨-, he | ⟨hb', -⟩⟩
  · rw [he]; exact h
  · rw [he]; exact ⟨nofun, nofun⟩
  · exact absurd hb' hb

/-- Settles O54, by cases on the effect of the step. -/
theorem stepKeepsUnitInv : Obligations.StepKeepsUnitInv := by
  intro s t h hstep hreset
  cases step_cases hstep with
  | idle => exact h.afterTurn
  | engine _ _ he => exact he.unitInv h.afterTurn
  | host a rest _ he => exact he.unitInv h.afterTurn
  | assertReset rest ha => exact h.afterTurn.assertReset fun hb => hreset ⟨hb, rest, ha⟩
  | releaseReset => exact h.afterTurn.of_kept rfl rfl rfl id

end Sys2Proof.Machine
end

section
/-! The Mr0k unit's checks (spec/42_mr0k.md R151, R153 to R157): MR0K_CHECK whole, the refusals of MR0K_DECRYPT, and the
block length. -/

namespace Sys2Proof.Machine
open Sys2Proof.Spec

/-! ### Block length and legality as the rules say them (R153, R156) -/

/-- Settles O37: that the block fits is `mr0kBlockLen_le`, the rest linear arithmetic. -/
theorem mr0kBlockLenBounds : Obligations.Mr0kBlockLenBounds := by
  intro len hlen
  have hfits := mr0kBlockLen_le hlen
  rw [mr0kBlockLen_eq_blockLen] at hfits ⊢
  simp only [blockLen] at hfits ⊢
  refine ⟨trivial, ?_, ?_, ?_, hfits, ?_, ?_, ?_⟩ <;> omega

theorem profileLegal_iff_legalProfile {pr : Profile} : profileLegal pr = true ↔ legalProfile pr := by
  rw [profileLegal_iff, and_assoc, and_assoc]
  rfl

/-! ### The refusals of both commands, and the magic (R151, R153 to R155, R157) -/

theorem exec_mr0kCheck_of_not_fits {s : State} (hfit : ¬ operandAddr s + operandLen s ≤ s.params.bufSize) :
    exec .mr0kCheck s = .next (finish (raiseErr .bounds s)) := by
  rw [exec_eq, opOf, opMr0kCheck, if_pos (by simp [fitsBuf, hfit])]
  rfl

theorem exec_mr0kCheck_of_short {s : State} (hfit : operandAddr s + operandLen s ≤ s.params.bufSize)
    (hlen : operandLen s < 4) : exec .mr0kCheck s = .next (finish { s with result0 := 0#32 }) := by
  rw [exec_eq, opOf, opMr0kCheck, if_neg (by simp [fitsBuf, hfit]), if_pos hlen]
  rfl

theorem exec_mr0kCheck_of_head {s : State} {head : List Byte}
    (hfit : operandAddr s + operandLen s ≤ s.params.bufSize) (hlen : 4 ≤ operandLen s)
    (hhead : readBytes s.ram (bufAt (operandAddr s)) 4 = .ok head) :
    exec .mr0kCheck s =
      .next (finish { s with result0 := if head = Config.mr0kMagic then 1#32 else 0#32 }) := by
  rw [exec_eq, opOf, opMr0kCheck, if_neg (by simp [fitsBuf, hfit]), if_neg (Nat.not_lt.mpr hlen), hhead]
  rfl

/-- Settles O34: the four bytes at OP_ADDR are the string that is compared. -/
theorem mr0kCheckResult : Obligations.Mr0kCheckResult := by
  refine fun s => ⟨fun hsize => exec_mr0kCheck_of_not_fits (Nat.not_le_of_lt hsize), fun hfit =>
    ⟨exec_mr0kCheck_of_short hfit, fun hlen b0 b1 b2 b3 h0 h1 h2 h3 => ?_⟩⟩
  have hhead : readBytes s.ram (bufAt (operandAddr s)) 4 = .ok [b0, b1, b2, b3] := by
    refine readBytes_ok_iff.mpr ⟨rfl, fun i hi => ?_⟩
    match i, hi with
    | 0, _ => exact h0
    | 1, _ => exact h1
    | 2, _ => exact h2
    | 3, _ => exact h3
  rw [exec_mr0kCheck_of_head hfit hlen hhead]
  simp only [Config.mr0kMagic, List.cons.injEq, and_true]
  rfl

theorem exec_mr0kDecrypt_of_illegal {s : State} (h : ¬ legalProfile s.profile) :
    exec .mr0kDecrypt s = .next (finish (raiseErr .config s)) := by
  rw [← profileLegal_iff_legalProfile] at h
  rw [exec_eq, opOf, opMr0kDecrypt, if_pos (by simpa using h)]
  rfl

theorem exec_mr0kDecrypt_of_not_fits {s : State} (h : legalProfile s.profile)
    (hfit : ¬ operandAddr s + operandLen s ≤ s.params.bufSize) :
    exec .mr0kDecrypt s = .next (finish (raiseErr .bounds s)) := by
  rw [exec_eq, opOf, opMr0kDecrypt, if_neg (by simp [profileLegal_iff_legalProfile.mpr h]),
    if_pos (by simp [fitsBuf, hfit])]
  rfl

theorem exec_mr0kDecrypt_of_short {s : State} (h : legalProfile s.profile)
    (hfit : operandAddr s + operandLen s ≤ s.params.bufSize)
    (hlen : operandLen s < 0x94 ∨ (nPk s.profile ≠ 0 ∧ operandLen s < 3092)) :
    exec .mr0kDecrypt s = .next (finish (raiseErr .length s)) := by
  rw [exec_eq, opOf, opMr0kDecrypt, if_neg (by simp [profileLegal_iff_legalProfile.mpr h]),
    if_neg (by simp [fitsBuf, hfit])]
  by_cases hmin : operandLen s < 0x94
  · rw [if_pos hmin]
    rfl
  · rw [if_neg hmin, if_pos (hlen.resolve_left hmin)]
    rfl

/-- Settles O35: the checks of R152 in their order. -/
theorem mr0kDecryptErrors : Obligations.Mr0kDecryptErrors := fun _ =>
  ⟨exec_mr0kDecrypt_of_illegal, fun h =>
    ⟨fun hsize => exec_mr0kDecrypt_of_not_fits h (Nat.not_le_of_lt hsize), exec_mr0kDecrypt_of_short h⟩⟩

end Sys2Proof.Machine
end

section
/-! MR0K_DECRYPT step by step (spec/42_mr0k.md R158 to R167): the key strings of steps 1 to 7 are the rules' functions on
numbers, each later step is one change of the buffer's bytes, and the command is their sequence. -/

namespace Sys2Proof.Machine
open Sys2Proof.Spec

/-! ### A key as a function of its byte number -/

/-- The 16-byte string of a key given byte by byte. -/
def keyOf (f : Nat → Byte) : List Byte := (List.range 16).map f

@[simp] theorem keyOf_length (f : Nat → Byte) : (keyOf f).length = 16 := by simp [keyOf]

theorem byteOf_keyOf {f : Nat → Byte} {i : Nat} (h : i < 16) : byteOf (keyOf f) i = f i := byteOf_map_range h

theorem eq_keyOf {l : List Byte} {f : Nat → Byte} (hl : l.length = 16) (h : ∀ i < 16, byteOf l i = f i) : l = keyOf f :=
  bytes_ext (by rw [hl, keyOf_length]) fun i hi => by
    rw [hl] at hi
    rw [h i hi, byteOf_keyOf hi]

theorem xorBytes_keyOf (f g : Nat → Byte) : xorBytes (keyOf f) (keyOf g) = keyOf fun i => f i ^^^ g i := by
  have hlen : (keyOf f).length = (keyOf g).length := by simp
  refine eq_keyOf (by rw [xorBytes_length hlen, keyOf_length]) fun i hi => ?_
  rw [xorBytes_get hlen (by simpa using hi), byteOf_keyOf hi, byteOf_keyOf hi]

/-- Step 4 (R160) on a key whose table entries hold values. -/
theorem sboxMap_keyOf {m : Memory} {f g : Nat → Byte}
    (h : ∀ i < 16, m.read (0x400 + (i % 4 * 256 + (f i).toNat)) = some (g i)) : sboxMap m 0 (keyOf f) = .ok (keyOf g) := by
  cases hs : sboxMap m 0 (keyOf f) with
  | error x =>
    obtain ⟨i, hi, hnone, -⟩ := sboxMap_error hs
    rw [keyOf_length] at hi
    rw [Nat.zero_add, byteOf_keyOf hi, h i hi] at hnone
    exact absurd hnone (by simp)
  | ok l =>
    obtain ⟨hlen, hread⟩ := sboxMap_ok hs
    rw [keyOf_length] at hlen hread
    refine congrArg _ (eq_keyOf hlen fun i hi => ?_)
    have hl := hread i hi
    rw [Nat.zero_add, byteOf_keyOf hi, h i hi] at hl
    exact (Option.some.inj hl).symm

/-! ### Steps 1 to 5: the keys (R158 to R161) -/

theorem bufAt_operandAddr_add (s : State) (k j : Nat) :
    bufAt (operandAddr s + k) + j = bufCell (s.opAddr.toNat + (k + j)) := by
  rw [← bufCell_eq, bufCell, bufCell, operandAddr]
  omega

section
variable {s : State} {inp : Mr0kIn} (h : HoldsMr0k s inp)
include h

/-- Step 1 (R158): a key is 16 buffer bytes. -/
theorem readBytes_key {k : Nat} (hk : k + 16 ≤ operandLen s) :
    readBytes s.ram (bufAt (operandAddr s + k)) 16 = .ok (keyOf fun i => inp.c (k + i)) :=
  readBytes_of_fun fun i hi => by
    rw [bufAt_operandAddr_add]
    exact h.buf (k + i) (by rw [operandLen] at hk; omega)

/-- Step 3 (R159). -/
theorem mr0kKey2_eq_keyOf (hiv : nIv s.profile ≤ 16) :
    mr0kKey2 s (keyOf fun i => inp.c (0x74 + i)) = .ok (keyOf (key2 s.profile inp)) := by
  have hread : readBytes s.ram (regionBase .iv) (nIv s.profile) = .ok ((List.range (nIv s.profile)).map inp.iv) :=
    readBytes_of_fun h.iv
  have hlen : ((List.range (nIv s.profile)).map inp.iv).length ≤ (keyOf fun i => inp.c (0x74 + i)).length := by
    simpa using hiv
  rw [mr0kKey2, hread]
  refine congrArg _ (eq_keyOf (by rw [xorInto_length hlen, keyOf_length]) fun i hi => ?_)
  rw [xorInto_get i hlen, byteOf_keyOf hi, List.length_map, List.length_range, key2, ← nIv]
  split
  · next hn => rw [byteOf_map_range hn]
  · rfl

/-- Step 4 (R160). -/
theorem mr0kSubst_eq_keyOf :
    mr0kSubst s (keyOf fun i => inp.c (0x04 + i)) = .ok (keyOf (key1 s.profile inp)) := by
  by_cases hsb : s.profile.sboxEn = true
  · rw [mr0kSubst, if_pos hsb]
    refine sboxMap_keyOf fun i hi => ?_
    have hb := (inp.c (0x04 + i)).isLt
    rw [key1, if_pos hsb]
    exact h.sbox hsb _ (by omega)
  · rw [mr0kSubst, if_neg hsb]
    exact congrArg _ (congrArg keyOf (funext fun i => (if_neg hsb).symm))

/-- Step 5 (R161), on either key. -/
theorem mr0kAes_eq_keyOf (f : Nat → Byte) : mr0kAes s (keyOf f) = .ok (keyOf (aesKey s.profile inp f)) := by
  by_cases hek : nEk s.profile = 0
  · rw [mr0kAes, if_pos hek]
    exact congrArg _ (congrArg keyOf (funext fun i => (if_pos hek).symm))
  · have hread : readBytes s.ram (regionBase .expKey) (nEk s.profile) = .ok inp.ek :=
      readBytes_ok_iff.mpr ⟨h.ek_length, h.ek⟩
    rw [mr0kAes, if_neg hek, hread, blockOf_of_fun fun i hi => byteOf_keyOf hi]
    exact congrArg _ (eq_keyOf (by simp) fun i _ => (if_neg hek).symm)

end

/-! ### Step 7: the seed (R163) -/

theorem le64_keyOf (f : Nat → Byte) : (le64 (keyOf f)).toNat = le64Nat f := by
  rw [le64_toNat, le64Nat]
  refine congrArg List.sum (List.map_congr_left fun i hi => ?_)
  rw [byteOf_keyOf (by have := List.mem_range.mp hi; omega)]

theorem mr0kSeed_toNat (p : Params) (pr : Profile) (inp : Mr0kIn) (len : Nat) :
    (mr0kSeed p.seed2Source (keyOf (key2 pr inp)) (keyOf (key3 inp)) (keyOf (aesKey pr inp (key3 inp))) len).toNat =
      seed p pr inp len := by
  have hlen : ((BitVec.ofNat 32 (len - 20)).setWidth 64).toNat = (len - 20) % 2 ^ 32 := by
    rw [BitVec.toNat_setWidth, BitVec.toNat_ofNat]
    omega
  simp only [mr0kSeed, seed]
  rw [BitVec.toNat_xor, BitVec.toNat_xor, BitVec.toNat_add, hlen, le64_keyOf]
  cases p.seed2Source <;> rw [le64_keyOf]

/-- The bytes that step 8 repeats are the seed's. -/
theorem mr0kSeed_byte (p : Params) (pr : Profile) (inp : Mr0kIn) (len i : Nat) :
    byteOf (leBytes8 (mr0kSeed p.seed2Source (keyOf (key2 pr inp)) (keyOf (key3 inp))
      (keyOf (aesKey pr inp (key3 inp))) len)) (i % 8) = leByte (seed p pr inp len) (i % 8) := by
  rw [leBytes8_byteOf _ (Nat.mod_lt _ (by omega)), mr0kSeed_toNat]

/-! ### The buffer between two steps -/

/-- `m` holds the bytes `f` in the operand region and is the state's memory outside it. -/
structure BufHolds (s : State) (m : Memory) (f : Nat → Byte) : Prop where
  bytes : ∀ q < s.opLen.toNat, m.read (bufCell (s.opAddr.toNat + q)) = some (f q)
  frame : ∀ o, ¬ (bufCell s.opAddr.toNat ≤ o ∧ o < bufCell (s.opAddr.toNat + s.opLen.toNat)) → m.read o = s.ram.read o

/-- `f` with the bytes from `k` on, `n` of them, replaced by `g`. -/
def patch (k n : Nat) (g f : Nat → Byte) (q : Nat) : Byte := if k ≤ q ∧ q < k + n then g q else f q

theorem patch_self (k n : Nat) (f : Nat → Byte) : patch k n f f = f := funext fun _ => ite_self _

section
variable {s : State} {m m' : Memory} {f g : Nat → Byte} {k n : Nat}

/-- A step that changes the bytes from `k` on, `n` of them, and nothing else. -/
theorem BufHolds.of_patch (h : BufHolds s m f) (hk : k + n ≤ operandLen s)
    (hin : ∀ j < n, m'.read (bufAt (operandAddr s + k) + j) = some (g (k + j)))
    (hout : ∀ x, ¬ (bufAt (operandAddr s + k) ≤ x ∧ x < bufAt (operandAddr s + k) + n) → m'.read x = m.read x) :
    BufHolds s m' (patch k n g f) where
  bytes q hq := by
    by_cases hr : k ≤ q ∧ q < k + n
    · obtain ⟨j, rfl⟩ := Nat.exists_eq_add_of_le hr.1
      rw [patch, if_pos hr, ← bufAt_operandAddr_add, hin j (by omega)]
    · rw [patch, if_neg hr, hout _ (by simp only [← bufCell_eq, bufCell, operandAddr]; omega), h.bytes q hq]
  frame o ho := by
    rw [operandLen] at hk
    rw [hout _ (by simp only [← bufCell_eq, bufCell, operandAddr] at *; omega), h.frame o ho]

theorem BufHolds.writeKey (h : BufHolds s m f) (hk : k + 16 ≤ operandLen s) :
    BufHolds s (writeBytes m (bufAt (operandAddr s + k)) (keyOf g)) (patch k 16 (fun q => g (q - k)) f) :=
  h.of_patch hk
    (fun j hj => by
      rw [writeBytes_read, keyOf_length, if_pos (by omega), Nat.add_sub_cancel_left, Nat.add_sub_cancel_left,
        byteOf_keyOf hj])
    (fun x hx => by rw [writeBytes_read, keyOf_length, if_neg hx])

theorem BufHolds.xorRegion_ok {mask : Nat → Except Fault Byte} (h : BufHolds s m f) (hk : k + n ≤ operandLen s)
    (hmask : ∀ j < n, mask j = .ok (g j)) :
    ∃ m', xorRegion mask (bufAt (operandAddr s + k)) 0 n m = .ok m' ∧
      BufHolds s m' (patch k n (fun q => f q ^^^ g (q - k)) f) := by
  have hread (j : Nat) (hj : j < n) : m.read (bufAt (operandAddr s + k) + j) = some (f (k + j)) := by
    rw [bufAt_operandAddr_add]
    exact h.bytes (k + j) (by rw [operandLen] at hk; omega)
  obtain ⟨m', hm'⟩ := xorRegion_total (mask := mask) (o := bufAt (operandAddr s + k)) (i := 0) (n := n) (m := m)
    (fun j _ hj => by rw [hread j (by omega)]; rfl) (fun j _ hj => ⟨_, hmask j (by omega)⟩)
  obtain ⟨hout, hin, -⟩ := Machine.xorRegion_ok hm'
  refine ⟨m', hm', h.of_patch hk (fun j hj => ?_) hout⟩
  obtain ⟨b, c, hb, hc, hx⟩ := hin j (Nat.zero_le _) (by omega)
  rw [hread j hj] at hb
  rw [hmask j hj] at hc
  cases hb
  cases hc
  rw [hx, Nat.add_sub_cancel_left]

end

/-! ### Steps 6, 8 and 10 (R162, R164, R166) -/

section
variable {p : Params} {pr : Profile} {inp : Mr0kIn} {len i : Nat}

theorem mask8_of_blockKey (hbk : nBk pr ≠ 0) :
    mask8 p pr inp len i = leByte (seed p pr inp len) (i % 8) ^^^ inp.bk (i % nBk pr) := if_pos hbk

theorem mask8_of_skip (hbk : nBk pr = 0) (hmode : p.noBlockKeyMode = .skip) : mask8 p pr inp len i = 0#8 := by
  rw [mask8, ← nBk, if_neg (not_not.mpr hbk), hmode]

theorem mask8_of_seedOnly (hbk : nBk pr = 0) (hmode : p.noBlockKeyMode = .seedOnly) :
    mask8 p pr inp len i = leByte (seed p pr inp len) (i % 8) := by
  rw [mask8, ← nBk, if_neg (not_not.mpr hbk), hmode]

end

section
variable {s : State} {sb : List Byte} {m : Memory}

theorem mr0kUnmask_of_blockKey (hbk : nBk s.profile ≠ 0) : mr0kUnmask s sb m =
    xorRegion (blockMask s sb) (bufAt (operandAddr s + 0x94)) 0 (mr0kBlockLen (operandLen s)) m := if_pos hbk

theorem mr0kUnmask_of_skip (hbk : nBk s.profile = 0) (hmode : s.params.noBlockKeyMode = .skip) :
    mr0kUnmask s sb m = .ok m := by
  simp only [mr0kUnmask, if_neg (not_not.mpr hbk), hmode]

theorem mr0kUnmask_of_seedOnly (hbk : nBk s.profile = 0) (hmode : s.params.noBlockKeyMode = .seedOnly) :
    mr0kUnmask s sb m = xorRegion (fun i => .ok (byteOf sb (i % 8))) (bufAt (operandAddr s + 0x94)) 0
      (mr0kBlockLen (operandLen s)) m := by
  simp only [mr0kUnmask, if_neg (not_not.mpr hbk), hmode]

end

/-- Buffer byte `q` after step 6 (R162). -/
def afterStep6 (pr : Profile) (inp : Mr0kIn) : Nat → Byte :=
  patch 0x84 16 (fun q => aesKey pr inp (key1 pr inp) (q - 0x84) ^^^ aesKey pr inp (key3 inp) (q - 0x84)) inp.c

theorem afterStep8_eq (p : Params) (pr : Profile) (inp : Mr0kIn) (len : Nat) : afterStep8 p pr inp len =
    patch 0x94 (mr0kBlockLen len) (fun q => afterStep6 pr inp q ^^^ mask8 p pr inp len (q - 0x94)) (afterStep6 pr inp) := by
  funext q
  rw [mr0kBlockLen_eq_blockLen]
  simp only [afterStep8, afterStep6, patch]
  by_cases hfold : 0x84 ≤ q ∧ q < 0x94
  · rw [if_pos hfold, if_neg (by omega), if_pos hfold]
  · rw [if_neg hfold, if_neg hfold]

theorem afterStep8_of_skip {p : Params} {pr : Profile} {inp : Mr0kIn} {len : Nat} (hbk : nBk pr = 0)
    (hmode : p.noBlockKeyMode = .skip) : afterStep8 p pr inp len = afterStep6 pr inp := by
  simp only [afterStep8_eq, mask8_of_skip hbk hmode, BitVec.xor_zero, patch_self]

theorem decryptedByte_of_no_postKey (p : Params) (inp : Mr0kIn) (len : Nat) {pr : Profile} (hpk : nPk pr = 0) :
    decryptedByte p pr inp len = afterStep8 p pr inp len := funext fun _ => if_neg fun hq => hq.1 hpk

theorem decryptedByte_of_postKey (p : Params) (inp : Mr0kIn) (len : Nat) {pr : Profile} (hpk : nPk pr ≠ 0) :
    decryptedByte p pr inp len =
      patch 20 3072 (fun q => afterStep8 p pr inp len q ^^^ inp.pk ((q - 20) % nPk pr)) (afterStep8 p pr inp len) := by
  funext q
  simp only [decryptedByte, patch, nPk, and_iff_right (show pr.pkLen.toNat ≠ 0 from hpk)]

section
variable {s : State} {inp : Mr0kIn} {m : Memory} (h : HoldsMr0k s inp)
include h

theorem bufHolds_start : BufHolds s s.ram inp.c := ⟨h.buf, fun _ _ => rfl⟩

/-- Step 8 (R164), by the mode's mask. -/
theorem mr0kUnmask_ok {sb : List Byte} (hmin : 0x94 ≤ operandLen s)
    (hsb : ∀ i, byteOf sb (i % 8) = leByte (seed s.params s.profile inp (operandLen s)) (i % 8))
    (hm : BufHolds s m (afterStep6 s.profile inp)) :
    ∃ m', mr0kUnmask s sb m = .ok m' ∧ BufHolds s m' (afterStep8 s.params s.profile inp (operandLen s)) := by
  have hfits := mr0kBlockLen_le hmin
  by_cases hbk : nBk s.profile = 0
  · cases hmode : s.params.noBlockKeyMode with
    | skip =>
      rw [afterStep8_of_skip hbk hmode]
      exact ⟨m, mr0kUnmask_of_skip hbk hmode, hm⟩
    | seedOnly =>
      rw [mr0kUnmask_of_seedOnly hbk hmode, afterStep8_eq]
      exact hm.xorRegion_ok hfits fun i _ => by rw [hsb, mask8_of_seedOnly hbk hmode]
  · rw [mr0kUnmask_of_blockKey hbk, afterStep8_eq]
    refine hm.xorRegion_ok hfits fun i _ => ?_
    have hkey : readByte s.ram (regionBase .blockKey + i % nBk s.profile) = .ok (inp.bk (i % nBk s.profile)) :=
      readByte_ok_iff.mpr (h.bk _ (Nat.mod_lt i (Nat.pos_of_ne_zero hbk)))
    rw [blockMask, hkey, hsb, mask8_of_blockKey hbk]

/-- Step 10 (R166). -/
theorem mr0kPost_ok {len : Nat} (hpost : nPk s.profile ≠ 0 → 3092 ≤ operandLen s)
    (hm : BufHolds s m (afterStep8 s.params s.profile inp len)) :
    ∃ m', mr0kPost s m = .ok m' ∧ BufHolds s m' (decryptedByte s.params s.profile inp len) := by
  by_cases hpk : nPk s.profile = 0
  · rw [mr0kPost, if_pos hpk, decryptedByte_of_no_postKey _ _ _ hpk]
    exact ⟨m, rfl, hm⟩
  · rw [mr0kPost, if_neg hpk, decryptedByte_of_postKey _ _ _ hpk]
    exact hm.xorRegion_ok (hpost hpk) fun i _ =>
      readByte_ok_iff.mpr (h.pk _ (Nat.mod_lt i (Nat.pos_of_ne_zero hpk)))

end

/-! ### The command (R152, R165, R167) -/

/-- MR0K_DECRYPT past its checks completes with the decrypted buffer. -/
theorem exec_mr0kDecrypt_of_holds {s : State} {inp : Mr0kIn} (h : HoldsMr0k s inp) (hlegal : legalProfile s.profile)
    (hfit : operandAddr s + operandLen s ≤ s.params.bufSize) (hmin : 0x94 ≤ operandLen s)
    (hpost : nPk s.profile ≠ 0 → 3092 ≤ operandLen s) :
    ∃ m, exec .mr0kDecrypt s =
        .next (finish { s with ram := m, result0 := s.opAddr + 20#32, result1 := s.opLen - 20#32 }) ∧
      BufHolds s m (decryptedByte s.params s.profile inp (operandLen s)) := by
  have hfolded := (bufHolds_start h).writeKey (k := 0x84)
    (g := fun i => aesKey s.profile inp (key1 s.profile inp) i ^^^ aesKey s.profile inp (key3 inp) i) (by omega)
  obtain ⟨m8, hunmask, hm8⟩ := mr0kUnmask_ok h hmin (mr0kSeed_byte s.params s.profile inp (operandLen s)) hfolded
  obtain ⟨m10, hpostKey, hm10⟩ := mr0kPost_ok h hpost hm8
  refine ⟨m10, ?_, hm10⟩
  have hk3 : readBytes s.ram (bufAt (operandAddr s + 0x84)) 16 = .ok (keyOf (key3 inp)) := readBytes_key h (by omega)
  rw [exec_eq, opOf, opMr0kDecrypt, if_neg (by simp [profileLegal_iff_legalProfile.mpr hlegal]),
    if_neg (by simp [fitsBuf, hfit]), if_neg (Nat.not_lt.mpr hmin),
    if_neg fun hshort => Nat.not_lt.mpr (hpost hshort.1) hshort.2]
  simp only [readBytes_key h (k := 0x04) (by omega), readBytes_key h (k := 0x74) (by omega), hk3,
    mr0kKey2_eq_keyOf h hlegal.1, mr0kSubst_eq_keyOf h, mr0kAes_eq_keyOf h, xorBytes_keyOf, hunmask, hpostKey,
    Op.withRead_ok]
  rfl

/-- Settles O36: the sequence of the steps, with RESULT0 and RESULT1 on numbers. -/
theorem mr0kDecryptResult : Obligations.Mr0kDecryptResult := by
  intro s inp hlegal hfit hmin hpost h
  obtain ⟨m, hexec, hm⟩ := exec_mr0kDecrypt_of_holds h hlegal hfit hmin hpost
  have h0 : s.opAddr + 20#32 = BitVec.ofNat 32 (s.opAddr.toNat + 20) := by bv_omega
  have h1 : s.opLen - 20#32 = BitVec.ofNat 32 (s.opLen.toNat - 20) := by bv_omega
  rw [h0, h1] at hexec
  exact ⟨m, hexec, hm.bytes, hm.frame⟩

end Sys2Proof.Machine
end

section
/-! UCN_KEY_HEX (spec/43_unitycn.md R181, R182): a character's digit, a pair's byte, the loop over the text, then the
command. -/

namespace Sys2Proof.Machine
open Sys2Proof.Spec

/-! ### Hex digits (R182) -/

theorem hexVal_eq_hexDigit (c : Byte) : hexVal c = (hexDigit c).map (BitVec.ofNat 4) := by
  simp only [hexVal, hexDigit, apply_ite (Option.map (BitVec.ofNat 4)), Option.map_some, Option.map_none]
  rfl

theorem hexDigit_lt {c : Byte} {n : Nat} (h : hexDigit c = some n) : n < 16 := by
  have hbounds : '0'.toNat = 48 ∧ '9'.toNat = 57 ∧ 'A'.toNat = 65 ∧ 'F'.toNat = 70 ∧ 'a'.toNat = 97 ∧
      'f'.toNat = 102 := by decide
  unfold hexDigit at h
  split_ifs at h <;> cases h <;> omega

/-- Two nibbles side by side are the number they spell. -/
theorem nibble_append {h l : Nat} (hh : h < 16) (hl : l < 16) :
    BitVec.ofNat 4 h ++ BitVec.ofNat 4 l = BitVec.ofNat 8 (h * 16 + l) := by
  rw [← BitVec.toNat_inj, BitVec.toNat_append, BitVec.toNat_ofNat, BitVec.toNat_ofNat, BitVec.toNat_ofNat,
    Nat.mod_eq_of_lt hh, Nat.mod_eq_of_lt hl, ← Nat.shiftLeft_add_eq_or_of_lt hl, Nat.shiftLeft_eq]
  omega

theorem hexPair_of_digits {hi lo : Byte} {h l : Nat} (hh : hexDigit hi = some h) (hl : hexDigit lo = some l) :
    hexPair hi lo = some (BitVec.ofNat 8 (h * 16 + l)) := by
  simp only [hexPair, hexVal_eq_hexDigit, hh, hl, Option.map_some, nibble_append (hexDigit_lt hh) (hexDigit_lt hl)]

/-- A pair without a byte has a bad digit, and the other way round. -/
theorem hexPair_eq_none_iff (hi lo : Byte) : hexPair hi lo = none ↔ hexDigit hi = none ∨ hexDigit lo = none := by
  simp only [hexPair, hexVal_eq_hexDigit]
  cases hexDigit hi <;> cases hexDigit lo <;> simp

/-! ### The text (R181) -/

theorem bufAt_add (a i : Nat) : bufAt a + i = bufCell (a + i) := Nat.add_assoc _ _ _

section
variable {m : Memory} {o n : Nat} {hi lo : Byte} (h0 : m.read o = some hi) (h1 : m.read (o + 1) = some lo)
include h0 h1

theorem readHex_succ_of_bad (hbad : hexPair hi lo = none) : readHex m o (n + 1) = .ok none := by
  simp only [readHex, readByte_ok_iff.mpr h0, readByte_ok_iff.mpr h1, hbad]

theorem readHex_succ_of_pair {b : Byte} {r : Option (List Byte)} (hb : hexPair hi lo = some b)
    (hr : readHex m (o + 2) n = .ok r) : readHex m o (n + 1) = .ok (r.map (b :: ·)) := by
  simp only [readHex, readByte_ok_iff.mpr h0, readByte_ok_iff.mpr h1, hb, hr]
  cases r <;> rfl

end

/-- A text of digits is read as the bytes its pairs spell. -/
theorem readHex_of_digits {m : Memory} {o n : Nat} {c : Nat → Byte} {d : Nat → Nat}
    (h : ∀ i < 2 * n, m.read (o + i) = some (c i) ∧ hexDigit (c i) = some (d i)) :
    readHex m o n = .ok (some ((List.range n).map fun j => BitVec.ofNat 8 (d (2 * j) * 16 + d (2 * j + 1)))) := by
  induction n generalizing o c d with
  | zero => rfl
  | succ n ih =>
    obtain ⟨h0, hd0⟩ := h 0 (by omega)
    rw [Nat.add_zero] at h0
    obtain ⟨h1, hd1⟩ := h 1 (by omega)
    have hrest := ih (o := o + 2) (c := fun i => c (i + 2)) (d := fun i => d (i + 2)) fun i hi => by
      rw [Nat.add_right_comm, Nat.add_assoc]
      exact h (i + 2) (by omega)
    rw [readHex_succ_of_pair h0 h1 (hexPair_of_digits hd0 hd1) hrest, List.range_succ_eq_map]
    simp [Nat.mul_add, Nat.add_right_comm, Function.comp_def]

/-- A text with a character that is no digit gives no key. -/
theorem readHex_of_bad {m : Memory} {o n : Nat} {c : Nat → Byte} (h : ∀ i < 2 * n, m.read (o + i) = some (c i))
    (hbad : ∃ i < 2 * n, hexDigit (c i) = none) : readHex m o n = .ok none := by
  induction n generalizing o c with
  | zero => obtain ⟨i, hi, -⟩ := hbad; omega
  | succ n ih =>
    have h0 := h 0 (by omega)
    have h1 := h 1 (by omega)
    cases hp : hexPair (c 0) (c 1) with
    | none => exact readHex_succ_of_bad h0 h1 hp
    | some b =>
      have hdigits : ¬ (hexDigit (c 0) = none ∨ hexDigit (c 1) = none) := by
        rw [← hexPair_eq_none_iff, hp]
        exact Option.some_ne_none b
      have hrest := ih (o := o + 2) (c := fun i => c (i + 2))
        (fun i hi => by
          rw [Nat.add_right_comm, Nat.add_assoc]
          exact h (i + 2) (by omega))
        (by
          obtain ⟨i, hi, hc⟩ := hbad
          match i with
          | 0 => exact absurd (.inl hc) hdigits
          | 1 => exact absurd (.inr hc) hdigits
          | i + 2 => exact ⟨i, by omega, hc⟩)
      exact readHex_succ_of_pair h0 h1 hp hrest

/-! ### The command (R181) -/

theorem exec_ucnKeyHex_of_not_fits {s : State} (hfit : ¬ operandAddr s + operandLen s ≤ s.params.bufSize) :
    exec .ucnKeyHex s = .next (finish (raiseErr .bounds s)) := by
  rw [exec_eq, opOf, opUcnKeyHex, if_pos (by simp [fitsBuf, hfit])]
  rfl

section
variable {s : State} (hfit : operandAddr s + operandLen s ≤ s.params.bufSize)
include hfit

theorem exec_ucnKeyHex_of_length (hlen : operandLen s ≠ 32) :
    exec .ucnKeyHex s = .next (finish (raiseErr .invalidKeyLength s)) := by
  rw [exec_eq, opOf, opUcnKeyHex, if_neg (by simp [fitsBuf, hfit]), if_pos hlen]
  rfl

theorem exec_ucnKeyHex_of_bad (hlen : operandLen s = 32) (h : readHex s.ram (bufAt (operandAddr s)) 16 = .ok none) :
    exec .ucnKeyHex s = .next (finish (raiseErr .invalidKeyLength s)) := by
  rw [exec_eq, opOf, opUcnKeyHex, if_neg (by simp [fitsBuf, hfit]), if_neg (not_not.mpr hlen), h]
  rfl

theorem exec_ucnKeyHex_of_key {k : List Byte} (hlen : operandLen s = 32)
    (h : readHex s.ram (bufAt (operandAddr s)) 16 = .ok (some k)) :
    exec .ucnKeyHex s = .next (finish { s with
      ram := writeBytes s.ram (regionBase .aKey) k, ctrl := { s.ctrl with akeyEn := true } }) := by
  rw [exec_eq, opOf, opUcnKeyHex, if_neg (by simp [fitsBuf, hfit]), if_neg (not_not.mpr hlen), h]
  rfl

end

/-- Settles O38: the text is read as the decoded bytes, which are stored at UCN_AKEY. -/
theorem ucnKeyHexLoads : Obligations.UcnKeyHexLoads := by
  intro s c d hlen hfit htext
  have hread := readHex_of_digits (m := s.ram) (o := bufAt (operandAddr s)) (n := 16) (c := c) (d := d) fun i hi => by
    rw [bufAt_add]
    exact htext i hi
  refine ⟨_, exec_ucnKeyHex_of_key hfit hlen hread, fun j hj => ?_, fun o ho => ?_⟩
  · rw [writeBytes_read, List.length_map, List.length_range, if_pos (by simp only [regionBase]; omega),
      regionBase, Nat.add_sub_cancel_left, byteOf_map_range hj]
  · rw [writeBytes_read, List.length_map, List.length_range, if_neg (by simpa only [regionBase] using ho)]

/-- Settles O39: the checks of R181 in their order. -/
theorem ucnKeyHexErrors : Obligations.UcnKeyHexErrors := by
  refine fun s => ⟨fun hsize => exec_ucnKeyHex_of_not_fits (Nat.not_le_of_lt hsize), fun hfit =>
    ⟨exec_ucnKeyHex_of_length hfit, fun hlen c htext hbad => ?_⟩⟩
  refine exec_ucnKeyHex_of_bad hfit hlen (readHex_of_bad (c := c) (fun i hi => ?_) hbad)
  rw [bufAt_add]
  exact htext i hi

end Sys2Proof.Machine
end

section
/-! UCN_HEADER (spec/43_unitycn.md R183 to R188): the decrypted fields as functions of their byte number, the signature
test, the nibbles the tables are made of, then the command. -/

namespace Sys2Proof.Machine
open Sys2Proof.Spec

/-! ### The fields (R183, R184, R187) -/

/-- The signature constant is R187's text. -/
theorem ucnSig_eq_keyOf : Config.ucnSig = keyOf sigByte := by decide

theorem keyOf_eq_iff {f g : Nat → Byte} : keyOf f = keyOf g ↔ ∀ i < 16, f i = g i := by
  refine ⟨fun h i hi => ?_, fun h => eq_keyOf (keyOf_length f) fun i hi => (byteOf_keyOf hi).trans (h i hi)⟩
  rw [← byteOf_keyOf (f := f) hi, h, byteOf_keyOf hi]

section
variable {s : State} {h ak : Nat → Byte} (hh : HoldsHeader s h ak)
include hh

/-- A field is 16 buffer bytes on either side of the byte between the two pairs. -/
theorem readBytes_field {k : Nat} (hk : (4 ≤ k ∧ k + 16 ≤ 36) ∨ (37 ≤ k ∧ k + 16 ≤ 69)) :
    readBytes s.ram (bufAt (operandAddr s + k)) 16 = .ok (keyOf fun i => h (k + i)) :=
  readBytes_of_fun fun i hi => by
    rw [bufAt_operandAddr_add]
    rcases hk with hk | hk
    · obtain ⟨j, hj⟩ := Nat.exists_eq_add_of_le (show 4 ≤ k + i by omega)
      rw [hj]
      exact hh.info j (by omega)
    · obtain ⟨j, hj⟩ := Nat.exists_eq_add_of_le (show 37 ≤ k + i by omega)
      rw [hj]
      exact hh.sig j (by omega)

/-- DecryptKey (R184), with the active key and without. -/
theorem decryptKey_keyOf (k data : Nat → Byte) :
    decryptKey s (keyOf k) (keyOf data) = .ok (keyOf (decryptKeyByte s ak k data)) := by
  by_cases hen : s.ctrl.akeyEn = true
  · have hread : readBytes s.ram (regionBase .aKey) 16 = .ok (keyOf ak) := readBytes_of_fun (hh.akey hen)
    have haes (b : Block) : b.toList = keyOf fun i => b.toList.getD i 0#8 := eq_keyOf (by simp) fun _ _ => rfl
    rw [decryptKey, if_pos hen, hread]
    simp only [blockOf_of_fun fun i hi => byteOf_keyOf hi]
    rw [haes (Config.aesEncEcb _ _), xorBytes_keyOf]
    exact congrArg _ (congrArg keyOf (funext fun i => (if_pos hen).symm))
  · rw [decryptKey, if_neg hen]
    exact congrArg _ (congrArg keyOf (funext fun i => (if_neg hen).symm))

end

/-! ### The tables (R185, R186) -/

theorem unpack_keyOf (f : Nat → Byte) {j : Nat} (hj : j < 32) : byteOf (unpack (keyOf f)) j = nibble f j := by
  rw [unpack_get _ (by rw [keyOf_length]; omega), byteOf_keyOf (by omega), byteHigh_eq, byteLow_eq]
  rfl

theorem writeTables_read_index (m : Memory) (f : Nat → Byte) {i : Nat} (hi : i < 16) :
    (writeTables m (unpack (keyOf f))).read (0x0E0 + i) = some (nibble f i) := by
  rw [writeTables_read, if_neg (by omega), if_pos (by omega), Nat.add_sub_cancel_left, indexTable_get hi,
    unpack_keyOf f (by omega)]

/-- The transpose of R186. -/
theorem writeTables_read_sub (m : Memory) (f : Nat → Byte) {i : Nat} (hi : i < 16) :
    (writeTables m (unpack (keyOf f))).read (0x0F0 + (i % 4 * 4 + i / 4)) = some (nibble f (16 + i)) := by
  have hcell : 16 + 4 * ((i % 4 * 4 + i / 4) % 4) + (i % 4 * 4 + i / 4) / 4 = 16 + i := by omega
  rw [writeTables_read, if_pos (by omega), Nat.add_sub_cancel_left, subTable_get (by omega), hcell,
    unpack_keyOf f (by omega)]

theorem writeTables_read_other (m : Memory) (l : List Byte) {o : Nat} (ho : ¬ (0x0E0 ≤ o ∧ o < 0x100)) :
    (writeTables m l).read o = m.read o := by
  rw [writeTables_read, if_neg (by omega), if_neg (by omega)]

/-! ### The command (R188) -/

theorem exec_ucnHeader_of_not_fits {s : State} (hfit : ¬ operandAddr s + 70 ≤ s.params.bufSize) :
    exec .ucnHeader s = .next (finish (raiseErr .bounds { s with tablesValid := false })) := by
  rw [exec_eq, opOf, opUcnHeader, if_pos (by simp [fitsBuf, hfit])]
  rfl

/-- Past the bounds check the signature decides. -/
theorem exec_ucnHeader_of_holds {s : State} {h ak : Nat → Byte} (hfit : operandAddr s + 70 ≤ s.params.bufSize)
    (hh : HoldsHeader s h ak) : exec .ucnHeader s = .next (finish (
      if keyOf (headerSig s h ak) ≠ Config.ucnSig then raiseErr .invalidSignature { s with tablesValid := false }
      else { s with
        ram := writeTables s.ram (unpack (keyOf (headerInfo s h ak))), tablesValid := true, result0 := 70#32 })) := by
  have hsig : decryptKey s (keyOf fun i => h (53 + i)) (keyOf fun i => h (37 + i)) = .ok (keyOf (headerSig s h ak)) :=
    decryptKey_keyOf hh _ _
  have hinfo : decryptKey s (keyOf fun i => h (20 + i)) (keyOf fun i => h (4 + i)) = .ok (keyOf (headerInfo s h ak)) :=
    decryptKey_keyOf hh _ _
  rw [exec_eq, opOf, opUcnHeader, if_neg (by simp [fitsBuf, hfit])]
  simp only [readBytes_field hh (k := 4) (by omega), readBytes_field hh (k := 20) (by omega),
    readBytes_field hh (k := 37) (by omega), readBytes_field hh (k := 53) (by omega), Op.withRead_ok, hsig, hinfo]
  split_ifs <;> rfl

/-- Settles O40: the bounds check, then the signature's. -/
theorem ucnHeaderErrors : Obligations.UcnHeaderErrors := by
  refine fun s => ⟨fun hsize => exec_ucnHeader_of_not_fits (Nat.not_le_of_lt hsize), fun hfit h ak hh hsig => ?_⟩
  rw [exec_ucnHeader_of_holds hfit hh, ucnSig_eq_keyOf, if_pos]
  · rfl
  · obtain ⟨i, hi, hne⟩ := hsig
    exact fun heq => hne (keyOf_eq_iff.mp heq i hi)

/-- Settles O41: with the right signature both tables are written from the nibbles. -/
theorem ucnHeaderLoadsTables : Obligations.UcnHeaderLoadsTables := by
  intro s h ak hfit hh hsig
  have hexec := exec_ucnHeader_of_holds hfit hh
  rw [ucnSig_eq_keyOf, if_neg (not_not.mpr (keyOf_eq_iff.mpr hsig))] at hexec
  exact ⟨_, hexec, fun i hi => writeTables_read_index _ _ hi, fun i hi => writeTables_read_sub _ _ hi,
    fun o ho => writeTables_read_other _ _ ho⟩

end Sys2Proof.Machine
end

section
/-! The per-byte transform (spec/43_unitycn.md R190, R191, R193) on numbers. -/

namespace Sys2Proof.Machine
open Sys2Proof.Spec

/-! ### The bits the transform takes from the index and from the byte -/

theorem bits2_toNat (i : Word) : (i &&& 3#32).toNat = i.toNat % 4 := by
  rw [BitVec.toNat_and]
  exact Nat.and_two_pow_sub_one_eq_mod _ 2

theorem shiftRight_toNat (i : Word) (k : Nat) : (i >>> k).toNat = i.toNat / 2 ^ k := by
  rw [BitVec.toNat_ushiftRight, Nat.shiftRight_eq_div_pow]

theorem nibbleLow_toNat (v : Byte) : (v &&& 0x0F#8).toNat = v.toNat % 16 := by
  rw [BitVec.toNat_and]
  exact Nat.and_two_pow_sub_one_eq_mod _ 4

theorem nibbleHigh_toNat (v : Byte) : (v >>> 4).toNat = v.toNat / 16 := by
  rw [BitVec.toNat_ushiftRight, Nat.shiftRight_eq_div_pow]

/-! ### Periodicity (R193) -/

theorem maskValue_mod (m : Memory) (i : Word) : maskValue m i = maskValue m (BitVec.ofNat 32 (i.toNat % 256)) := by
  have hlow : (BitVec.ofNat 32 (i.toNat % 256)).toNat = i.toNat % 256 := by
    rw [BitVec.toNat_ofNat]
    omega
  have h0 : i.toNat % 256 % 4 = i.toNat % 4 := by omega
  have h1 : i.toNat % 256 / 2 ^ 2 % 4 = i.toNat / 2 ^ 2 % 4 := by omega
  have h2 : i.toNat % 256 / 2 ^ 4 % 4 = i.toNat / 2 ^ 4 % 4 := by omega
  simp only [maskValue, bits2_toNat, shiftRight_toNat, hlow, h0, h1, h2, Nat.mod_mod]

/-- Settles O43: the index enters through the mask alone. -/
theorem substPeriodic : Obligations.SubstPeriodic := fun m v i => by
  rw [subst, subst, maskValue_mod]

/-! ### The formula (R190, R191) -/

section
variable {m : Memory} {idx sub : Nat → Nat} (h : HoldsTables m idx sub)
include h

theorem subEntry_of_tables {j : Nat} (hj : j < 16) : subEntry m j = .ok (sub j) := by
  obtain ⟨hlt, hread⟩ := h.subst j hj
  have hbyte : readByte m (regionBase .subTbl + j) = .ok (BitVec.ofNat 8 (sub j)) := readByte_ok_iff.mpr hread
  rw [subEntry, hbyte]
  simp only [BitVec.toNat_ofNat, Nat.mod_eq_of_lt (hlt.trans (by decide : 16 < 2 ^ 8))]

theorem maskValue_of_tables (i : Word) : maskValue m i = .ok (maskB sub i.toNat) := by
  simp only [maskValue, bits2_toNat, shiftRight_toNat]
  rw [subEntry_of_tables h (by omega), subEntry_of_tables h (by omega), subEntry_of_tables h (by omega),
    subEntry_of_tables h (by omega)]
  rfl

theorem substNibble_of_tables (b : Nat) {j : Nat} (hj : j < 16) :
    substNibble m b j = .ok (BitVec.ofNat 4 (((idx j : Int) - b) % 16).toNat) := by
  obtain ⟨hlt, hread⟩ := h.index j hj
  have hbyte : readByte m (regionBase .indexTbl + j) = .ok (BitVec.ofNat 8 (idx j)) := readByte_ok_iff.mpr hread
  rw [substNibble, hbyte]
  simp only [BitVec.toNat_ofNat, Nat.mod_eq_of_lt (hlt.trans (by decide : 16 < 2 ^ 8)), Except.ok.injEq]
  rw [← BitVec.toNat_inj, BitVec.toNat_ofInt, BitVec.toNat_ofNat]
  omega

end

theorem mod16_toNat_lt (x : Int) : (x % 16).toNat < 16 := by omega

/-- Settles O42: the two nibbles of R191, side by side. -/
theorem substFormula : Obligations.SubstFormula := by
  intro m idx sub v i h
  have hv := v.isLt
  rw [subst, maskValue_of_tables h]
  simp only [nibbleLow_toNat, nibbleHigh_toNat]
  rw [substNibble_of_tables h _ (by omega), substNibble_of_tables h _ (by omega)]
  simp only [nibble_append (mod16_toNat_lt _) (mod16_toNat_lt _), substByte, Nat.mul_comm _ 16, Nat.add_comm]

end Sys2Proof.Machine
end

section
/-! The walk of UCN_BLOCK is the relation of the rules (spec/43_unitycn.md R194, R200 to R205): each part of the walk
ends well exactly where the relation leads, and at BUF's end exactly where the relation asks for a byte there. -/

namespace Sys2Proof.Machine
open Sys2Proof.Spec

/-! ### Two parts in sequence -/

section
variable {α β : Type} {r : WalkEnd α} {k : α → Walk → WalkEnd β} {w' : Walk}

theorem WalkEnd.andThen_eq_ok_iff {u : β} : r.andThen k = .ok u w' ↔ ∃ v w, r = .ok v w ∧ k v w = .ok u w' := by
  cases r <;> simp [WalkEnd.andThen]

theorem WalkEnd.andThen_eq_bounds_iff :
    r.andThen k = .bounds w' ↔ r = .bounds w' ∨ ∃ v w, r = .ok v w ∧ k v w = .bounds w' := by
  cases r <;> simp [WalkEnd.andThen]

end

variable {size a len : Nat} {t : Byte} {w w' : Walk}

/-! ### X (R194) -/

theorem walkX_eq_ok_iff {p : Byte} : walkX size a w = .ok p w' ↔ XAt size a w p w' := by
  constructor
  · intro h
    rcases walkX_cases size a w with ⟨-, he⟩ | ⟨hlt, ⟨v, q, hv, hq, he⟩ | ⟨o, he, -⟩⟩ <;> rw [he] at h <;> cases h
    exact ⟨hlt, v, hv, hq, rfl⟩
  · rintro ⟨hlt, v, hv, hp, rfl⟩
    rw [bufCell_eq] at hv
    simp only [walkX, if_neg (Nat.not_le.mpr hlt), readByte_ok_iff.mpr hv, hp]
    rfl

theorem walkX_eq_bounds_iff : walkX size a w = .bounds w' ↔ size ≤ a + w.off ∧ w' = w := by
  constructor
  · intro h
    rcases walkX_cases size a w with ⟨hle, he⟩ | ⟨-, ⟨v, q, -, -, he⟩ | ⟨o, he, -⟩⟩ <;> rw [he] at h <;> cases h
    exact ⟨hle, rfl⟩
  · rintro ⟨hle, rfl⟩
    rw [walkX, if_pos hle]

theorem xAt_off {p : Byte} (h : XAt size a w p w') : w'.off = w.off + 1 := by
  obtain ⟨-, v, -, -, rfl⟩ := h
  rfl

/-! ### Continuation runs (R201, R202) -/

theorem byte_eq_ff_iff (c : Byte) : c = 0xFF#8 ↔ c.toNat = 255 := BitVec.toNat_inj.symm

theorem contRun_iff {n : Nat} : ContRun size a w n w' ↔ ∃ c w1, XAt size a w c w1 ∧
    ((c.toNat ≠ 255 ∧ n = c.toNat ∧ w' = w1) ∨ (c.toNat = 255 ∧ ∃ k, ContRun size a w1 k w' ∧ n = 255 + k)) := by
  constructor
  · rintro (⟨hx, hc⟩ | ⟨hx, hc, hr⟩)
    · exact ⟨_, _, hx, .inl ⟨hc, rfl, rfl⟩⟩
    · exact ⟨_, _, hx, .inr ⟨hc, _, hr, rfl⟩⟩
  · rintro ⟨c, w1, hx, ⟨hc, rfl, rfl⟩ | ⟨hc, k, hr, rfl⟩⟩
    · exact .last hx hc
    · exact .more hx hc hr

theorem contHits_iff : ContHits size a w w' ↔
    (size ≤ a + w.off ∧ w' = w) ∨ ∃ c w1, XAt size a w c w1 ∧ c.toNat = 255 ∧ ContHits size a w1 w' := by
  constructor
  · rintro (hle | ⟨hx, hc, hr⟩)
    · exact .inl ⟨hle, rfl⟩
    · exact .inr ⟨_, _, hx, hc, hr⟩
  · rintro (⟨hle, rfl⟩ | ⟨c, w1, hx, hc, hr⟩)
    · exact .now hle
    · exact .more hx hc hr

theorem walkRun_eq_ok_iff {room lit n : Nat} (hroom : room = size - (a + w.off)) :
    walkRun size a room lit w = .ok n w' ↔ ∃ k, ContRun size a w k w' ∧ n = lit + k := by
  induction room generalizing lit w with
  | zero =>
    refine iff_of_false nofun ?_
    rintro ⟨k, hrun, -⟩
    obtain ⟨c, w1, ⟨hlt, -⟩, -⟩ := contRun_iff.mp hrun
    omega
  | succ room ih =>
    simp only [walkRun, WalkEnd.andThen_eq_ok_iff, walkX_eq_ok_iff, contRun_iff (w := w), byte_eq_ff_iff]
    constructor
    · rintro ⟨c, w1, hx, h⟩
      split at h
      · next hc =>
        obtain ⟨k, hrun, rfl⟩ := (ih (by rw [xAt_off hx]; omega)).mp h
        exact ⟨255 + k, ⟨c, w1, hx, .inr ⟨hc, k, hrun, rfl⟩⟩, by rw [hc, Nat.add_assoc]⟩
      · next hc =>
        cases h
        exact ⟨_, ⟨c, w', hx, .inl ⟨hc, rfl, rfl⟩⟩, rfl⟩
    · rintro ⟨j, ⟨c, w1, hx, ⟨hc, rfl, rfl⟩ | ⟨hc, k, hrun, rfl⟩⟩, rfl⟩
      · exact ⟨c, w', hx, if_neg hc⟩
      · refine ⟨c, w1, hx, (if_pos hc).trans ((ih (by rw [xAt_off hx]; omega)).mpr ⟨k, hrun, ?_⟩)⟩
        rw [hc, Nat.add_assoc]

theorem walkRun_eq_bounds_iff {room lit : Nat} (hroom : room = size - (a + w.off)) :
    walkRun size a room lit w = .bounds w' ↔ ContHits size a w w' := by
  induction room generalizing lit w with
  | zero =>
    have hle : size ≤ a + w.off := by omega
    have hnot : ¬ ∃ c w1, XAt size a w c w1 ∧ c.toNat = 255 ∧ ContHits size a w1 w' := by
      rintro ⟨c, w1, ⟨hlt, -⟩, -⟩
      omega
    rw [contHits_iff, or_iff_left hnot, and_iff_right hle, walkRun, WalkEnd.bounds.injEq, eq_comm]
  | succ room ih =>
    simp only [walkRun, WalkEnd.andThen_eq_bounds_iff, walkX_eq_ok_iff, walkX_eq_bounds_iff, contHits_iff (w := w),
      byte_eq_ff_iff]
    refine or_congr_right (exists_congr fun c => exists_congr fun w1 => and_congr_right fun hx => ?_)
    by_cases hc : c.toNat = 255
    · rw [if_pos hc, and_iff_right hc]
      exact ih (by rw [xAt_off hx]; omega)
    · rw [if_neg hc]
      exact iff_of_false nofun fun h => hc h.1

theorem walkRunHere_eq_ok_iff {lit n : Nat} :
    walkRunHere size a lit w = .ok n w' ↔ ∃ k, ContRun size a w k w' ∧ n = lit + k := walkRun_eq_ok_iff rfl

theorem walkRunHere_eq_bounds_iff {lit : Nat} : walkRunHere size a lit w = .bounds w' ↔ ContHits size a w w' :=
  walkRun_eq_bounds_iff rfl

/-! ### The literals of a token (R201) -/

theorem highNibble_eq_15_iff (t : Byte) : t >>> 4 = 15#8 ↔ t.toNat / 16 = 15 := by
  rw [← BitVec.toNat_inj, nibbleHigh_toNat]
  rfl

theorem lowNibble_eq_15_iff (t : Byte) : t &&& 0x0F#8 = 15#8 ↔ t.toNat % 16 = 15 := by
  rw [← BitVec.toNat_inj, nibbleLow_toNat]
  rfl

theorem walkLiterals_eq_ok_iff {u : Unit} : walkLiterals size a t w = .ok u w' ↔
    ∃ lit w2, LitLen size a t w lit w2 ∧ w' = { w2 with off := w2.off + lit } := by
  simp only [walkLiterals, WalkEnd.andThen_eq_ok_iff, highNibble_eq_15_iff, LitLen, nibbleHigh_toNat,
    WalkEnd.ok.injEq, true_and, eq_comm (b := w')]
  refine exists_congr fun lit => exists_congr fun w2 => and_congr_left fun _ => ?_
  by_cases ht : t.toNat / 16 = 15
  · simp [ht, walkRunHere_eq_ok_iff]
  · simp [ht, eq_comm]

theorem walkLiterals_eq_bounds_iff :
    walkLiterals size a t w = .bounds w' ↔ t.toNat / 16 = 15 ∧ ContHits size a w w' := by
  simp only [walkLiterals, WalkEnd.andThen_eq_bounds_iff, highNibble_eq_15_iff]
  by_cases ht : t.toNat / 16 = 15
  · simp [ht, walkRunHere_eq_bounds_iff]
  · simp [ht]

/-! ### The second part of a token (R202) -/

/-- After its two bytes a second part ends, or a run goes on. -/
theorem secondRun_eq_ok_iff {u : Unit} {w2 : Walk} :
    (if t.toNat % 16 = 15 then (walkRunHere size a 0 w2).andThen fun _ w => .ok () w else .ok () w2) = .ok u w' ↔
      (t.toNat % 16 ≠ 15 ∧ w' = w2) ∨ (t.toNat % 16 = 15 ∧ ∃ n, ContRun size a w2 n w') := by
  by_cases ht : t.toNat % 16 = 15
  · simp [ht, WalkEnd.andThen_eq_ok_iff, walkRunHere_eq_ok_iff]
  · simp [ht, eq_comm]

theorem walkSecond_eq_ok_iff {u : Unit} : walkSecond size a len t w = .ok u w' ↔ SecondPart size a len t w w' := by
  rw [walkSecond, SecondPart]
  by_cases hlt : w.off < len
  · simp only [hlt, if_true, Nat.not_le.mpr hlt, false_and, true_and, false_or, WalkEnd.andThen_eq_ok_iff,
      walkX_eq_ok_iff, lowNibble_eq_15_iff, secondRun_eq_ok_iff]
    exact ⟨fun ⟨p, w1, hp, q, w2, hq, h⟩ => ⟨p, q, w1, w2, hp, hq, h⟩,
      fun ⟨p, q, w1, w2, hp, hq, h⟩ => ⟨p, w1, hp, q, w2, hq, h⟩⟩
  · simp [hlt, Nat.le_of_not_lt hlt, eq_comm]

theorem walkSecond_eq_bounds_iff : walkSecond size a len t w = .bounds w' ↔ SecondHits size a len t w w' := by
  simp only [walkSecond, SecondHits]
  by_cases hlt : w.off < len
  · simp only [hlt, if_true, true_and, WalkEnd.andThen_eq_bounds_iff, walkX_eq_ok_iff,
      walkX_eq_bounds_iff, lowNibble_eq_15_iff]
    by_cases ht : t.toNat % 16 = 15
    · simp [ht, walkRunHere_eq_bounds_iff, WalkEnd.andThen_eq_bounds_iff]
    · simp [ht]
  · simp [hlt]

/-! ### Tokens (R200, R204) -/

theorem walkToken_eq_ok_iff {u : Unit} (hlt : w.off < len) :
    walkToken size a len w = .ok u w' ↔ OneToken size a len w w' := by
  simp only [walkToken, OneToken, WalkEnd.andThen_eq_ok_iff, walkX_eq_ok_iff, walkLiterals_eq_ok_iff,
    walkSecond_eq_ok_iff, WalkEnd.ok.injEq, and_iff_right hlt]
  constructor
  · rintro ⟨t, w1, hx, -, -, ⟨lit, w2, hlit, rfl⟩, -, w3, hsec, -, rfl⟩
    exact ⟨t, lit, w1, w2, w3, hx, hlit, hsec, rfl⟩
  · rintro ⟨t, lit, w1, w2, w3, hx, hlit, hsec, rfl⟩
    exact ⟨t, w1, hx, (), _, ⟨lit, w2, hlit, rfl⟩, (), w3, hsec, trivial, rfl⟩

theorem walkToken_eq_bounds_iff (hlt : w.off < len) :
    walkToken size a len w = .bounds w' ↔ TokenHits size a len w w' := by
  simp only [walkToken, TokenHits, WalkEnd.andThen_eq_bounds_iff, walkX_eq_ok_iff, walkX_eq_bounds_iff,
    walkLiterals_eq_ok_iff, walkLiterals_eq_bounds_iff, walkSecond_eq_bounds_iff, walkSecond_eq_ok_iff,
    and_iff_right hlt]
  refine or_congr_right (exists_congr fun t => exists_congr fun w1 => and_congr_right fun _ => or_congr_right ?_)
  constructor
  · rintro ⟨-, -, ⟨lit, w2, hlit, rfl⟩, hhit | ⟨-, w3, -, hend⟩⟩
    · exact ⟨lit, w2, hlit, hhit⟩
    · cases hend
  · rintro ⟨lit, w2, hlit, hhit⟩
    exact ⟨(), _, ⟨lit, w2, hlit, rfl⟩, .inl hhit⟩

theorem tokens_iff : Tokens size a len w w' ↔
    w' = w ∨ ∃ w1, OneToken size a len w w1 ∧ Tokens size a len w1 w' := by
  constructor
  · rintro (_ | ⟨ht, hr⟩)
    · exact .inl rfl
    · exact .inr ⟨_, ht, hr⟩
  · rintro (rfl | ⟨w1, ht, hr⟩)
    · exact .none
    · exact .more ht hr

theorem oneToken_advances (h : OneToken size a len w w') : w.off + 1 ≤ w'.off :=
  walkToken_advances ((walkToken_eq_ok_iff h.1).mpr h)

section
variable {fuel : Nat}

theorem walkTokens_of_lt (hlt : w.off < len) : walkTokens size a len (fuel + 1) w =
    (walkToken size a len w).andThen fun _ w1 => walkTokens size a len fuel w1 := if_pos hlt

theorem walkTokens_of_end (hend : len ≤ w.off) : walkTokens size a len fuel w = .ok () w := by
  cases fuel with
  | zero => rfl
  | succ fuel => exact if_neg (Nat.not_lt.mpr hend)

/-- No token begins at or past the end of the block. -/
theorem tokens_of_end (hend : len ≤ w.off) : Tokens size a len w w' ↔ w' = w := by
  rw [tokens_iff]
  refine or_iff_left ?_
  rintro ⟨w1, ⟨hlt, -⟩, -⟩
  exact absurd hlt (Nat.not_lt.mpr hend)

theorem walkTokens_eq_ok_iff_of_end {u : Unit} (hend : len ≤ w.off) :
    walkTokens size a len fuel w = .ok u w' ↔ Tokens size a len w w' ∧ len ≤ w'.off := by
  rw [walkTokens_of_end hend, tokens_of_end hend, WalkEnd.ok.injEq]
  constructor
  · rintro ⟨-, rfl⟩
    exact ⟨rfl, hend⟩
  · rintro ⟨rfl, -⟩
    exact ⟨rfl, rfl⟩

theorem walkTokens_eq_bounds_iff_of_end (hend : len ≤ w.off) :
    walkTokens size a len fuel w = .bounds w' ↔ ∃ w0, Tokens size a len w w0 ∧ TokenHits size a len w0 w' := by
  rw [walkTokens_of_end hend]
  refine iff_of_false nofun ?_
  rintro ⟨w0, hr, hlt, -⟩
  rw [(tokens_of_end hend).mp hr] at hlt
  exact absurd hlt (Nat.not_lt.mpr hend)

/-- With fuel for the bytes that are left, the walk ends where the tokens lead past the end of the block. -/
theorem walkTokens_eq_ok_iff {u : Unit} (hf : len ≤ w.off + fuel) :
    walkTokens size a len fuel w = .ok u w' ↔ Tokens size a len w w' ∧ len ≤ w'.off := by
  induction fuel generalizing w with
  | zero => exact walkTokens_eq_ok_iff_of_end hf
  | succ fuel ih =>
    by_cases hlt : w.off < len
    · have hrest {w1 : Walk} (ht : OneToken size a len w w1) := ih (w := w1) (by have := oneToken_advances ht; omega)
      simp only [walkTokens_of_lt hlt, WalkEnd.andThen_eq_ok_iff, walkToken_eq_ok_iff hlt]
      constructor
      · rintro ⟨-, w1, ht, h⟩
        obtain ⟨hr, hend⟩ := (hrest ht).mp h
        exact ⟨.more ht hr, hend⟩
      · rintro ⟨hr, hend⟩
        rcases tokens_iff.mp hr with rfl | ⟨w1, ht, hr⟩
        · exact absurd hlt (Nat.not_lt.mpr hend)
        · exact ⟨(), w1, ht, (hrest ht).mpr ⟨hr, hend⟩⟩
    · exact walkTokens_eq_ok_iff_of_end (Nat.le_of_not_lt hlt)

/-- With fuel for the bytes that are left, the walk meets BUF's end where a token does. -/
theorem walkTokens_eq_bounds_iff (hf : len ≤ w.off + fuel) :
    walkTokens size a len fuel w = .bounds w' ↔ ∃ w0, Tokens size a len w w0 ∧ TokenHits size a len w0 w' := by
  induction fuel generalizing w with
  | zero => exact walkTokens_eq_bounds_iff_of_end hf
  | succ fuel ih =>
    by_cases hlt : w.off < len
    · have hrest {w1 : Walk} (ht : OneToken size a len w w1) := ih (w := w1) (by have := oneToken_advances ht; omega)
      simp only [walkTokens_of_lt hlt, WalkEnd.andThen_eq_bounds_iff, walkToken_eq_ok_iff hlt,
        walkToken_eq_bounds_iff hlt]
      constructor
      · rintro (hhit | ⟨-, w1, ht, h⟩)
        · exact ⟨w, .none, hhit⟩
        · obtain ⟨w0, hr, hhit⟩ := (hrest ht).mp h
          exact ⟨w0, .more ht hr, hhit⟩
      · rintro ⟨w0, hr, hhit⟩
        rcases tokens_iff.mp hr with rfl | ⟨w1, ht, hr⟩
        · exact .inl hhit
        · exact .inr ⟨(), w1, ht, (hrest ht).mpr ⟨w0, hr, hhit⟩⟩
    · exact walkTokens_eq_bounds_iff_of_end (Nat.le_of_not_lt hlt)

end

end Sys2Proof.Machine
end

section
/-! UCN_BLOCK is its tokens (spec/43_unitycn.md R200 to R205, R208): its refusals, the completion where the tokens lead
to the end of the block, and the raise where one meets BUF's end. -/

namespace Sys2Proof.Machine
open Sys2Proof.Spec

/-! ### The refusals (R204) -/

section
variable {s : State}

theorem exec_ucnBlock_of_no_tables (h : s.tablesValid = false) :
    exec .ucnBlock s = .next (finish (raiseErr .noTables s)) := by
  rw [exec_eq, opOf, opUcnBlock, if_pos (by simp [h])]
  rfl

theorem exec_ucnBlock_of_not_fits (h : s.tablesValid = true)
    (hfit : ¬ operandAddr s + operandLen s ≤ s.params.bufSize) :
    exec .ucnBlock s = .next (finish (raiseErr .bounds s)) := by
  rw [exec_eq, opOf, opUcnBlock, if_neg (by simp [h]), if_pos (by simp [fitsBuf, hfit])]
  rfl

/-- Settles O44: the two checks of R204 in their order. -/
theorem ucnBlockErrors : Obligations.UcnBlockErrors := fun _ =>
  ⟨exec_ucnBlock_of_no_tables, fun h hsize => exec_ucnBlock_of_not_fits h (Nat.not_le_of_lt hsize)⟩

/-! ### The walk (R204, R205) -/

variable {w : Walk}

theorem blockWalk_eq_ok_iff {u : Unit} : blockWalk s = .ok u w ↔ BlockTokens s w ∧ s.opLen.toNat ≤ w.off :=
  walkTokens_eq_ok_iff (Nat.le_add_left _ _)

theorem blockWalk_eq_bounds_iff : blockWalk s = .bounds w ↔ BlockHitsEnd s w :=
  walkTokens_eq_bounds_iff (Nat.le_add_left _ _)

/-- Past its checks UCN_BLOCK ends where its tokens reach the end of the block. -/
theorem exec_ucnBlock_of_tokens (h : blockReady s) (ht : BlockTokens s w) (hend : s.opLen.toNat ≤ w.off) :
    exec .ucnBlock s = .next (finish (storeWalk s w)) := by
  obtain ⟨hvalid, hfit⟩ := h
  have hw : blockWalk s = .ok () w := blockWalk_eq_ok_iff.mpr ⟨ht, hend⟩
  rw [exec_eq, opOf, opUcnBlock, if_neg (by simp [hvalid]), if_neg (by simp [fitsBuf, operandAddr, operandLen, hfit]),
    hw]
  rfl

/-- Past its checks UCN_BLOCK raises BOUNDS where a token meets BUF's end. -/
theorem exec_ucnBlock_of_hits (h : blockReady s) (hhit : BlockHitsEnd s w) :
    exec .ucnBlock s = .next (finish (raiseErr .bounds (storeWalk s w))) := by
  obtain ⟨hvalid, hfit⟩ := h
  rw [exec_eq, opOf, opUcnBlock, if_neg (by simp [hvalid]), if_neg (by simp [fitsBuf, operandAddr, operandLen, hfit]),
    blockWalk_eq_bounds_iff.mpr hhit]
  rfl

end

/-- Settles O45: the walk ends exactly where the tokens lead. -/
theorem ucnBlockFollowsWalk : Obligations.UcnBlockFollowsWalk := fun _ _ => exec_ucnBlock_of_tokens

/-- Settles O49: no token, or one token whose literals leave nothing for a second part. -/
theorem ucnBlockCornerCases : Obligations.UcnBlockCornerCases := by
  refine fun s h => ⟨fun hlen => ?_, fun v p hpos hv hp hlit hend => ?_⟩
  · exact exec_ucnBlock_of_tokens h .none (by rw [hlen]; exact Nat.zero_le _)
  · have hfit := h.2
    have hx : XAt s.params.bufSize s.opAddr.toNat (walkStart s) p
        { ram := s.ram.write (bufCell s.opAddr.toNat) p, idx := s.ucnIndex + 1#32, off := 1, tokens := 0 } :=
      ⟨by simp only [walkStart]; omega, v, hv, hp, rfl⟩
    have htoken := Tokens.more ⟨hpos, p, _, _, _, _, hx, .inl ⟨hlit, rfl, rfl⟩, .inl ⟨hend, rfl⟩, rfl⟩ .none
    exact exec_ucnBlock_of_tokens h htoken hend

end Sys2Proof.Machine
end

section
/-! How far a walk goes (spec/43_unitycn.md R193, R203, R205 to R207): the moves a walk is made of, what they write, how
they advance the index, and the bounds on the offset and on the number of tokens. -/

namespace Sys2Proof.Machine
open Sys2Proof.Spec

/-! ### The moves inside a token -/

/-- Inside a token the walk transforms a byte or skips literals. -/
inductive Walk.Moves (size a : Nat) (w : Walk) : Walk → Prop where
  | refl : Walk.Moves size a w w
  | x {w1 w2 : Walk} {p : Byte} (h : Walk.Moves size a w w1) (hx : XAt size a w1 p w2) : Walk.Moves size a w w2
  | skip {w1 : Walk} (h : Walk.Moves size a w w1) (lit : Nat) :
      Walk.Moves size a w { w1 with off := w1.off + lit }

/-- The index advances from `w` to `w'` by no more than the bytes between their offsets that lie in BUF. -/
def Walk.Advances (size a : Nat) (w w' : Walk) : Prop :=
  ∃ n, w'.idx = w.idx + BitVec.ofNat 32 n ∧ n + min w.off (size - a) ≤ min w'.off (size - a)

variable {size a len : Nat} {t p : Byte} {w w' w'' : Walk}

theorem Walk.Moves.trans (h : Walk.Moves size a w w') (h' : Walk.Moves size a w' w'') : Walk.Moves size a w w'' := by
  induction h' with
  | refl => exact h
  | x _ hx ih => exact ih.x hx
  | skip _ lit ih => exact ih.skip lit

theorem Walk.Advances.refl : Walk.Advances size a w w := ⟨0, (BitVec.add_zero _).symm, by omega⟩

theorem Walk.Advances.trans (h : Walk.Advances size a w w') (h' : Walk.Advances size a w' w'') :
    Walk.Advances size a w w'' := by
  obtain ⟨n, hn, hle⟩ := h
  obtain ⟨n', hn', hle'⟩ := h'
  exact ⟨n + n', by rw [hn', hn, BitVec.ofNat_add, BitVec.add_assoc], by omega⟩

theorem xAt_follows (h : XAt size a w p w') : Walk.Follows size a w w' := by
  have hfrom := walkX_from size a w
  rwa [walkX_eq_ok_iff.mpr h] at hfrom

theorem xAt_advances (h : XAt size a w p w') : Walk.Advances size a w w' := by
  obtain ⟨hlt, v, -, -, rfl⟩ := h
  exact ⟨1, rfl, by simp only; omega⟩

theorem Walk.Moves.follows (h : Walk.Moves size a w w') : Walk.Follows size a w w' := by
  induction h with
  | refl => exact .rfl
  | x _ hx ih => exact ih.trans (xAt_follows hx)
  | skip _ lit ih => exact ih.trans ⟨.refl, Nat.le_add_right _ _, le_rfl⟩

theorem Walk.Moves.advances (h : Walk.Moves size a w w') : Walk.Advances size a w w' := by
  induction h with
  | refl => exact .refl
  | x _ hx ih => exact ih.trans (xAt_advances hx)
  | skip _ lit ih => exact ih.trans ⟨0, (BitVec.add_zero _).symm, by simp only; omega⟩

/-- Tokens are counted at their end alone. -/
theorem Walk.Moves.tokens (h : Walk.Moves size a w w') : w'.tokens = w.tokens := by
  induction h with
  | refl => rfl
  | x _ hx ih =>
    obtain ⟨-, v, -, -, rfl⟩ := hx
    exact ih
  | skip _ lit ih => exact ih

/-! ### Every part is made of moves -/

theorem xAt_moves (h : XAt size a w p w') : Walk.Moves size a w w' := .x .refl h

theorem contRun_moves {n : Nat} (h : ContRun size a w n w') : Walk.Moves size a w w' := by
  induction h with
  | last hx _ => exact xAt_moves hx
  | more hx _ _ ih => exact (xAt_moves hx).trans ih

theorem contHits_moves (h : ContHits size a w w') : Walk.Moves size a w w' := by
  induction h with
  | now _ => exact .refl
  | more hx _ _ ih => exact (xAt_moves hx).trans ih

theorem litLen_moves {lit : Nat} (h : LitLen size a t w lit w') : Walk.Moves size a w w' := by
  rcases h with ⟨-, -, rfl⟩ | ⟨-, n, hrun, -⟩
  · exact .refl
  · exact contRun_moves hrun

theorem secondPart_moves (h : SecondPart size a len t w w') : Walk.Moves size a w w' := by
  rcases h with ⟨-, rfl⟩ | ⟨-, p, q, w1, w2, hp, hq, ⟨-, rfl⟩ | ⟨-, n, hrun⟩⟩
  · exact .refl
  · exact (xAt_moves hp).x hq
  · exact ((xAt_moves hp).x hq).trans (contRun_moves hrun)

theorem secondHits_moves (h : SecondHits size a len t w w') : Walk.Moves size a w w' := by
  obtain ⟨-, ⟨-, rfl⟩ | ⟨p, w1, hp, ⟨-, rfl⟩ | ⟨q, w2, hq, -, hhit⟩⟩⟩ := h
  · exact .refl
  · exact xAt_moves hp
  · exact ((xAt_moves hp).x hq).trans (contHits_moves hhit)

theorem tokenHits_moves (h : TokenHits size a len w w') : Walk.Moves size a w w' := by
  obtain ⟨-, ⟨-, rfl⟩ | ⟨t, w1, hx, ⟨-, hhit⟩ | ⟨lit, w2, hlit, hhit⟩⟩⟩ := h
  · exact .refl
  · exact (xAt_moves hx).trans (contHits_moves hhit)
  · exact (((xAt_moves hx).trans (litLen_moves hlit)).skip lit).trans (secondHits_moves hhit)

theorem oneToken_moves (h : OneToken size a len w w') :
    ∃ w3, Walk.Moves size a w w3 ∧ w' = { w3 with tokens := w3.tokens + 1 } := by
  obtain ⟨-, t, lit, w1, w2, w3, hx, hlit, hsec, rfl⟩ := h
  exact ⟨w3, (((xAt_moves hx).trans (litLen_moves hlit)).skip lit).trans (secondPart_moves hsec), rfl⟩

theorem oneToken_follows (h : OneToken size a len w w') : Walk.Follows size a w w' := by
  obtain ⟨w3, hm, rfl⟩ := oneToken_moves h
  exact hm.follows.trans ⟨.refl, le_rfl, Nat.le_succ _⟩

theorem oneToken_index (h : OneToken size a len w w') : Walk.Advances size a w w' := by
  obtain ⟨w3, hm, rfl⟩ := oneToken_moves h
  exact hm.advances

theorem oneToken_tokens (h : OneToken size a len w w') : w'.tokens = w.tokens + 1 := by
  obtain ⟨w3, hm, rfl⟩ := oneToken_moves h
  exact congrArg Nat.succ hm.tokens

theorem tokens_follows (h : Tokens size a len w w') : Walk.Follows size a w w' := by
  induction h with
  | none => exact .rfl
  | more ht _ ih => exact (oneToken_follows ht).trans ih

theorem tokens_index (h : Tokens size a len w w') : Walk.Advances size a w w' := by
  induction h with
  | none => exact .refl
  | more ht _ ih => exact (oneToken_index ht).trans ih

/-! ### Bytes the walk has passed, and bytes it has not reached -/

theorem Walk.Follows.read_ahead (h : Walk.Follows size a w w') {o : Nat} (ho : w'.off ≤ o) :
    w'.ram.read (bufCell (a + o)) = w.ram.read (bufCell (a + o)) :=
  h.writes.frame fun _ ⟨_, hlt, _⟩ => by simp only [bufCell_eq, bufAt] at hlt; omega

theorem Walk.Follows.read_behind (h : Walk.Follows size a w w') {o : Nat} (ho : o < w.off) :
    w'.ram.read (bufCell (a + o)) = w.ram.read (bufCell (a + o)) :=
  h.writes.frame fun _ ⟨hle, _⟩ => by simp only [bufCell_eq, bufAt] at hle; omega

/-- From the start of a block nothing outside `[a, size)` is changed. -/
theorem Walk.Follows.read_outside (h : Walk.Follows size a w w') {o : Nat}
    (ho : ¬ (bufCell a ≤ o ∧ o < bufCell size)) : w'.ram.read o = w.ram.read o :=
  h.writes.frame fun _ ⟨hle, _, hlt⟩ => ho (by simp only [bufCell_eq, bufAt] at hle hlt ⊢; omega)

/-! ### The offset (R203, R206) -/

theorem xAt_off_le (h : XAt size a w p w') : a + w'.off ≤ size := by
  obtain ⟨hlt, v, -, -, rfl⟩ := h
  exact hlt

/-- A run's sum is at most 255 for each byte read. -/
theorem contRun_le {n : Nat} (h : ContRun size a w n w') :
    n + 255 * w.off ≤ 255 * w'.off ∧ a + w'.off ≤ size := by
  induction h with
  | @last w w' c hx hc =>
    have hoff := xAt_off hx
    have hb := c.isLt
    exact ⟨by omega, xAt_off_le hx⟩
  | more hx hc hr ih =>
    have hoff := xAt_off hx
    exact ⟨by omega, ih.2⟩

theorem contHits_off_le (h : ContHits size a w w') (hw : a + w.off ≤ size) : a + w'.off ≤ size := by
  induction h with
  | now _ => exact hw
  | more hx _ _ ih => exact ih (xAt_off_le hx)

theorem litLen_le {lit : Nat} (h : LitLen size a t w lit w') (hw : a + w.off ≤ size) :
    w'.off + lit ≤ 256 * size + 15 := by
  have ht := t.isLt
  rcases h with ⟨-, rfl, rfl⟩ | ⟨-, n, hrun, rfl⟩
  · omega
  · have hle := contRun_le hrun
    omega

theorem secondPart_off_le (h : SecondPart size a len t w w') : w' = w ∨ a + w'.off ≤ size := by
  rcases h with ⟨-, rfl⟩ | ⟨-, p, q, w1, w2, -, hq, ⟨-, rfl⟩ | ⟨-, n, hrun⟩⟩
  · exact .inl rfl
  · exact .inr (xAt_off_le hq)
  · exact .inr (contRun_le hrun).2

theorem oneToken_off_le (h : OneToken size a len w w') : w'.off ≤ 256 * size + 15 := by
  obtain ⟨-, t, lit, w1, w2, w3, hx, hlit, hsec, rfl⟩ := h
  have hle := litLen_le hlit (xAt_off_le hx)
  rcases secondPart_off_le hsec with rfl | hsec
  · exact hle
  · simp only; omega

theorem tokens_off_le (h : Tokens size a len w w') (hw : w.off ≤ 256 * size + 15) : w'.off ≤ 256 * size + 15 := by
  induction h with
  | none => exact hw
  | more ht _ ih => exact ih (oneToken_off_le ht)

/-- A block that fits meets BUF's end exactly there. -/
theorem tokenHits_off_le (h : TokenHits size a len w w') (hfit : a + len ≤ size) : a + w'.off ≤ size := by
  obtain ⟨hlt, ⟨-, rfl⟩ | ⟨t, w1, hx, ⟨-, hhit⟩ | ⟨lit, w2, -, hlt2, hhit⟩⟩⟩ := h
  · omega
  · exact contHits_off_le hhit (xAt_off_le hx)
  · rcases hhit with ⟨-, rfl⟩ | ⟨p, w3, hp, ⟨-, rfl⟩ | ⟨q, w4, hq, -, hhit⟩⟩
    · omega
    · exact xAt_off_le hp
    · exact contHits_off_le hhit (xAt_off_le hq)

/-! ### The number of tokens (R207) -/

/-- Each token takes a byte at least, and begins below the end of the block. -/
theorem tokens_count (h : Tokens size a len w w') (hw : w.tokens ≤ min w.off len) : w'.tokens ≤ min w'.off len := by
  induction h with
  | none => exact hw
  | more ht _ ih =>
    have hlt := ht.1
    have hoff := oneToken_advances ht
    have hcount := oneToken_tokens ht
    exact ih (by omega)

end Sys2Proof.Machine
end

section
/-! What UCN_BLOCK leaves (spec/43_unitycn.md R203 to R207). -/

namespace Sys2Proof.Machine
open Sys2Proof.Spec

section
variable {s : State} {w : Walk}

theorem blockTokens_off_le (h : BlockTokens s w) : w.off ≤ 256 * s.params.bufSize + 15 :=
  tokens_off_le h (Nat.zero_le _)

theorem blockTokens_off_lt (h : BlockTokens s w) : w.off < 2 ^ 32 := by
  have hoff := blockTokens_off_le h
  have hsize := bufSize_le s.params
  omega

theorem blockTokens_count (h : BlockTokens s w) : w.tokens ≤ min w.off s.opLen.toNat := tokens_count h (Nat.zero_le _)

theorem blockHitsEnd_follows (h : BlockHitsEnd s w) :
    Walk.Follows s.params.bufSize s.opAddr.toNat (walkStart s) w ∧ s.params.bufSize ≤ s.opAddr.toNat + w.off := by
  have hfrom := blockWalk_from s
  rwa [blockWalk_eq_bounds_iff.mpr h] at hfrom

/-- A skipped literal keeps its value: the walk has not reached it before the skip, and has passed it afterwards. -/
theorem skippedLiteral_read {o : Nat} (h : SkippedLiteral s w o) :
    w.ram.read (bufCell (s.opAddr.toNat + o)) = s.ram.read (bufCell (s.opAddr.toNat + o)) := by
  obtain ⟨t, lit, w0, w1, w2, w3, htokens, -, hx, hlit, hsec, hrest, hle, hlt⟩ := h
  have hbefore := (tokens_follows htokens).trans ((xAt_moves hx).trans (litLen_moves hlit)).follows
  have hafter := (secondPart_moves hsec).follows
  exact ((tokens_follows hrest).read_behind (hlt.trans_le hafter.off_le)).trans
    ((hafter.read_behind hlt).trans (hbefore.read_ahead hle))

end

/-- Settles O46, from the bounds on a walk and its frame. -/
theorem ucnBlockOffsetFits : Obligations.UcnBlockOffsetFits := by
  intro s w h ht
  have hoff := blockTokens_off_lt ht
  have hcount := blockTokens_count ht
  have hlen := s.opLen.isLt
  refine ⟨blockTokens_off_le ht, hoff, by omega, fun o ho => (tokens_follows ht).read_outside ho, fun hend => ?_⟩
  refine ⟨_, exec_ucnBlock_of_tokens h ht hend, Nat.mod_eq_of_lt hoff, Nat.mod_eq_of_lt (by omega), rfl,
    fun o ho => (tokens_follows ht).read_outside ho, fun o ho => skippedLiteral_read ho⟩

/-- Settles O47: what the walk made stands in the state that raises. -/
theorem ucnBlockWalkFault : Obligations.UcnBlockWalkFault := by
  intro s w h hhit
  obtain ⟨hfollows, hsize⟩ := blockHitsEnd_follows hhit
  refine ⟨exec_ucnBlock_of_hits h hhit, hsize, ?_, fun o ho => hfollows.read_outside ho⟩
  obtain ⟨w0, -, htoken⟩ := hhit
  have hoff := tokenHits_off_le htoken h.2
  have hle := bufSize_le s.params
  omega

/-- The walk of a block whose bytes and tables hold values does not fault. -/
theorem blockWalk_ne_fault {s : State} (htables : tablesWritten s.ram)
    (hbuf : bufWritten s.ram s.opAddr.toNat (s.params.bufSize - s.opAddr.toNat)) (f : Fault) :
    blockWalk s ≠ .fault f := by
  intro hf
  have hfrom := blockWalk_from s
  rw [hf] at hfrom
  obtain ⟨o, -, hnone, ho | ⟨hle, hlt⟩⟩ := hfrom
  · exact absurd (htables o ho) (by rw [show s.ram.read o = none from hnone]; decide)
  · obtain ⟨i, rfl⟩ := Nat.exists_eq_add_of_le hle
    have hi := hbuf i (by simp only [walkStart, bufAt, operandAddr] at hlt; omega)
    rw [← bufAt_add] at hi
    exact absurd hi (by rw [show s.ram.read (bufAt s.opAddr.toNat + i) = none from hnone]; decide)

/-- From the start of a block the index advances by no more than the BUF bytes there are. -/
theorem walkStart_advances {s : State} {w : Walk} (h : Walk.Advances s.params.bufSize s.opAddr.toNat (walkStart s) w) :
    ∃ n, w.idx = s.ucnIndex + BitVec.ofNat 32 n ∧ n ≤ s.params.bufSize - s.opAddr.toNat := by
  obtain ⟨n, hidx, hn⟩ := h
  exact ⟨n, hidx, by omega⟩

/-- Settles O48: the walk does not fault, so it ends at the block's end or at BUF's. -/
theorem ucnBlockTerminates : Obligations.UcnBlockTerminates := by
  intro s h htables hbuf
  cases hw : blockWalk s with
  | ok u w =>
    obtain ⟨ht, hend⟩ := blockWalk_eq_ok_iff.mp hw
    obtain ⟨n, hidx, hn⟩ := walkStart_advances (tokens_index ht)
    have hcount := blockTokens_count ht
    exact ⟨w, n, .inl ⟨ht, hend, by omega⟩, hidx, hn, _, exec_ucnBlock_of_tokens h ht hend⟩
  | bounds w =>
    obtain ⟨w0, ht, htoken⟩ := blockWalk_eq_bounds_iff.mp hw
    have hhit : BlockHitsEnd s w := ⟨w0, ht, htoken⟩
    have hmoves := tokenHits_moves htoken
    obtain ⟨n, hidx, hn⟩ := walkStart_advances ((tokens_index ht).trans hmoves.advances)
    have hcount := blockTokens_count ht
    have hlt := htoken.1
    exact ⟨w, n, .inr ⟨hhit, by rw [hmoves.tokens]; omega⟩, hidx, hn, _, exec_ucnBlock_of_hits h hhit⟩
  | fault f => exact absurd hw (blockWalk_ne_fault htables hbuf f)

end Sys2Proof.Machine
end

section
/-! A block cut at a token boundary (spec/43_unitycn.md R209): the tokens before the cut are the tokens of the shorter
block, and a walk that starts further into BUF is the same walk with its offset and token count moved. -/

namespace Sys2Proof.Machine
open Sys2Proof.Spec

/-! ### The first part: a shorter block -/

section
variable {size a len len' : Nat} {t : Byte} {w w' : Walk}

theorem secondPart_of_shorter (h : SecondPart size a len t w w') (hoff : w'.off ≤ len') (hlen : len' ≤ len) :
    SecondPart size a len' t w w' := by
  rcases h with ⟨hend, rfl⟩ | ⟨-, p, q, w1, w2, hp, hq, hrest⟩
  · exact .inl ⟨hlen.trans hend, rfl⟩
  · have hrun : Walk.Moves size a w2 w' := by
      rcases hrest with ⟨-, rfl⟩ | ⟨-, n, hrun⟩
      · exact .refl
      · exact contRun_moves hrun
    have hlt := ((xAt_moves hq).trans hrun).follows.off_le
    rw [xAt_off hp] at hlt
    exact .inr ⟨by omega, p, q, w1, w2, hp, hq, hrest⟩

theorem oneToken_of_shorter (h : OneToken size a len w w') (hoff : w'.off ≤ len') (hlen : len' ≤ len) :
    OneToken size a len' w w' := by
  have hlt := oneToken_advances h
  obtain ⟨-, t, lit, w1, w2, w3, hx, hlit, hsec, rfl⟩ := h
  exact ⟨by omega, t, lit, w1, w2, w3, hx, hlit, secondPart_of_shorter hsec hoff hlen, rfl⟩

/-- The tokens that lead no further than `len'` are those of a block of that length. -/
theorem tokens_of_shorter (h : Tokens size a len w w') (hoff : w'.off ≤ len') (hlen : len' ≤ len) :
    Tokens size a len' w w' := by
  induction h with
  | none => exact .none
  | more ht hr ih => exact .more (oneToken_of_shorter ht ((tokens_follows hr).off_le.trans hoff) hlen) (ih hoff)

end

/-! ### The second part: a walk further into BUF -/

/-- The walk seen from `d` bytes and `k` tokens earlier. -/
def Walk.ahead (d k : Nat) (w : Walk) : Walk := { w with off := w.off + d, tokens := w.tokens + k }

/-- The walk of a block that starts where this walk stands. -/
def Walk.restart (w : Walk) : Walk := { w with off := 0, tokens := 0 }

theorem Walk.ahead_restart (w : Walk) : w.restart.ahead w.off w.tokens = w := by
  simp only [Walk.ahead, Walk.restart, Nat.zero_add]

/-- A change of the walk a part ends with. -/
def WalkEnd.mapWalk {α : Type} (f : Walk → Walk) (r : WalkEnd α) : WalkEnd α :=
  match r with
  | .ok v w => .ok v (f w)
  | .bounds w => .bounds (f w)
  | .fault x => .fault x

theorem WalkEnd.mapWalk_andThen {α β : Type} {f : Walk → Walk} {r : WalkEnd α} {k k' : α → Walk → WalkEnd β}
    (hk : ∀ v w, k' v (f w) = (k v w).mapWalk f) : (r.mapWalk f).andThen k' = (r.andThen k).mapWalk f := by
  cases r with
  | ok v w => exact hk v w
  | bounds w => rfl
  | fault x => rfl

theorem WalkEnd.mapWalk_ite {α : Type} (f : Walk → Walk) (c : Prop) [Decidable c] (r r' : WalkEnd α) :
    (if c then r else r').mapWalk f = if c then r.mapWalk f else r'.mapWalk f := apply_ite _ c r r'

section
variable (size a d k len : Nat) (t : Byte) (w : Walk)

theorem Walk.add_ahead_off : a + (w.ahead d k).off = a + d + w.off := by
  simp only [Walk.ahead]
  omega

theorem Walk.ahead_off_lt : (w.ahead d k).off < len ↔ w.off < len - d := by
  simp only [Walk.ahead]
  omega

theorem walkX_ahead : walkX size a (w.ahead d k) = (walkX size (a + d) w).mapWalk (Walk.ahead d k) := by
  rw [walkX, walkX, Walk.add_ahead_off, WalkEnd.mapWalk_ite]
  refine if_congr Iff.rfl rfl ?_
  simp only [Walk.ahead]
  cases readByte w.ram (bufAt (a + d + w.off)) with
  | error x => rfl
  | ok v =>
    cases hp : subst w.ram v w.idx with
    | error x => simp only [hp, WalkEnd.mapWalk]
    | ok p => simp only [hp, WalkEnd.mapWalk, Walk.ahead, Nat.add_right_comm _ d]

theorem walkRun_ahead (room lit : Nat) :
    walkRun size a room lit (w.ahead d k) = (walkRun size (a + d) room lit w).mapWalk (Walk.ahead d k) := by
  induction room generalizing lit w with
  | zero => rfl
  | succ room ih =>
    rw [walkRun, walkRun, walkX_ahead]
    refine WalkEnd.mapWalk_andThen fun c w1 => ?_
    rw [WalkEnd.mapWalk_ite, ih]
    rfl

theorem walkRunHere_ahead (lit : Nat) :
    walkRunHere size a lit (w.ahead d k) = (walkRunHere size (a + d) lit w).mapWalk (Walk.ahead d k) := by
  rw [walkRunHere, walkRunHere, Walk.add_ahead_off, walkRun_ahead]

theorem walkLiterals_ahead :
    walkLiterals size a t (w.ahead d k) = (walkLiterals size (a + d) t w).mapWalk (Walk.ahead d k) := by
  have hlit : (if (t >>> 4) = 15#8 then walkRunHere size a 15 (w.ahead d k) else .ok (t >>> 4).toNat (w.ahead d k)) =
      (if (t >>> 4) = 15#8 then walkRunHere size (a + d) 15 w else .ok (t >>> 4).toNat w).mapWalk (Walk.ahead d k) := by
    rw [WalkEnd.mapWalk_ite, walkRunHere_ahead]
    rfl
  rw [walkLiterals, walkLiterals, hlit]
  refine WalkEnd.mapWalk_andThen fun lit w1 => ?_
  simp only [WalkEnd.mapWalk, Walk.ahead, Nat.add_right_comm _ d]

theorem walkSecond_ahead :
    walkSecond size a len t (w.ahead d k) = (walkSecond size (a + d) (len - d) t w).mapWalk (Walk.ahead d k) := by
  rw [walkSecond, walkSecond, WalkEnd.mapWalk_ite]
  refine if_congr (Walk.ahead_off_lt d k len w) ?_ rfl
  rw [walkX_ahead]
  refine WalkEnd.mapWalk_andThen fun _ w1 => ?_
  rw [walkX_ahead]
  refine WalkEnd.mapWalk_andThen fun _ w2 => ?_
  rw [WalkEnd.mapWalk_ite, walkRunHere_ahead]
  exact if_congr Iff.rfl (WalkEnd.mapWalk_andThen fun _ _ => rfl) rfl

theorem walkToken_ahead :
    walkToken size a len (w.ahead d k) = (walkToken size (a + d) (len - d) w).mapWalk (Walk.ahead d k) := by
  rw [walkToken, walkToken, walkX_ahead]
  refine WalkEnd.mapWalk_andThen fun t w1 => ?_
  rw [walkLiterals_ahead]
  refine WalkEnd.mapWalk_andThen fun _ w2 => ?_
  rw [walkSecond_ahead]
  refine WalkEnd.mapWalk_andThen fun _ w3 => ?_
  simp only [WalkEnd.mapWalk, Walk.ahead, Nat.add_right_comm _ k]

theorem walkTokens_ahead (fuel : Nat) :
    walkTokens size a len fuel (w.ahead d k) = (walkTokens size (a + d) (len - d) fuel w).mapWalk (Walk.ahead d k) := by
  induction fuel generalizing w with
  | zero => rfl
  | succ fuel ih =>
    rw [walkTokens, walkTokens, WalkEnd.mapWalk_ite, walkToken_ahead]
    exact if_congr (Walk.ahead_off_lt d k len w) (WalkEnd.mapWalk_andThen fun _ w1 => ih w1) rfl

end

theorem WalkEnd.mapWalk_eq_ok {α : Type} {f : Walk → Walk} {r : WalkEnd α} {u : α} {w : Walk}
    (h : r.mapWalk f = .ok u w) : ∃ w0, r = .ok u w0 ∧ w = f w0 := by
  cases r with
  | ok v w0 =>
    cases h
    exact ⟨w0, rfl, rfl⟩
  | bounds w0 => cases h
  | fault x => cases h

/-- Tokens from an offset on to the end of the block are the tokens of the block that starts there. -/
theorem tokens_of_later {size a len : Nat} {w w' : Walk} (h : Tokens size a len w w') (hend : len ≤ w'.off) :
    ∃ w2, Tokens size (a + w.off) (len - w.off) w.restart w2 ∧ len - w.off ≤ w2.off ∧ w2.ram = w'.ram ∧
      w2.idx = w'.idx := by
  have hwalk : walkTokens size a len (len - w.off) (w.restart.ahead w.off w.tokens) = .ok () w' := by
    rw [w.ahead_restart]
    exact (walkTokens_eq_ok_iff (by omega)).mpr ⟨h, hend⟩
  rw [walkTokens_ahead] at hwalk
  obtain ⟨w2, hw2, rfl⟩ := WalkEnd.mapWalk_eq_ok hwalk
  obtain ⟨htokens, hend2⟩ := (walkTokens_eq_ok_iff (Nat.le_add_left _ _)).mp hw2
  exact ⟨w2, htokens, hend2, rfl, rfl⟩

/-! ### Both commands and the one over the whole -/

theorem tokens_trans {size a len : Nat} {w w' w'' : Walk} (h : Tokens size a len w w') (h' : Tokens size a len w' w'') :
    Tokens size a len w w'' := by
  induction h with
  | none => exact h'
  | more ht _ ih => exact .more ht (ih h')

/-- UCN_BLOCK over a region given by numbers. -/
theorem exec_ucnBlock_of_region {s : State} {w : Walk} {a len : Nat} (haddr : s.opAddr.toNat = a)
    (hlen : s.opLen.toNat = len) (hvalid : s.tablesValid = true) (hfit : a + len ≤ s.params.bufSize)
    (ht : Tokens s.params.bufSize a len (walkStart s) w) (hend : len ≤ w.off) :
    exec .ucnBlock s = .next (finish (storeWalk s w)) := by
  subst haddr hlen
  exact exec_ucnBlock_of_tokens ⟨hvalid, hfit⟩ ht hend

theorem toNat_ofNat_of_le {p : Params} {n : Nat} (h : n ≤ p.bufSize) : (BitVec.ofNat 32 n).toNat = n :=
  Nat.mod_eq_of_lt (h.trans_lt ((bufSize_le p).trans_lt (by decide)))

/-- Settles O50: the first command's walk is the whole's up to the cut, the second's is the rest of it. -/
theorem ucnBlockSplitsAtTokenBoundary : Obligations.UcnBlockSplitsAtTokenBoundary := by
  intro s w1 w h hfirst hrest hend hcut
  obtain ⟨hvalid, hfit⟩ := h
  obtain ⟨w2, hsecond, hend2, hram, hidx⟩ := tokens_of_later hrest hend
  have hfit1 : s.opAddr.toNat + w1.off ≤ s.params.bufSize := by omega
  have hfit2 : s.opAddr.toNat + w1.off + (s.opLen.toNat - w1.off) ≤ s.params.bufSize := by omega
  have hexec1 := exec_ucnBlock_of_region (s := { s with opLen := BitVec.ofNat 32 w1.off }) rfl
    (toNat_ofNat_of_le (Nat.le_of_add_left_le hfit1)) hvalid hfit1 (tokens_of_shorter hfirst le_rfl hcut.le) le_rfl
  have hexec2 := exec_ucnBlock_of_region
    (s := { finish (storeWalk { s with opLen := BitVec.ofNat 32 w1.off } w1) with
      opAddr := BitVec.ofNat 32 (s.opAddr.toNat + w1.off), opLen := BitVec.ofNat 32 (s.opLen.toNat - w1.off) })
    (toNat_ofNat_of_le hfit1) (toNat_ofNat_of_le (Nat.le_of_add_left_le hfit2)) hvalid hfit2 hsecond hend2
  exact ⟨_, _, _, exec_ucnBlock_of_tokens ⟨hvalid, hfit⟩ (tokens_trans hfirst hrest) hend, hexec1, hexec2, rfl, rfl,
    rfl, rfl, fun o => congrArg (Memory.read · o) hram, hidx⟩

end Sys2Proof.Machine
end

section
/-! The interrupt line (spec/60_exceptions.md R244, spec/10_state.md R53): the two sources as propositions, what raises
the line and what lowers it. -/

namespace Sys2Proof.Machine
open Sys2Proof.Spec

theorem errAny_iff {s : State} : errAny s = true ↔ s.err ≠ 0#9 := bne_iff_ne

/-- The line is up exactly while one of the two sources is pending and enabled (R244). -/
theorem irq_iff {s : State} :
    irq s = true ↔ (s.done = true ∧ s.ctrl.doneIe = true) ∨ (s.err ≠ 0#9 ∧ s.ctrl.errIe = true) := by
  rw [irq, Bool.or_eq_true, Bool.and_eq_true, Bool.and_eq_true, errAny_iff]

/-- Every completion sets DONE and no command writes DONE_IE, so an enabled completion interrupt is up after it. -/
theorem irq_of_exec_next {i : Instr} {s t : State} (h : exec i s = .next t) (hie : s.ctrl.doneIe = true) :
    irq t = true := by
  obtain ⟨-, hdone, -⟩ := commandsCompleteWithOneError i s t h
  obtain ⟨⟨-, -, -, -, -, -, hdoneIe, -⟩, -⟩ := commandRegisterFrame i s t h
  exact irq_iff.mpr (.inl ⟨hdone, hdoneIe.trans hie⟩)

/-- The W1C write to STATUS clears DONE (R23). -/
theorem doneAfterWrite_of_set {v : Word} (hv : v.getLsbD 1 = true) (done : Bool) : doneAfterWrite done v = false := by
  rw [doneAfterWrite, hv, Bool.not_true, Bool.and_false]

/-- With DONE clear and ERR 0 no source is pending, whatever CTRL enables. -/
theorem irq_eq_false_of_no_source {s : State} (hdone : s.done = false) (herr : s.err = 0#9) : irq s = false := by
  rw [← Bool.not_eq_true, irq_iff]
  rintro (⟨hset, -⟩ | ⟨hne, -⟩)
  · exact Bool.false_ne_true (hdone.symm.trans hset)
  · exact hne herr

/-- Settles O51: completion leaves the DONE source pending, the write to STATUS clears it and leaves ERR alone. -/
theorem interruptLine : Obligations.InterruptLine :=
  ⟨fun _ => irq_iff, fun _ _ _ => irq_of_exec_next, fun s _ _ h hv herr =>
    ⟨_, step_idle_regWrite (r := .status) h, irq_eq_false_of_no_source (doneAfterWrite_of_set hv s.done) herr⟩⟩

end Sys2Proof.Machine
end

section
/-! Reset and waiting (spec/70_reset_and_hazards.md R260, R261, R263, spec/10_state.md R61, notes/assumptions 5, 6, 8,
9): the steps at which the engine or the whole block stands still, the reset values as the host reads them, and what an
abandoned command leaves at them. -/

namespace Sys2Proof.Machine
open Sys2Proof.Spec

/-! ### The step, turn by turn -/

theorem step_nil {s : State} (h : s.agenda = []) : step s = engineTurn s := by
  simp only [step, h]

theorem step_turn {s : State} {t : Turn} {rest : List Turn} (h : s.agenda = t :: rest) :
    step s = takeTurn t { s with agenda := rest } := by
  simp only [step, h]

section
variable {s : State}

theorem engineEnabled_of_idle (h : s.busy = false) : engineEnabled s = false := by
  rw [engineEnabled, h, Bool.false_and]

theorem engineEnabled_of_inReset (h : s.inReset = true) : engineEnabled s = false := by
  rw [engineEnabled, h, Bool.not_true, Bool.and_false]

theorem engineTurn_of_disabled (h : engineEnabled s = false) : engineTurn s = .next s := by
  rw [engineTurn, h]
  rfl

/-- With no turn to come, a block whose engine may not move stays as it is. -/
theorem step_nil_of_disabled (h : engineEnabled s = false) (ha : s.agenda = []) : step s = .next s :=
  (step_nil ha).trans (engineTurn_of_disabled h)

/-- The turn of an engine that may not move is taken off the agenda. -/
theorem step_engine_of_disabled {rest : List Turn} (h : engineEnabled s = false) (ha : s.agenda = .engine :: rest) :
    step s = .next { s with agenda := rest } :=
  (step_turn ha).trans (engineTurn_of_disabled (s := { s with agenda := rest }) h)

end

/-- Settles O6: the engine of an idle block may not move. -/
theorem idleBlockWaits : Obligations.IdleBlockWaits := fun _ hb =>
  ⟨step_nil_of_disabled (engineEnabled_of_idle hb), fun _ => step_engine_of_disabled (engineEnabled_of_idle hb)⟩

/-! ### While reset is asserted (R260) -/

section
variable {s : State} (h : s.inReset = true)
include h

theorem portAccess_of_inReset (a : Access) : portAccess s a = reply .noAnswer s := if_pos h

theorem assertReset_of_inReset : assertReset s = s := if_pos h

end

/-- Settles O12, turn by turn. -/
theorem nothingMovesInReset : Obligations.NothingMovesInReset := by
  intro s rest hr
  have hdisabled := engineEnabled_of_inReset hr
  refine ⟨fun a ha => ?_, step_engine_of_disabled hdisabled, fun ha => ?_, step_turn,
    step_nil_of_disabled hdisabled⟩
  · rw [step_host ha, portAccess_of_inReset (s := { s with agenda := rest }) hr]
    rfl
  · rw [step_turn ha, takeTurn, assertReset_of_inReset (s := { s with agenda := rest }) hr]

/-! ### The reset values (R261) -/

theorem regRead_reset (r : WordReg) : regRead State.reset r = resetWord r := by cases r <;> rfl

/-- No register holds what `resetRegisters` keeps of the state: parameters, reset input and count, agenda, replies. -/
theorem regRead_resetRegisters (s : State) (r : WordReg) : regRead (resetRegisters s) r = resetWord r := by
  rw [← regRead_reset r]
  cases r <;> rfl

/-- Settles O9. -/
theorem resetValues : Obligations.ResetValues :=
  ⟨regRead_reset, irq_eq_false_of_no_source rfl rfl, fun _ => rfl, .nil⟩

/-- Settles O53: RAM is unwritten, the engine idle, and neither unit flag is set. -/
theorem resetHasStateInv : Obligations.ResetHasStateInv := ⟨.of_unwritten rfl rfl, nofun, nofun⟩

/-! ### What an abandoned command may have written (R260, spec/30_encoding.md R93) -/

section
variable {i : Instr} (s : State)

/-- Outside the `writes` column every register reads as before. -/
theorem regRead_abandonCommand {r : WordReg} (h : r ∉ writesRegs i) :
    regRead (abandonCommand i s) r = regRead s r := by
  have hcolumn : regRead (abandonCommand i s) r =
      if r ∈ writesRegs i then regRead (abandonCommand i s) r else regRead s r := by
    cases i <;> cases r <;> rfl
  exact hcolumn.trans (if_neg h)

theorem abandonCommand_seeded (h : i ≠ .prngSeed) : (abandonCommand i s).seeded = s.seeded := by
  cases i
  case prngSeed => exact absurd rfl h
  all_goals rfl

theorem abandonCommand_tablesValid (h : i ≠ .ucnHeader) : (abandonCommand i s).tablesValid = s.tablesValid := by
  cases i
  case ucnHeader => exact absurd rfl h
  all_goals rfl

theorem abandonCommand_akeyEn (h : i ≠ .ucnKeyHex) : (abandonCommand i s).ctrl.akeyEn = s.ctrl.akeyEn := by
  cases i
  case ucnKeyHex => exact absurd rfl h
  all_goals rfl

/-- No command writes the interrupt enables. -/
theorem abandonCommand_enables (i : Instr) :
    (abandonCommand i s).ctrl.doneIe = s.ctrl.doneIe ∧ (abandonCommand i s).ctrl.errIe = s.ctrl.errIe := by
  cases i <;> exact ⟨rfl, rfl⟩

end

/-! ### The assertion of reset (R260) -/

section
variable {s : State} (hr : s.inReset = false)
include hr

theorem assertReset_of_idle (hb : s.busy = false) : assertReset s = resetRegisters s := by
  simp [assertReset, hr, hb]

theorem assertReset_of_command {i : Instr} (hb : s.busy = true) (hd : decodeWord s.lastCmd = .command i) :
    assertReset s = abandonCommand i (resetRegisters s) := by
  simp [assertReset, hr, hb, hd]

theorem assertReset_of_illegal {why : Illegal} (hb : s.busy = true) (hd : decodeWord s.lastCmd = .illegal why) :
    assertReset s = resetRegisters s := by
  simp [assertReset, hr, hb, hd]

theorem assertReset_enables : (assertReset s).ctrl.doneIe = false ∧ (assertReset s).ctrl.errIe = false := by
  rcases assertReset_cases s with ⟨h, -⟩ | ⟨-, he | ⟨-, i, -, he⟩⟩
  · exact absurd (hr.symm.trans h) Bool.false_ne_true
  · rw [he]; exact ⟨rfl, rfl⟩
  · rw [he]; exact abandonCommand_enables (resetRegisters s) i

theorem assertReset_irq : irq (assertReset s) = false := by
  obtain ⟨-, -, hdone, herr, -⟩ := assertReset_reset hr
  exact irq_eq_false_of_no_source hdone herr

theorem assertReset_unwritten (o : Nat) : (assertReset s).ram.read o = none := by
  obtain ⟨-, -, -, -, hram, -⟩ := assertReset_reset hr
  rw [hram]
  rfl

end

/-- Settles O10: nothing is abandoned. -/
theorem resetOfIdleBlock : Obligations.ResetOfIdleBlock := by
  intro s rest hr hb ha
  obtain ⟨hparams, -, -, -, -, hreset, hagenda, hreplies⟩ := assertReset_reset (s := { s with agenda := rest }) hr
  refine ⟨_, step_turn ha, fun r => ?_, assertReset_irq hr, hparams, hreset, hagenda, hreplies,
    assertReset_unwritten hr⟩
  rw [assertReset_of_idle (s := { s with agenda := rest }) hr hb]
  exact regRead_resetRegisters _ r

/-- Settles O11: what the abandoned word may not write is as `resetRegisters` leaves it. -/
theorem resetAbandonsCommand : Obligations.ResetAbandonsCommand := by
  intro s rest hr hb ha
  obtain ⟨hparams, hbusy, hdone, herr, -, hreset, hagenda, hreplies⟩ :=
    assertReset_reset (s := { s with agenda := rest }) hr
  obtain ⟨hdoneIe, herrIe⟩ := assertReset_enables (s := { s with agenda := rest }) hr
  refine ⟨_, step_turn ha, hbusy, hdone, herr, assertReset_irq hr, hparams, hreset, hagenda, hreplies, hdoneIe,
    herrIe, assertReset_unwritten hr, fun i hd => ?_, fun why hd r => ?_⟩
  · rw [assertReset_of_command (s := { s with agenda := rest }) hr hb hd]
    exact ⟨fun r h => (regRead_abandonCommand _ h).trans (regRead_resetRegisters _ r), abandonCommand_seeded _,
      abandonCommand_tablesValid _, abandonCommand_akeyEn _⟩
  · rw [assertReset_of_illegal (s := { s with agenda := rest }) hr hb hd]
    exact regRead_resetRegisters _ r

end Sys2Proof.Machine
end
